-- ==== Sys2Proof/Word.lean ====
section
/-! DEFINITION. The fixed widths of the block: 16-bit words and addresses, 8-bit bytes, 12-bit CRU bit
addresses, 4-bit register numbers (00_scope.md R2, R11; 20_memory.md R51, R64). -/

namespace Sys2Proof

/-- A 16-bit word or byte address (`u16`, R11); arithmetic on it wraps modulo 2^16. -/
abbrev Word := BitVec 16

/-- An 8-bit byte (`u8`, R11). -/
abbrev Byte := BitVec 8

/-- A CRU bit address (`u12`, R11, R64); arithmetic on it wraps modulo 4096. -/
abbrev CruAddr := BitVec 12

/-- A workspace register number, 0 to 15 (R22). -/
abbrev Reg := BitVec 4

end Sys2Proof
end

