-- ==== Sys2Proof/Syntax.lean ====
section
/-! DEFINITION. The instructions: one constructor for each of the 69 rows of spec/opcode_table.json, in its
order, with the fields of its format (30_encoding.md R84 to R92, R94).

An `Instr` is the decoded instruction of 10_state.md R45: the fields of the first word and, for format VIII,
the immediate, which "is fetched at decode time" (40_flags_addressing_step.md R125). The address word of a
mode-2 operand is NOT part of it: the resolver fetches it when it resolves that operand (R115, R118), after
an earlier operand has been read and incremented (R123). -/

namespace Sys2Proof

/-- A general operand: a mode selector and a register (30_encoding.md R93). Mode 2 is two constructors,
since register field 0 means "no index". -/
inductive Operand where
  /-- Mode 0: workspace register `r`. -/
  | reg (r : Reg)
  /-- Mode 1: register `r` holds the operand's address. -/
  | ind (r : Reg)
  /-- Mode 2 with register field 0: the next instruction word is the operand's address. -/
  | sym
  /-- Mode 2 with register field `r`, not 0: the next instruction word plus register `r`. -/
  | idx (r : Reg)
  /-- Mode 3: register `r` holds the address and is incremented afterwards. -/
  | inc (r : Reg)
deriving DecidableEq, Repr

/-- The 69 instructions (30_encoding.md R94). -/
inductive Instr where
  /-- LI, load immediate (R140). -/
  | li (w : Reg) (imm : Word)
  /-- AI, add immediate (R141). -/
  | ai (w : Reg) (imm : Word)
  /-- ANDI, AND immediate (R142). -/
  | andi (w : Reg) (imm : Word)
  /-- ORI, OR immediate (R143). -/
  | ori (w : Reg) (imm : Word)
  /-- CI, compare immediate (R144). -/
  | ci (w : Reg) (imm : Word)
  /-- STWP, store workspace pointer (R145). -/
  | stwp (w : Reg)
  /-- STST, store status (R146). -/
  | stst (w : Reg)
  /-- LWPI, load workspace pointer immediate (R147). -/
  | lwpi (imm : Word)
  /-- LIMI, load interrupt mask immediate (R148). -/
  | limi (imm : Word)
  /-- IDLE, idle until an interrupt (R280). -/
  | idle
  /-- RSET, reset pulse, clears the interrupt mask (R281). -/
  | rset
  /-- RTWP, return with workspace pointer (R276). -/
  | rtwp
  /-- CKON, external control pulse (R282). -/
  | ckon
  /-- CKOF, external control pulse (R283). -/
  | ckof
  /-- LREX, external control pulse (R284). -/
  | lrex
  /-- BLWP, branch and load workspace pointer (R275). -/
  | blwp (gs : Operand)
  /-- B, branch (R235). -/
  | b (gs : Operand)
  /-- X, execute the word the operand names (R238). -/
  | x (gs : Operand)
  /-- CLR, clear (R190). -/
  | clr (gs : Operand)
  /-- NEG, negate (R191). -/
  | neg (gs : Operand)
  /-- INV, invert (R192). -/
  | inv (gs : Operand)
  /-- INC, increment (R193). -/
  | inc (gs : Operand)
  /-- INCT, increment by two (R194). -/
  | inct (gs : Operand)
  /-- DEC, decrement (R195). -/
  | dec (gs : Operand)
  /-- DECT, decrement by two (R196). -/
  | dect (gs : Operand)
  /-- BL, branch and link (R236). -/
  | bl (gs : Operand)
  /-- SWPB, swap bytes (R197). -/
  | swpb (gs : Operand)
  /-- SETO, set to ones (R198). -/
  | seto (gs : Operand)
  /-- ABS, absolute value (R199). -/
  | abs (gs : Operand)
  /-- SRA, shift right arithmetic (R211). -/
  | sra (count : BitVec 4) (w : Reg)
  /-- SRL, shift right logical (R212). -/
  | srl (count : BitVec 4) (w : Reg)
  /-- SLA, shift left arithmetic (R213). -/
  | sla (count : BitVec 4) (w : Reg)
  /-- SRC, shift right circular (R214). -/
  | src (count : BitVec 4) (w : Reg)
  /-- JMP, jump unconditional (R223). -/
  | jmp (disp : BitVec 8)
  /-- JLT, jump if less than (signed) (R224). -/
  | jlt (disp : BitVec 8)
  /-- JLE, jump if low or equal (unsigned) (R225). -/
  | jle (disp : BitVec 8)
  /-- JEQ, jump if equal (R226). -/
  | jeq (disp : BitVec 8)
  /-- JHE, jump if high or equal (unsigned) (R227). -/
  | jhe (disp : BitVec 8)
  /-- JGT, jump if greater than (signed) (R228). -/
  | jgt (disp : BitVec 8)
  /-- JNE, jump if not equal (R229). -/
  | jne (disp : BitVec 8)
  /-- JNC, jump if no carry (R230). -/
  | jnc (disp : BitVec 8)
  /-- JOC, jump on carry (R231). -/
  | joc (disp : BitVec 8)
  /-- JNO, jump if no overflow (R232). -/
  | jno (disp : BitVec 8)
  /-- JL, jump if low (unsigned) (R233). -/
  | jl (disp : BitVec 8)
  /-- JH, jump if high (unsigned) (R234). -/
  | jh (disp : BitVec 8)
  /-- JOP, jump on odd parity (R239). -/
  | jop (disp : BitVec 8)
  /-- SBO, set CRU bit to one (R252). -/
  | sbo (disp : BitVec 8)
  /-- SBZ, set CRU bit to zero (R253). -/
  | sbz (disp : BitVec 8)
  /-- TB, test CRU bit (R254). -/
  | tb (disp : BitVec 8)
  /-- COC, compare ones corresponding (R180). -/
  | coc (gs : Operand) (d : Reg)
  /-- CZC, compare zeros corresponding (R181). -/
  | czc (gs : Operand) (d : Reg)
  /-- XOR, exclusive or (R182). -/
  | xor (gs : Operand) (d : Reg)
  /-- XOP, extended operation n (R277). -/
  | xop (gs : Operand) (n : BitVec 4)
  /-- LDCR, load communication register (R255). -/
  | ldcr (gs : Operand) (count : BitVec 4)
  /-- STCR, store communication register (R256). -/
  | stcr (gs : Operand) (count : BitVec 4)
  /-- MPY, multiply (R265). -/
  | mpy (gs : Operand) (d : Reg)
  /-- DIV, divide (R266). -/
  | div (gs : Operand) (d : Reg)
  /-- SZC, set zeros corresponding (R170). -/
  | szc (gs : Operand) (gd : Operand)
  /-- SZCB, set zeros corresponding, byte (R171). -/
  | szcb (gs : Operand) (gd : Operand)
  /-- S, subtract words (R162). -/
  | s (gs : Operand) (gd : Operand)
  /-- SB, subtract bytes (R163). -/
  | sb (gs : Operand) (gd : Operand)
  /-- C, compare words (R164). -/
  | c (gs : Operand) (gd : Operand)
  /-- CB, compare bytes (R165). -/
  | cb (gs : Operand) (gd : Operand)
  /-- A, add words (R160). -/
  | a (gs : Operand) (gd : Operand)
  /-- AB, add bytes (R161). -/
  | ab (gs : Operand) (gd : Operand)
  /-- MOV, move word (R166). -/
  | mov (gs : Operand) (gd : Operand)
  /-- MOVB, move byte (R167). -/
  | movb (gs : Operand) (gd : Operand)
  /-- SOC, set ones corresponding (R168). -/
  | soc (gs : Operand) (gd : Operand)
  /-- SOCB, set ones corresponding, byte (R169). -/
  | socb (gs : Operand) (gd : Operand)
deriving DecidableEq, Repr

end Sys2Proof
end

