-- ==== Sys2Proof/WellFormed.lean ====
section
/-! DEFINITION. Which instructions the encoding can express. Every field but one is exact by its type; the
one check is that register 0 is no index register (30_encoding.md R93, 40_flags_addressing_step.md R118). -/

namespace Sys2Proof

/-- An operand some encoding expresses: "with `R != 0` the word plus register R ..., so R0 cannot index" (R93). -/
def Operand.wellFormed : Operand → Bool
  | .idx r => r != 0#4
  | .reg _ | .ind _ | .sym | .inc _ => true

/-- The general operands of an instruction (`gs` source, `gd` destination), source first (R84 to R92). -/
def Instr.operands : Instr → List Operand
  | .li _ _ | .ai _ _ | .andi _ _ | .ori _ _ | .ci _ _ | .stwp _ | .stst _ | .lwpi _ | .limi _ => []
  | .idle | .rset | .rtwp | .ckon | .ckof | .lrex => []
  | .blwp gs | .b gs | .x gs | .clr gs | .neg gs | .inv gs | .inc gs | .inct gs | .dec gs => [gs]
  | .dect gs | .bl gs | .swpb gs | .seto gs | .abs gs => [gs]
  | .sra _ _ | .srl _ _ | .sla _ _ | .src _ _ => []
  | .jmp _ | .jlt _ | .jle _ | .jeq _ | .jhe _ | .jgt _ | .jne _ | .jnc _ | .joc _ | .jno _ => []
  | .jl _ | .jh _ | .jop _ | .sbo _ | .sbz _ | .tb _ => []
  | .coc gs _ | .czc gs _ | .xor gs _ | .xop gs _ | .ldcr gs _ | .stcr gs _ | .mpy gs _ | .div gs _ => [gs]
  | .szc gs gd | .szcb gs gd | .s gs gd | .sb gs gd | .c gs gd | .cb gs gd => [gs, gd]
  | .a gs gd | .ab gs gd | .mov gs gd | .movb gs gd | .soc gs gd | .socb gs gd => [gs, gd]

/-- An instruction some encoding expresses: all its operands are. -/
def Instr.wellFormed (i : Instr) : Bool := i.operands.all Operand.wellFormed

end Sys2Proof
end

