-- ==== Sys2Proof/Decode.lean ====
section
/-! DEFINITION. Decoding and encoding, from the opcode map 30_encoding.md R94 and the formats R84 to R92.
The decoder is a table of (pattern, mask) rows, as R82 describes; the encoder below it is written from the
same map. Mode-2 address words are not decoded (see Syntax.lean). -/

namespace Sys2Proof

/-! ## Fields of a first word (R84 to R92) -/

/-- `w[3:0]`: S, or W in formats V and VIII. -/
def fieldS (w : Word) : Reg := w.extractLsb' 0 4

/-- `w[5:4]`: Ts. -/
def fieldTs (w : Word) : BitVec 2 := w.extractLsb' 4 2

/-- `w[9:6]`: D, the CRU count or the XOP number. -/
def fieldD (w : Word) : BitVec 4 := w.extractLsb' 6 4

/-- `w[11:10]`: Td. -/
def fieldTd (w : Word) : BitVec 2 := w.extractLsb' 10 2

/-- `w[7:4]`: the shift count. -/
def fieldC (w : Word) : BitVec 4 := w.extractLsb' 4 4

/-- `w[7:0]`: the displacement. -/
def fieldDisp (w : Word) : BitVec 8 := w.extractLsb' 0 8

/-- The operand a mode selector and a register field name (R93). -/
def operandOf (t : BitVec 2) (r : Reg) : Operand :=
  if t = 0#2 then .reg r
  else if t = 1#2 then .ind r
  else if t = 2#2 then (if r = 0#4 then .sym else .idx r)
  else .inc r

/-- The source operand (Ts, S). -/
def fieldSrc (w : Word) : Operand := operandOf (fieldTs w) (fieldS w)

/-- The destination operand (Td, D) of format I. -/
def fieldDst (w : Word) : Operand := operandOf (fieldTd w) (fieldD w)

/-! ## The dispatch table (R82, R94) -/

/-- One row of the opcode map: a word selects it when `w &&& mask = pattern`. -/
structure Row where
  /-- The column `match` of R94. -/
  pattern : Word
  /-- The mask of R94. -/
  mask : Word
  /-- The mask under UNUSED_BITS_ALIAS (R96): 0xFFE0 in formats VII and VIII, else the mask of R94. -/
  aliasMask : Word
  /-- Whether an immediate word follows (R91, R95). -/
  hasImm : Bool
  /-- The decoded instruction, from the first word and the immediate (R125). -/
  build : Word → Word → Instr

/-- The rows of format VIII (R91). -/
def rowsVIII : List Row := [
  ⟨0x0200#16, 0xFFF0#16, 0xFFE0#16, true, fun w imm => .li (fieldS w) imm⟩,
  ⟨0x0220#16, 0xFFF0#16, 0xFFE0#16, true, fun w imm => .ai (fieldS w) imm⟩,
  ⟨0x0240#16, 0xFFF0#16, 0xFFE0#16, true, fun w imm => .andi (fieldS w) imm⟩,
  ⟨0x0260#16, 0xFFF0#16, 0xFFE0#16, true, fun w imm => .ori (fieldS w) imm⟩,
  ⟨0x0280#16, 0xFFF0#16, 0xFFE0#16, true, fun w imm => .ci (fieldS w) imm⟩,
  ⟨0x02A0#16, 0xFFF0#16, 0xFFE0#16, false, fun w _ => .stwp (fieldS w)⟩,
  ⟨0x02C0#16, 0xFFF0#16, 0xFFE0#16, false, fun w _ => .stst (fieldS w)⟩,
  ⟨0x02E0#16, 0xFFF0#16, 0xFFE0#16, true, fun _ imm => .lwpi imm⟩,
  ⟨0x0300#16, 0xFFF0#16, 0xFFE0#16, true, fun _ imm => .limi imm⟩]

/-- The rows of format VII (R90). -/
def rowsVII : List Row := [
  ⟨0x0340#16, 0xFFFF#16, 0xFFE0#16, false, fun _ _ => .idle⟩,
  ⟨0x0360#16, 0xFFFF#16, 0xFFE0#16, false, fun _ _ => .rset⟩,
  ⟨0x0380#16, 0xFFFF#16, 0xFFE0#16, false, fun _ _ => .rtwp⟩,
  ⟨0x03A0#16, 0xFFFF#16, 0xFFE0#16, false, fun _ _ => .ckon⟩,
  ⟨0x03C0#16, 0xFFFF#16, 0xFFE0#16, false, fun _ _ => .ckof⟩,
  ⟨0x03E0#16, 0xFFFF#16, 0xFFE0#16, false, fun _ _ => .lrex⟩]

/-- The rows of format VI (R89). -/
def rowsVI : List Row := [
  ⟨0x0400#16, 0xFFC0#16, 0xFFC0#16, false, fun w _ => .blwp (fieldSrc w)⟩,
  ⟨0x0440#16, 0xFFC0#16, 0xFFC0#16, false, fun w _ => .b (fieldSrc w)⟩,
  ⟨0x0480#16, 0xFFC0#16, 0xFFC0#16, false, fun w _ => .x (fieldSrc w)⟩,
  ⟨0x04C0#16, 0xFFC0#16, 0xFFC0#16, false, fun w _ => .clr (fieldSrc w)⟩,
  ⟨0x0500#16, 0xFFC0#16, 0xFFC0#16, false, fun w _ => .neg (fieldSrc w)⟩,
  ⟨0x0540#16, 0xFFC0#16, 0xFFC0#16, false, fun w _ => .inv (fieldSrc w)⟩,
  ⟨0x0580#16, 0xFFC0#16, 0xFFC0#16, false, fun w _ => .inc (fieldSrc w)⟩,
  ⟨0x05C0#16, 0xFFC0#16, 0xFFC0#16, false, fun w _ => .inct (fieldSrc w)⟩,
  ⟨0x0600#16, 0xFFC0#16, 0xFFC0#16, false, fun w _ => .dec (fieldSrc w)⟩,
  ⟨0x0640#16, 0xFFC0#16, 0xFFC0#16, false, fun w _ => .dect (fieldSrc w)⟩,
  ⟨0x0680#16, 0xFFC0#16, 0xFFC0#16, false, fun w _ => .bl (fieldSrc w)⟩,
  ⟨0x06C0#16, 0xFFC0#16, 0xFFC0#16, false, fun w _ => .swpb (fieldSrc w)⟩,
  ⟨0x0700#16, 0xFFC0#16, 0xFFC0#16, false, fun w _ => .seto (fieldSrc w)⟩,
  ⟨0x0740#16, 0xFFC0#16, 0xFFC0#16, false, fun w _ => .abs (fieldSrc w)⟩]

/-- The rows of format V (R88). -/
def rowsV : List Row := [
  ⟨0x0800#16, 0xFF00#16, 0xFF00#16, false, fun w _ => .sra (fieldC w) (fieldS w)⟩,
  ⟨0x0900#16, 0xFF00#16, 0xFF00#16, false, fun w _ => .srl (fieldC w) (fieldS w)⟩,
  ⟨0x0A00#16, 0xFF00#16, 0xFF00#16, false, fun w _ => .sla (fieldC w) (fieldS w)⟩,
  ⟨0x0B00#16, 0xFF00#16, 0xFF00#16, false, fun w _ => .src (fieldC w) (fieldS w)⟩]

/-- The rows of format II (R85). -/
def rowsII : List Row := [
  ⟨0x1000#16, 0xFF00#16, 0xFF00#16, false, fun w _ => .jmp (fieldDisp w)⟩,
  ⟨0x1100#16, 0xFF00#16, 0xFF00#16, false, fun w _ => .jlt (fieldDisp w)⟩,
  ⟨0x1200#16, 0xFF00#16, 0xFF00#16, false, fun w _ => .jle (fieldDisp w)⟩,
  ⟨0x1300#16, 0xFF00#16, 0xFF00#16, false, fun w _ => .jeq (fieldDisp w)⟩,
  ⟨0x1400#16, 0xFF00#16, 0xFF00#16, false, fun w _ => .jhe (fieldDisp w)⟩,
  ⟨0x1500#16, 0xFF00#16, 0xFF00#16, false, fun w _ => .jgt (fieldDisp w)⟩,
  ⟨0x1600#16, 0xFF00#16, 0xFF00#16, false, fun w _ => .jne (fieldDisp w)⟩,
  ⟨0x1700#16, 0xFF00#16, 0xFF00#16, false, fun w _ => .jnc (fieldDisp w)⟩,
  ⟨0x1800#16, 0xFF00#16, 0xFF00#16, false, fun w _ => .joc (fieldDisp w)⟩,
  ⟨0x1900#16, 0xFF00#16, 0xFF00#16, false, fun w _ => .jno (fieldDisp w)⟩,
  ⟨0x1A00#16, 0xFF00#16, 0xFF00#16, false, fun w _ => .jl (fieldDisp w)⟩,
  ⟨0x1B00#16, 0xFF00#16, 0xFF00#16, false, fun w _ => .jh (fieldDisp w)⟩,
  ⟨0x1C00#16, 0xFF00#16, 0xFF00#16, false, fun w _ => .jop (fieldDisp w)⟩,
  ⟨0x1D00#16, 0xFF00#16, 0xFF00#16, false, fun w _ => .sbo (fieldDisp w)⟩,
  ⟨0x1E00#16, 0xFF00#16, 0xFF00#16, false, fun w _ => .sbz (fieldDisp w)⟩,
  ⟨0x1F00#16, 0xFF00#16, 0xFF00#16, false, fun w _ => .tb (fieldDisp w)⟩]

/-- The rows of format III (R86). -/
def rowsIII : List Row := [
  ⟨0x2000#16, 0xFC00#16, 0xFC00#16, false, fun w _ => .coc (fieldSrc w) (fieldD w)⟩,
  ⟨0x2400#16, 0xFC00#16, 0xFC00#16, false, fun w _ => .czc (fieldSrc w) (fieldD w)⟩,
  ⟨0x2800#16, 0xFC00#16, 0xFC00#16, false, fun w _ => .xor (fieldSrc w) (fieldD w)⟩]

/-- The rows of format IV (R87). -/
def rowsIV : List Row := [
  ⟨0x3000#16, 0xFC00#16, 0xFC00#16, false, fun w _ => .ldcr (fieldSrc w) (fieldD w)⟩,
  ⟨0x3400#16, 0xFC00#16, 0xFC00#16, false, fun w _ => .stcr (fieldSrc w) (fieldD w)⟩]

/-- The rows of format IX (R92). -/
def rowsIX : List Row := [
  ⟨0x2C00#16, 0xFC00#16, 0xFC00#16, false, fun w _ => .xop (fieldSrc w) (fieldD w)⟩,
  ⟨0x3800#16, 0xFC00#16, 0xFC00#16, false, fun w _ => .mpy (fieldSrc w) (fieldD w)⟩,
  ⟨0x3C00#16, 0xFC00#16, 0xFC00#16, false, fun w _ => .div (fieldSrc w) (fieldD w)⟩]

/-- The rows of format I (R84). -/
def rowsI : List Row := [
  ⟨0x4000#16, 0xF000#16, 0xF000#16, false, fun w _ => .szc (fieldSrc w) (fieldDst w)⟩,
  ⟨0x5000#16, 0xF000#16, 0xF000#16, false, fun w _ => .szcb (fieldSrc w) (fieldDst w)⟩,
  ⟨0x6000#16, 0xF000#16, 0xF000#16, false, fun w _ => .s (fieldSrc w) (fieldDst w)⟩,
  ⟨0x7000#16, 0xF000#16, 0xF000#16, false, fun w _ => .sb (fieldSrc w) (fieldDst w)⟩,
  ⟨0x8000#16, 0xF000#16, 0xF000#16, false, fun w _ => .c (fieldSrc w) (fieldDst w)⟩,
  ⟨0x9000#16, 0xF000#16, 0xF000#16, false, fun w _ => .cb (fieldSrc w) (fieldDst w)⟩,
  ⟨0xA000#16, 0xF000#16, 0xF000#16, false, fun w _ => .a (fieldSrc w) (fieldDst w)⟩,
  ⟨0xB000#16, 0xF000#16, 0xF000#16, false, fun w _ => .ab (fieldSrc w) (fieldDst w)⟩,
  ⟨0xC000#16, 0xF000#16, 0xF000#16, false, fun w _ => .mov (fieldSrc w) (fieldDst w)⟩,
  ⟨0xD000#16, 0xF000#16, 0xF000#16, false, fun w _ => .movb (fieldSrc w) (fieldDst w)⟩,
  ⟨0xE000#16, 0xF000#16, 0xF000#16, false, fun w _ => .soc (fieldSrc w) (fieldDst w)⟩,
  ⟨0xF000#16, 0xF000#16, 0xF000#16, false, fun w _ => .socb (fieldSrc w) (fieldDst w)⟩]

/-- The dispatch table of 69 rows (R82, R94). -/
def rows : List Row :=
  rowsVIII ++ rowsVII ++ rowsVI ++ rowsV ++ rowsII ++ rowsIII ++ rowsIV ++ rowsIX ++ rowsI

/-- Whether a first word selects a row, under a setting of UNUSED_BITS_ALIAS (R82, R96). -/
def Row.selects (aliased : Bool) (w : Word) (r : Row) : Bool :=
  w &&& (if aliased then r.aliasMask else r.mask) == r.pattern

/-- The row a first word selects; `none` for an illegal word (R82, R97). -/
def findRow (aliased : Bool) (w : Word) : Option Row := rows.find? (Row.selects aliased w)

/-- The instruction that first word `w` and immediate word `imm` decode to (R125). -/
def decodeWords (aliased : Bool) (w imm : Word) : Option Instr := (findRow aliased w).map fun r => r.build w imm

/-- Why bytes decode to no instruction. -/
inductive DecodeError where
  /-- Fewer bytes than the instruction's first word and immediate take. -/
  | truncated
  /-- The first word selects no row: an illegal word (30_encoding.md R97). -/
  | illegal (w : Word)
deriving DecidableEq, Repr

/-- Decode the instruction at the head of a list of bytes, big-endian (20_memory.md R56), total on any
bytes: the instruction and the bytes after its first word and immediate. -/
def decode (aliased : Bool) : List Byte → Except DecodeError (Instr × List Byte)
  | hi :: lo :: rest =>
    let w : Word := hi ++ lo
    match findRow aliased w with
    | none => .error (.illegal w)
    | some r =>
      if r.hasImm then
        match rest with
        | ihi :: ilo :: rest' => .ok (r.build w (ihi ++ ilo), rest')
        | _ => .error .truncated
      else .ok (r.build w 0#16, rest)
  | _ => .error .truncated

/-! ## The encoder (R84 to R94) -/

/-- The mode selector of an operand (R93). -/
def Operand.mode : Operand → BitVec 2
  | .reg _ => 0#2
  | .ind _ => 1#2
  | .sym => 2#2
  | .idx _ => 2#2
  | .inc _ => 3#2

/-- The register field of an operand (R93). -/
def Operand.field : Operand → Reg
  | .reg r => r
  | .ind r => r
  | .sym => 0#4
  | .idx r => r
  | .inc r => r

/-- Format VIII with a register (R91). -/
def wordW (opcode : Word) (w : Reg) : Word := opcode ||| w.setWidth 16

/-- Format V (R88). -/
def wordShift (opcode : Word) (count : BitVec 4) (w : Reg) : Word :=
  opcode ||| (count.setWidth 16 <<< 4) ||| w.setWidth 16

/-- Format II (R85). -/
def wordDisp (opcode : Word) (disp : BitVec 8) : Word := opcode ||| disp.setWidth 16

/-- Format VI (R89). -/
def wordSrc (opcode : Word) (gs : Operand) : Word :=
  opcode ||| (gs.mode.setWidth 16 <<< 4) ||| gs.field.setWidth 16

/-- Formats III, IV and IX (R86, R87, R92). -/
def wordSrcD (opcode : Word) (gs : Operand) (d : BitVec 4) : Word :=
  wordSrc opcode gs ||| (d.setWidth 16 <<< 6)

/-- Format I (R84). -/
def wordSrcDst (opcode : Word) (gs gd : Operand) : Word :=
  wordSrcD opcode gs gd.field ||| (gd.mode.setWidth 16 <<< 10)

/-- The canonical first word of an instruction (R94; unused bits and ignored fields 0, R91). -/
def firstWord : Instr → Word
  | .li w _ => wordW 0x0200#16 w
  | .ai w _ => wordW 0x0220#16 w
  | .andi w _ => wordW 0x0240#16 w
  | .ori w _ => wordW 0x0260#16 w
  | .ci w _ => wordW 0x0280#16 w
  | .stwp w => wordW 0x02A0#16 w
  | .stst w => wordW 0x02C0#16 w
  | .lwpi _ => 0x02E0#16
  | .limi _ => 0x0300#16
  | .idle => 0x0340#16
  | .rset => 0x0360#16
  | .rtwp => 0x0380#16
  | .ckon => 0x03A0#16
  | .ckof => 0x03C0#16
  | .lrex => 0x03E0#16
  | .blwp gs => wordSrc 0x0400#16 gs
  | .b gs => wordSrc 0x0440#16 gs
  | .x gs => wordSrc 0x0480#16 gs
  | .clr gs => wordSrc 0x04C0#16 gs
  | .neg gs => wordSrc 0x0500#16 gs
  | .inv gs => wordSrc 0x0540#16 gs
  | .inc gs => wordSrc 0x0580#16 gs
  | .inct gs => wordSrc 0x05C0#16 gs
  | .dec gs => wordSrc 0x0600#16 gs
  | .dect gs => wordSrc 0x0640#16 gs
  | .bl gs => wordSrc 0x0680#16 gs
  | .swpb gs => wordSrc 0x06C0#16 gs
  | .seto gs => wordSrc 0x0700#16 gs
  | .abs gs => wordSrc 0x0740#16 gs
  | .sra count w => wordShift 0x0800#16 count w
  | .srl count w => wordShift 0x0900#16 count w
  | .sla count w => wordShift 0x0A00#16 count w
  | .src count w => wordShift 0x0B00#16 count w
  | .jmp disp => wordDisp 0x1000#16 disp
  | .jlt disp => wordDisp 0x1100#16 disp
  | .jle disp => wordDisp 0x1200#16 disp
  | .jeq disp => wordDisp 0x1300#16 disp
  | .jhe disp => wordDisp 0x1400#16 disp
  | .jgt disp => wordDisp 0x1500#16 disp
  | .jne disp => wordDisp 0x1600#16 disp
  | .jnc disp => wordDisp 0x1700#16 disp
  | .joc disp => wordDisp 0x1800#16 disp
  | .jno disp => wordDisp 0x1900#16 disp
  | .jl disp => wordDisp 0x1A00#16 disp
  | .jh disp => wordDisp 0x1B00#16 disp
  | .jop disp => wordDisp 0x1C00#16 disp
  | .sbo disp => wordDisp 0x1D00#16 disp
  | .sbz disp => wordDisp 0x1E00#16 disp
  | .tb disp => wordDisp 0x1F00#16 disp
  | .coc gs d => wordSrcD 0x2000#16 gs d
  | .czc gs d => wordSrcD 0x2400#16 gs d
  | .xor gs d => wordSrcD 0x2800#16 gs d
  | .xop gs n => wordSrcD 0x2C00#16 gs n
  | .ldcr gs count => wordSrcD 0x3000#16 gs count
  | .stcr gs count => wordSrcD 0x3400#16 gs count
  | .mpy gs d => wordSrcD 0x3800#16 gs d
  | .div gs d => wordSrcD 0x3C00#16 gs d
  | .szc gs gd => wordSrcDst 0x4000#16 gs gd
  | .szcb gs gd => wordSrcDst 0x5000#16 gs gd
  | .s gs gd => wordSrcDst 0x6000#16 gs gd
  | .sb gs gd => wordSrcDst 0x7000#16 gs gd
  | .c gs gd => wordSrcDst 0x8000#16 gs gd
  | .cb gs gd => wordSrcDst 0x9000#16 gs gd
  | .a gs gd => wordSrcDst 0xA000#16 gs gd
  | .ab gs gd => wordSrcDst 0xB000#16 gs gd
  | .mov gs gd => wordSrcDst 0xC000#16 gs gd
  | .movb gs gd => wordSrcDst 0xD000#16 gs gd
  | .soc gs gd => wordSrcDst 0xE000#16 gs gd
  | .socb gs gd => wordSrcDst 0xF000#16 gs gd

/-- The immediate word of the seven instructions that have one (R81, R95). -/
def immediateWord : Instr → Option Word
  | .li _ imm | .ai _ imm | .andi _ imm | .ori _ imm | .ci _ imm | .lwpi imm | .limi imm => some imm
  | .stwp _ | .stst _ | .idle | .rset | .rtwp | .ckon | .ckof | .lrex => none
  | .blwp _ | .b _ | .x _ | .clr _ | .neg _ | .inv _ | .inc _ | .inct _ | .dec _ | .dect _ | .bl _ => none
  | .swpb _ | .seto _ | .abs _ | .sra _ _ | .srl _ _ | .sla _ _ | .src _ _ => none
  | .jmp _ | .jlt _ | .jle _ | .jeq _ | .jhe _ | .jgt _ | .jne _ | .jnc _ | .joc _ | .jno _ => none
  | .jl _ | .jh _ | .jop _ | .sbo _ | .sbz _ | .tb _ | .coc _ _ | .czc _ _ | .xor _ _ | .xop _ _ => none
  | .ldcr _ _ | .stcr _ _ | .mpy _ _ | .div _ _ | .szc _ _ | .szcb _ _ | .s _ _ | .sb _ _ | .c _ _ => none
  | .cb _ _ | .a _ _ | .ab _ _ | .mov _ _ | .movb _ _ | .soc _ _ | .socb _ _ => none

/-- The words of an instruction that decoding reads: its first word and its immediate. -/
def encode (i : Instr) : List Word := firstWord i :: (immediateWord i).toList

/-- The two bytes of a word in memory order, high byte first (20_memory.md R56). -/
def bytesOfWord (w : Word) : List Byte := [w.extractLsb' 8 8, w.extractLsb' 0 8]

/-- The bytes of an instruction that decoding reads. -/
def encodeBytes (i : Instr) : List Byte := (encode i).flatMap bytesOfWord

/-- 1 for an operand in mode 2, which takes an extension word, else 0 (R81). -/
def Operand.extWords : Operand → Nat
  | .sym => 1
  | .idx _ => 1
  | .reg _ => 0
  | .ind _ => 0
  | .inc _ => 0

/-- The length of an instruction in words, 1 to 3 (R80, R81). -/
def Instr.length (i : Instr) : Nat := (encode i).length + (i.operands.map Operand.extWords).sum

/-! ## The host's question -/

/-- The k-th 16-bit word of an instruction's bits, the first word being the least significant. -/
def tableWord (w k : Nat) : Word := BitVec.ofNat 16 (w >>> (16 * k))

/-- The three words (the longest instruction, R80) of an instruction given as the host gives it: `nbits`
bits of `w`, the first word least significant, every bit above them 0. -/
def tableWords (nbits w : Nat) : List Word :=
  let v := w % 2 ^ nbits
  [tableWord v 0, tableWord v 1, tableWord v 2]

/-- The instruction the decoder reads from those words laid out in memory order, with the default setting
of UNUSED_BITS_ALIAS (R9); `none` where it refuses. -/
def decodeTableWord (nbits w : Nat) : Option Instr :=
  match decode false ((tableWords nbits w).flatMap bytesOfWord) with
  | .ok (i, _) => some i
  | .error _ => none

end Sys2Proof
end

