-- ==== Sys2Proof/Machine/Flags.lean ====
section
/-! DEFINITION. Every flag computation: the status masks (00_scope.md R13), the status tables
(40_flags_addressing_step.md R110, R111), the compares (R113) and the adder (R114). -/

namespace Sys2Proof.Machine

/-! ## Masks of ST (R13, R28) -/

/-- LGT, logical (unsigned) greater than (R29). -/
def flagLGT : Word := 0x8000#16
/-- AGT, arithmetic (signed) greater than (R30). -/
def flagAGT : Word := 0x4000#16
/-- EQ, equal (R31). -/
def flagEQ : Word := 0x2000#16
/-- C, carry (R32). -/
def flagC : Word := 0x1000#16
/-- OV, overflow (R33). -/
def flagOV : Word := 0x0800#16
/-- OP, odd parity (R34). -/
def flagOP : Word := 0x0400#16
/-- X, XOP active (R35). -/
def flagX : Word := 0x0200#16
/-- IMASK, the interrupt mask (R36). -/
def maskInt : Word := 0x000F#16
/-- LGT, AGT and EQ. -/
def maskCompare : Word := 0xE000#16
/-- LGT, AGT, EQ and OP. -/
def maskCompareOP : Word := 0xE400#16
/-- LGT, AGT, EQ and C. -/
def maskCompareC : Word := 0xF000#16
/-- LGT, AGT, EQ, C and OV. -/
def maskArith : Word := 0xF800#16
/-- LGT, AGT, EQ, C, OV and OP. -/
def maskArithOP : Word := 0xFC00#16

/-- A mask when a condition holds, else 0: "(C if c)" of the instruction rules. -/
def flagIf (mask : Word) (cond : Bool) : Word := if cond then mask else 0#16

/-! ## Status tables (R110, R111) -/

/-- The number of 1 bits of a byte (R111). -/
def popCount (v : Byte) : Nat :=
  (v.getLsbD 0).toNat + (v.getLsbD 1).toNat + (v.getLsbD 2).toNat + (v.getLsbD 3).toNat
    + (v.getLsbD 4).toNat + (v.getLsbD 5).toNat + (v.getLsbD 6).toNat + (v.getLsbD 7).toNat

/-- Odd parity (R34, R111). -/
def oddParity (v : Byte) : Bool := popCount v % 2 == 1

/-- WStatus, the word status table (R110). -/
def wStatus (v : Word) : Word :=
  flagIf flagLGT (v != 0#16) ||| flagIf flagAGT (decide (0 < v.toNat) && decide (v.toNat < 0x8000))
    ||| flagIf flagEQ (v == 0#16) ||| flagIf flagC (v == 0#16) ||| flagIf flagOV (v == 0x8000#16)

/-- BStatus, the byte status table (R111). -/
def bStatus (v : Byte) : Word :=
  flagIf flagLGT (v != 0#8) ||| flagIf flagAGT (decide (0 < v.toNat) && decide (v.toNat < 0x80))
    ||| flagIf flagEQ (v == 0#8) ||| flagIf flagC (v == 0#8) ||| flagIf flagOV (v == 0x80#8)
    ||| flagIf flagOP (oddParity v)

/-- CmpW, CmpB: the first operand compared with the second, unsigned, signed, for equality (R113). -/
def compareStatus {n : Nat} (a b : BitVec n) : Word :=
  flagIf flagLGT (decide (b.toNat < a.toNat)) ||| flagIf flagAGT (decide (b.toInt < a.toInt))
    ||| flagIf flagEQ (a == b)

/-! ## The adder (R114) -/

/-- A sum or difference with its carry and signed overflow. -/
structure Sum (n : Nat) where
  value : BitVec n
  carry : Bool
  overflow : Bool
deriving DecidableEq, Repr

/-- AddN: the carry is out of the top bit; overflow when like signs give the other sign (R114). -/
def addSum {n : Nat} (a b : BitVec n) : Sum n where
  value := a + b
  carry := decide (2 ^ n ≤ a.toNat + b.toNat)
  overflow := a.msb == b.msb && (a + b).msb != a.msb

/-- SubN, destination minus source: the carry is "no borrow" (R114). -/
def subSum {n : Nat} (d s : BitVec n) : Sum n where
  value := d - s
  carry := decide (s.toNat ≤ d.toNat)
  overflow := s.msb != d.msb && (d - s).msb != d.msb

/-- The flags of a word sum: the compare bits of the result, C and OV of the adder (R141, R160, R162). -/
def wordSumStatus (r : Sum 16) : Word :=
  (wStatus r.value &&& maskCompare) ||| flagIf flagC r.carry ||| flagIf flagOV r.overflow

/-- The flags of a byte sum, with the parity of the result (R161, R163). -/
def byteSumStatus (r : Sum 8) : Word :=
  (bStatus r.value &&& maskCompareOP) ||| flagIf flagC r.carry ||| flagIf flagOV r.overflow

end Sys2Proof.Machine
end

