-- ==== Sys2Proof/Config.lean ====
section
/-! DEFINITION. What an implementation fixes: the OPEN parameters of 00_scope.md R9 as plain data, the
words the platform supplies at the reset vector, and the free values, which have no body. -/

namespace Sys2Proof

/-- The parameters that 00_scope.md R9 marks OPEN, with its defaults. A machine state carries them, no
step and no host operation writes them, so a claim about every state is a claim about every setting. -/
structure Config.Params where
  /-- ST_RESET (D3): the value of ST after reset; its low nibble must be 0. -/
  stReset : Word := 0x0000#16
  /-- INT_CYCLES (D8): cycles charged for an interrupt dispatch. -/
  intCycles : Nat := 22
  /-- PcRemap (D9) as a finite table: the first pair whose first part is the value gives the result, any
  other value is unchanged. Every function on 16-bit words is such a table; results must be even. -/
  pcRemap : List (Word × Word) := []
  /-- UNUSED_BITS_ALIAS (D15): whether the unused bits of formats VII and VIII are ignored. -/
  unusedBitsAlias : Bool := false
  /-- RSET_CLEARS_MASK (D22). -/
  rsetClearsMask : Bool := true
  /-- X_DEPTH_MAX (D25), "model's choice, at least 1". DESIGN CHOICE 32768 (log 6), the number of words of
  memory: a chain that executes no word of memory twice is followed to its end. Safe. -/
  xDepthMax : Nat := 32768
deriving DecidableEq, Repr

/-- The constraints R9 puts on the parameters: `ST_RESET & 0x000F = 0`, PcRemap gives even values (only
even values reach it, R26), X_DEPTH_MAX is at least 1. -/
def Config.Params.wf (p : Config.Params) : Bool :=
  p.stReset &&& 0x000F#16 == 0#16 && p.pcRemap.all (fun e => e.2 &&& 1#16 == 0#16) && decide (1 ≤ p.xDepthMax)

/-- The word the platform's memory holds at 0x0000, read by reset into WP (70_reset_and_hazards.md R340,
R343). DESIGN CHOICE (log 3), unsafe: the spec gives no value; this is that of its scenario S1. -/
def Config.resetWorkspace : Word := 0x83E0#16

/-- The word the platform's memory holds at 0x0002, read by reset into PC (R340, R343). DESIGN CHOICE
(log 3), unsafe: the value of scenario S1. -/
def Config.resetEntry : Word := 0x0024#16

/-- FREE VALUE (log 2): what the memory port answers for the byte at an address nothing has written
(20_memory.md R66: "an unconstrained oracle answer ... never as zero"). No body: nothing can evaluate it. -/
opaque Config.unwrittenByte : Nat → Byte

/-- FREE VALUE (log 7): the n-th sample of `int_pending` that no queued input supplies (60_exceptions.md R305). -/
opaque Config.freeIntSample : Nat → Bool

/-- FREE VALUE (log 8): the n-th answer of `readBit` that no queued input supplies (20_memory.md R64). -/
opaque Config.freeCruBit : Nat → Bool

end Sys2Proof
end

