-- ==== Sys2Proof/Machine/Memory.lean ====
section
/-! DEFINITION. The memory behind the Memory Port (20_memory.md R50, R51) as plain RAM, the premise of R61
(log 1): a list of (byte address, byte) pairs in one canonical form. -/

namespace Sys2Proof.Machine

/-- The bytes that are known: addresses strictly rising, below 2^16 (`Memory.wf`). -/
abbrev Memory := List Host.Cell

/-- The high byte of a word, the byte at its even address (20_memory.md R56). -/
def highByte (w : Word) : Byte := w.extractLsb' 8 8

/-- The low byte of a word, the byte at its odd address (R56). -/
def lowByte (w : Word) : Byte := w.extractLsb' 0 8

/-- The address of the word that holds a byte: bit 0 dropped (R52). -/
def evenAddr (a : Word) : Word := a &&& 0xFFFE#16

/-- The four bytes of the reset vector, which the platform supplies (70_reset_and_hazards.md R343 (1));
no other byte of the address space is fixed. DESIGN CHOICE (log 3), unsafe. -/
def platformByte (a : Nat) : Option Byte :=
  if a = 0 then some (highByte Config.resetWorkspace)
  else if a = 1 then some (lowByte Config.resetWorkspace)
  else if a = 2 then some (highByte Config.resetEntry)
  else if a = 3 then some (lowByte Config.resetEntry)
  else none

/-- What an unlisted address reads as: the platform's byte, or a FREE VALUE (R66; log 2). -/
def unlistedByte (a : Nat) : Byte := (platformByte a).getD (Config.unwrittenByte a)

/-- The listed byte at an address. -/
def Memory.lookup (a : Nat) : Memory → Option Byte
  | [] => none
  | c :: rest => if c.1 = a then some c.2 else Memory.lookup a rest

/-- The byte at an address: listed, or what an unlisted address reads as. -/
def Memory.byte (m : Memory) (a : Nat) : Byte := (m.lookup a).getD (unlistedByte a)

/-- List a byte, keeping addresses rising. -/
def Memory.put (a : Nat) (b : Byte) : Memory → Memory
  | [] => [(a, b)]
  | c :: rest => if a < c.1 then (a, b) :: c :: rest else if a = c.1 then (a, b) :: rest else c :: Memory.put a b rest

/-- Unlist an address. -/
def Memory.erase (a : Nat) : Memory → Memory
  | [] => []
  | c :: rest => if c.1 = a then Memory.erase a rest else c :: Memory.erase a rest

/-- Write one byte: writing what the platform supplies there anyway unlists the address. -/
def Memory.setByte (a : Nat) (b : Byte) (m : Memory) : Memory :=
  match platformByte a with
  | none => m.put a b
  | some p => if p = b then m.erase a else m.put a b

/-- The word at an address, big-endian, address bit 0 ignored (R52, R56). -/
def Memory.wordAt (m : Memory) (a : Word) : Word :=
  m.byte (evenAddr a).toNat ++ m.byte ((evenAddr a).toNat + 1)

/-- Write the word at an address, address bit 0 ignored (R53, R56). -/
def Memory.setWord (a v : Word) (m : Memory) : Memory :=
  (m.setByte (evenAddr a).toNat (highByte v)).setByte ((evenAddr a).toNat + 1) (lowByte v)

/-- A cell the canonical form allows: an address of the space, and not the byte the platform supplies there. -/
def cellOk (c : Host.Cell) : Bool := decide (c.1 < 65536) && decide (platformByte c.1 ≠ some c.2)

/-- The canonical form: addresses strictly rising, every cell allowed. -/
def Memory.wf : Memory → Bool
  | [] => true
  | [c] => cellOk c
  | c :: d :: rest => cellOk c && decide (c.1 < d.1) && Memory.wf (d :: rest)

end Sys2Proof.Machine
end

