-- ==== Sys2Proof/Machine/State.lean ====
section
/-! DEFINITION. The state of the machine as plain data (10_state.md R20), why a step can be refused, and the
state right after reset. -/

namespace Sys2Proof.Machine

/-- An operand size (40_flags_addressing_step.md R122). -/
inductive Size where
  | byte
  | word
deriving DecidableEq, Repr

/-- The operand slot a post-increment belongs to (10_state.md R45). -/
inductive Slot where
  | src
  | dst
deriving DecidableEq, Repr

/-- A pending post-increment: the memory address of the register, computed with the WP in force when the
operand was resolved, and the operand's size (10_state.md R45). -/
structure Pending where
  addr : Word
  size : Size
deriving DecidableEq, Repr

/-- The five external control pulses (00_scope.md R8; 48_context_control.md R285). -/
inductive Pulse where
  | idle
  | rset
  | ckon
  | ckof
  | lrex
deriving DecidableEq, Repr

/-- One call on a port of the block, with what it carried, or one pulse (00_scope.md R8). -/
inductive PortCall where
  | readWord (addr value : Word)
  | writeWord (addr value : Word)
  | readBit (addr : CruAddr) (answer : Bool)
  | writeBit (addr : CruAddr) (value : Bool)
  | pulse (line : Pulse)
deriving DecidableEq, Repr

/-- Reasons to stop with a fault: none. "No behaviour of the block is a fault"
(93_implementation_defined.md 1.5; 60_exceptions.md R304), so nothing raises one. -/
inductive Fault
deriving DecidableEq, Repr

/-- Reasons to give no meaning. -/
inductive Refusal where
  /-- Raised by an arm of `exec` whose instruction has no meaning yet; no arm raises it. Safe. -/
  | notModelled (mnemonic : String)
  /-- Raised by X when the chain of X instructions it starts is deeper than X_DEPTH_MAX, an endless chain
  among them (45_jump_branch.md R238: "A model ... may refuse deeper chains"). Safe. -/
  | xChainTooDeep
deriving DecidableEq, Repr

/-- The state: the machine's own (10_state.md R20), the memory behind its port, and the model's own fields
for the environment's answers, the port calls made and the OPEN parameters. -/
structure State where
  /-- WP, all 16 bits as written (R21). -/
  wp : Word
  /-- PC, even between instructions (R25, R26). -/
  pc : Word
  /-- ST (R28). -/
  st : Word
  /-- Emulated clock cycles since reset (R39). -/
  cycles : Nat
  /-- Illegal words executed since reset (R40). -/
  illegalCount : Nat
  /-- Set by IDLE, cleared by an accepted interrupt or reset (R42). -/
  idle : Bool
  /-- Set and cleared from outside only (R43). -/
  suspended : Bool
  /-- The debugger's one breakpoint address (R44). -/
  breakpoint : Option Word
  /-- Set by a breakpoint stop, so that the next pass goes on (R44). -/
  bpLatch : Bool
  /-- pending[SRC] (R45), empty at instruction boundaries. -/
  pendingSrc : Option Pending
  /-- pending[DST] (R45), empty at instruction boundaries. -/
  pendingDst : Option Pending
  /-- How many X instructions are in progress (R46), 0 at instruction boundaries. -/
  xDepth : Nat
  /-- The memory behind the Memory Port (20_memory.md R50). -/
  mem : Memory
  /-- MODEL: the samples of `int_pending` to come (60_exceptions.md R305; log 7). -/
  intSamples : List Bool
  /-- MODEL: the answers of `readBit` calls to come (20_memory.md R64; log 8). -/
  cruAnswers : List Bool
  /-- MODEL: what the Memory Port's owner answers to the reads to come, `none` where it answers with its RAM;
  empty when it answers all of them so (20_memory.md R61; 00_scope.md R7; log 1). -/
  readAnswers : List (Option Word)
  /-- MODEL: what collaborators do to `suspended` during each of the steps to come, `none` where they leave it
  (70_reset_and_hazards.md R353, R357; log 12). -/
  suspendChanges : List (Option Bool)
  /-- MODEL: the index of the next free value (log 7, log 8). -/
  freeIndex : Nat
  /-- MODEL: the port calls and pulses made, newest first (20_memory.md R70, R76; log 9). -/
  calls : List PortCall
  /-- MODEL: the OPEN parameters (00_scope.md R9; log 5), written by nothing. -/
  params : Config.Params
deriving DecidableEq, Repr

/-- PcRemap (00_scope.md R9, 10_state.md R26 (c)): the table's result, else the value itself. -/
def remapPc (p : Config.Params) (t : Word) : Word :=
  match p.pcRemap.find? (fun e => e.1 == t) with
  | some e => e.2
  | none => t

/-- The machine right after reset (70_reset_and_hazards.md R340, R342; 10_state.md R48) on a memory that
lists nothing, with the default parameters, and with the two port calls reset makes. -/
def State.reset : State where
  wp := Memory.wordAt [] 0x0000#16
  pc := evenAddr (Memory.wordAt [] 0x0002#16)
  st := 0x0000#16
  cycles := 0
  illegalCount := 0
  idle := false
  suspended := false
  breakpoint := none
  bpLatch := false
  pendingSrc := none
  pendingDst := none
  xDepth := 0
  mem := []
  intSamples := []
  cruAnswers := []
  readAnswers := []
  suspendChanges := []
  freeIndex := 0
  calls := [.readWord 0x0002#16 (Memory.wordAt [] 0x0002#16), .readWord 0x0000#16 (Memory.wordAt [] 0x0000#16)]
  params := {}

end Sys2Proof.Machine
end

