-- ==== Sys2Proof/Machine/Ops.lean ====
section
/-! DEFINITION. The named operations over the state: the ports, the workspace registers, PC and ST, the
fetch, the deferred post-increment, the inputs, and the exceptional paths (context switch, return, interrupt
dispatch, illegal word). Statements run in the order of the spec's pseudocode, which is the order of the
port calls (00_scope.md R12, 20_memory.md R70). -/

namespace Sys2Proof.Machine

/-- What a step or a meaning answers. -/
abbrev StepOutcome := Host.Outcome State Fault Refusal

/-! ## The Memory Port (20_memory.md R50 to R55) -/

/-- The byte of memory at an address. -/
def State.byteAt (s : State) (a : Word) : Byte := s.mem.byte a.toNat

/-- The word of memory at an address, address bit 0 ignored. -/
def State.wordAt (s : State) (a : Word) : Word := s.mem.wordAt a

/-- Record a port call (R76; log 9). -/
def State.record (s : State) (c : PortCall) : State := { s with calls := c :: s.calls }

/-- What the port answers to the next read: the word of memory, unless a hook answers in its place
(20_memory.md R61; 93_implementation_defined.md 1.2; log 1). -/
def State.answerAt (s : State) (a : Word) : Word := (s.readAnswers.head?.join).getD (s.wordAt a)

/-- `MemRead(a, 2)`: one `readWord` at the even address (R52). -/
def State.readWord (s : State) (a : Word) : Word × State :=
  (s.answerAt a,
    { s with readAnswers := s.readAnswers.tail, calls := .readWord (evenAddr a) (s.answerAt a) :: s.calls })

/-- `MemWrite(a, 2, v)`: one `writeWord` at the even address, no read (R53). -/
def State.writeWord (s : State) (a v : Word) : State :=
  { s with mem := s.mem.setWord a v, calls := .writeWord (evenAddr a) v :: s.calls }

/-- The byte of a word that an address selects: high at even, low at odd addresses (R54). -/
def selectByte (a w : Word) : Byte := if a &&& 1#16 = 0#16 then highByte w else lowByte w

/-- A word with the byte an address selects replaced (R55). -/
def mergeByte (a : Word) (b : Byte) (w : Word) : Word :=
  if a &&& 1#16 = 0#16 then b ++ lowByte w else highByte w ++ b

/-- `MemRead(a, 1)`: one `readWord`, then the byte (R54). -/
def State.readByte (s : State) (a : Word) : Byte × State :=
  let r := s.readWord a
  (selectByte a r.1, r.2)

/-- `MemWrite(a, 1, b)`: one `readWord`, then one `writeWord` with the other byte unchanged (R55). -/
def State.writeByte (s : State) (a : Word) (b : Byte) : State :=
  let r := s.readWord a
  r.2.writeWord a (mergeByte a b r.1)

/-! ## Workspace registers (10_state.md R22, R24) -/

/-- `RegAddr(n)`, modulo 2^16 (R24). -/
def State.regAddr (s : State) (n : Reg) : Word := s.wp + 2#16 * n.setWidth 16

/-- The value of register n: the word at its address, address bit 0 ignored (R21, R22). -/
def State.regAt (s : State) (n : Reg) : Word := s.wordAt (s.regAddr n)

/-- `x[n]`: one `readWord` (R12). -/
def State.readReg (s : State) (n : Reg) : Word × State := s.readWord (s.regAddr n)

/-- `x[n] <- v`: one `writeWord` (R12). -/
def State.writeReg (s : State) (n : Reg) (v : Word) : State := s.writeWord (s.regAddr n) v

/-! ## PC, ST, cycles, pulses -/

/-- `pc <- t`: bit 0 dropped, then PcRemap (10_state.md R26). -/
def State.setPc (s : State) (t : Word) : State := { s with pc := remapPc s.params (evenAddr t) }

/-- `SetST(clear, bits)` (00_scope.md R12). -/
def State.setSt (s : State) (clear bits : Word) : State := { s with st := (s.st &&& ~~~clear) ||| bits }

/-- `cycles += n` (R12). -/
def State.addCycles (s : State) (n : Nat) : State := { s with cycles := s.cycles + n }

/-- `pulse(name)` (48_context_control.md R285). -/
def State.pulse (s : State) (p : Pulse) : State := s.record (.pulse p)

/-- `FetchWord()` (40_flags_addressing_step.md R120). -/
def State.fetchWord (s : State) : Word × State :=
  let r := s.readWord s.pc
  (r.1, r.2.setPc (s.pc + 2#16))

/-! ## Deferred post-increments (R119, R121) -/

/-- The contents of a pending slot. -/
def State.pending (s : State) : Slot → Option Pending
  | .src => s.pendingSrc
  | .dst => s.pendingDst

/-- Set a pending slot. -/
def State.setPending (s : State) (slot : Slot) (p : Option Pending) : State :=
  match slot with
  | .src => { s with pendingSrc := p }
  | .dst => { s with pendingDst := p }

/-- What a post-increment adds: 1 for a byte operand, 2 for a word operand (R119). -/
def Size.step : Size → Word
  | .byte => 1#16
  | .word => 2#16

/-- `PostInc(slot)`: re-read the register's word, write it incremented, empty the slot; nothing and no port
call when the slot is empty (R121). -/
def State.postInc (s : State) (slot : Slot) : State :=
  match s.pending slot with
  | none => s
  | some p =>
    let v := s.readWord p.addr
    (v.2.writeWord p.addr (v.1 + p.size.step)).setPending slot none

/-! ## The CRU Port and the interrupt line -/

/-- `readBit(a)`: the next queued answer, or a free value (20_memory.md R64; log 8). -/
def State.readBit (s : State) (a : CruAddr) : Bool × State :=
  match s.cruAnswers with
  | b :: rest => (b, { s with cruAnswers := rest, calls := .readBit a b :: s.calls })
  | [] =>
    let b := Config.freeCruBit s.freeIndex
    (b, { s with freeIndex := s.freeIndex + 1, calls := .readBit a b :: s.calls })

/-- `writeBit(a, v)` (R64). -/
def State.writeBit (s : State) (a : CruAddr) (v : Bool) : State := s.record (.writeBit a v)

/-- One sample of `int_pending`: the next queued one, or a free value (60_exceptions.md R305; log 7). -/
def State.sampleInt (s : State) : Bool × State :=
  match s.intSamples with
  | b :: rest => (b, { s with intSamples := rest })
  | [] => (Config.freeIntSample s.freeIndex, { s with freeIndex := s.freeIndex + 1 })

/-- What collaborators did to `suspended` during the step that ends here, raised or cleared from inside a port
hook among it; the loop reads the flag at its next test (70_reset_and_hazards.md R353, R357; log 12). -/
def State.noteSuspend (s : State) : State :=
  { s with
    suspended := (s.suspendChanges.head?.join).getD s.suspended
    suspendChanges := s.suspendChanges.tail }

/-! ## The context switch and its return (48_context_control.md R270, R276) -/

/-- The R11 store of XOP: the effective address into new R11 (R270). -/
def State.passOperand (s : State) (newWp : Word) : Option Word → State
  | none => s
  | some ea => s.writeWord (newWp + 22#16) ea

/-- `ContextSwitch(va, xopArg)`, shared by the interrupt dispatch, BLWP and XOP: new WP from the vector, the
old WP, PC, ST into new R13, R14, R15, then the new PC, read last, from the vector (R270). -/
def State.contextSwitch (s : State) (va : Word) (xopArg : Option Word) : State :=
  let w := s.readWord va
  let s1 := w.2.passOperand w.1 xopArg
  let s2 := s1.writeWord (w.1 + 26#16) s1.wp
  let s3 := s2.writeWord (w.1 + 28#16) s2.pc
  let s4 := s3.writeWord (w.1 + 30#16) s3.st
  let p := s4.readWord (va + 2#16)
  { p.2 with wp := w.1 }.setPc p.1

/-- The return: ST, PC, WP from R15, R14, R13 of the current workspace, all read before any is set (R276). -/
def State.contextReturn (s : State) : State :=
  let st := s.readReg 15#4
  let pcv := st.2.readReg 14#4
  let wpv := pcv.2.readReg 13#4
  { ({ wpv.2 with st := st.1 }.setPc pcv.1) with wp := wpv.1 }

/-! ## Exceptional paths (60_exceptions.md) -/

/-- The illegal-instruction action: count it, charge 10 cycles, go on (R300). -/
def State.illegalInstruction (s : State) : State :=
  { s with illegalCount := s.illegalCount + 1 }.addCycles 10

/-- Whether the interrupt mask admits a request: "an interrupt is taken only when IMASK is not zero"
(10_state.md R36, R305). -/
def State.maskOpen (s : State) : Bool := s.st &&& maskInt != 0#16

/-- The interrupt dispatch: context switch through 0x0004, then mask 0, idle left, INT_CYCLES charged (R306). -/
def State.interruptDispatch (s : State) : State :=
  let s1 := (s.contextSwitch 0x0004#16 none).setSt maskInt 0#16
  { s1 with idle := false }.addCycles s1.params.intCycles

/-- The interrupt test at the end of a step: one sample, and the dispatch when it is accepted
(40_flags_addressing_step.md R127, R305). -/
def State.interruptTest (s : State) : State :=
  let p := s.sampleInt
  if s.maskOpen && p.1 then p.2.interruptDispatch else p.2

/-! ## Decoding at PC -/

/-- `Decode(w)` with PC after `w`: the instruction, and the state after its immediate has been fetched
(R125); `none` for an illegal word. -/
def State.decodeFetched (s : State) (w : Word) : Option (Instr × State) :=
  match findRow s.params.unusedBitsAlias w with
  | none => none
  | some r =>
    if r.hasImm then
      let imm := s.fetchWord
      some (r.build w imm.1, imm.2)
    else some (r.build w 0#16, s)

end Sys2Proof.Machine
end

