-- ==== Sys2Proof/Machine/Fetch.lean ====
section
/-! DEFINITION. Where the fetch of the next instruction reads, for placing an instruction there. -/

namespace Sys2Proof.Machine

/-- The address PC has after a fetch at `a` (40_flags_addressing_step.md R120, 10_state.md R26). -/
def State.fetchNext (s : State) (a : Word) : Word := remapPc s.params (evenAddr (a + 2#16))

/-- Three words stored where the next three fetches in a row read, the first one stored last. -/
def State.placeAtFetch (s : State) (w0 w1 w2 : Word) : State :=
  let a1 := s.fetchNext s.pc
  let a2 := s.fetchNext a1
  { s with mem := ((s.mem.setWord a2 w2).setWord a1 w1).setWord s.pc w0 }

/-- Let the next pass of the run loop fetch what memory holds: not suspended, not idle, no breakpoint stop at
this PC (R350), and no hook waiting to answer a read. -/
def State.letFetch (s : State) : State :=
  { s with
    suspended := false
    idle := false
    bpLatch := s.bpLatch || s.breakpoint == some s.pc
    readAnswers := [] }

end Sys2Proof.Machine
end

