-- ==== Sys2Proof/Machine/Operands.lean ====
section
/-! DEFINITION. The addressing-mode resolver (40_flags_addressing_step.md R115 to R119) and the operand
sequences the instruction families share (R123, 42_dual_operand.md R172, R183, 43_single_operand.md R200). -/

namespace Sys2Proof.Machine

/-- The overhead cycles of an operand (R115, 70_reset_and_hazards.md R373). -/
def overhead (size : Size) : Operand → Nat
  | .reg _ => 0
  | .ind _ => 4
  | .sym => 8
  | .idx _ => 8
  | .inc _ => match size with
    | .byte => 6
    | .word => 8

/-- The effective address of an operand, not masked (R115). In mode 2 the extension word is read before the
index register (R118); mode 3 leaves a pending increment (R119). -/
def resolveAddr (slot : Slot) (o : Operand) (size : Size) (s : State) : Word × State :=
  match o with
  | .reg r => (s.regAddr r, s)
  | .ind r => s.readReg r
  | .sym => s.fetchWord
  | .idx r =>
    let w := s.fetchWord
    let x := w.2.readReg r
    (w.1 + x.1, x.2)
  | .inc r =>
    let v := s.readReg r
    (v.1, v.2.setPending slot (some ⟨s.regAddr r, size⟩))

/-- `Resolve(slot, T, R, size)`: the effective address, with the overhead charged (R115). -/
def resolve (slot : Slot) (o : Operand) (size : Size) (s : State) : Word × State :=
  let ea := resolveAddr slot o size s
  (ea.1, ea.2.addCycles (overhead size o))

/-- What an instruction makes of its operand values: the value it writes, if any, the status bits it clears
and those it sets, and its base cycles. -/
structure Effect (n : Nat) where
  write : Option (BitVec n)
  clear : Word
  bits : Word
  cycles : Nat
deriving DecidableEq, Repr

/-- A word result with LGT, AGT and EQ from it (R112). -/
def resultEffect (r : Word) (cycles : Nat) : Effect 16 := ⟨some r, maskCompare, wStatus r &&& maskCompare, cycles⟩

/-- A byte result with LGT, AGT, EQ and OP from it (R112, R173). -/
def byteResultEffect (r : Byte) : Effect 8 := ⟨some r, maskCompareOP, bStatus r &&& maskCompareOP, 14⟩

/-- A word sum with its five flags (R114). -/
def sumEffect (r : Sum 16) (cycles : Nat) : Effect 16 := ⟨some r.value, maskArith, wordSumStatus r, cycles⟩

/-- A byte sum with its six flags (R114, R173). -/
def byteSumEffect (r : Sum 8) : Effect 8 := ⟨some r.value, maskArithOP, byteSumStatus r, 14⟩

/-- A word write, when there is one. -/
def State.storeWord (s : State) (a : Word) : Option Word → State
  | none => s
  | some v => s.writeWord a v

/-- A byte write, when there is one. -/
def State.storeByte (s : State) (a : Word) : Option Byte → State
  | none => s
  | some v => s.writeByte a v

/-- The flags and the cycles of an effect. -/
def State.conclude {n : Nat} (s : State) (e : Effect n) : State := (s.setSt e.clear e.bits).addCycles e.cycles

/-- The source value of a word operand, with its increment applied (first three lines of R123). -/
def readSource (o : Operand) (s : State) : Word × State :=
  let sa := resolve .src o .word s
  let sv := sa.2.readWord sa.1
  (sv.1, sv.2.postInc .src)

/-- The source value of a byte operand, with its increment applied (R123, R173). -/
def readSourceByte (o : Operand) (s : State) : Byte × State :=
  let sa := resolve .src o .byte s
  let sv := sa.2.readByte sa.1
  (sv.1, sv.2.postInc .src)

/-- The address of an operand whose increment is applied before it is used (45_jump_branch.md R235). -/
def branchTarget (o : Operand) (s : State) : Word × State :=
  let sa := resolve .src o .word s
  (sa.1, sa.2.postInc .src)

/-- Format I, words, with the old destination read (R172). -/
def wordDual (op : Word → Word → Effect 16) (gs gd : Operand) (s : State) : State :=
  let sv := readSource gs s
  let da := resolve .dst gd .word sv.2
  let dv := da.2.readWord da.1
  let e := op sv.1 dv.1
  ((dv.2.storeWord da.1 e.write).postInc .dst).conclude e

/-- Format I, bytes, with the old destination read (R172, R173). -/
def byteDual (op : Byte → Byte → Effect 8) (gs gd : Operand) (s : State) : State :=
  let sv := readSourceByte gs s
  let da := resolve .dst gd .byte sv.2
  let dv := da.2.readByte da.1
  let e := op sv.1 dv.1
  ((dv.2.storeByte da.1 e.write).postInc .dst).conclude e

/-- Format I, words, the destination not read (R166). -/
def wordMove (op : Word → Effect 16) (gs gd : Operand) (s : State) : State :=
  let sv := readSource gs s
  let da := resolve .dst gd .word sv.2
  let e := op sv.1
  ((da.2.storeWord da.1 e.write).postInc .dst).conclude e

/-- Format I, bytes, the destination not read but for the byte write (R167). -/
def byteMove (op : Byte → Effect 8) (gs gd : Operand) (s : State) : State :=
  let sv := readSourceByte gs s
  let da := resolve .dst gd .byte sv.2
  let e := op sv.1
  ((da.2.storeByte da.1 e.write).postInc .dst).conclude e

/-- Format III: a word source and a workspace register (R183). -/
def regDual (op : Word → Word → Effect 16) (gs : Operand) (d : Reg) (s : State) : State :=
  let sv := readSource gs s
  let dv := sv.2.readReg d
  let e := op sv.1 dv.1
  (dv.2.storeWord (dv.2.regAddr d) e.write).conclude e

/-- Format VI: one word operand in place (R200). -/
def wordUnary (op : Word → Effect 16) (gs : Operand) (s : State) : State :=
  let sa := resolve .src gs .word s
  let v := sa.2.readWord sa.1
  let e := op v.1
  ((v.2.storeWord sa.1 e.write).postInc .src).conclude e

/-- Format VI with the operand written and not read: CLR and SETO (R190, R198). -/
def wordFill (value : Word) (gs : Operand) (s : State) : State :=
  let sa := resolve .src gs .word s
  ((sa.2.writeWord sa.1 value).postInc .src).addCycles 10

/-- One workspace register in place: format VIII with a register (41_immediate.md) and the shifts (R210). -/
def regUnary (op : Word → Effect 16) (w : Reg) (s : State) : State :=
  let v := s.readReg w
  let e := op v.1
  (v.2.storeWord (v.2.regAddr w) e.write).conclude e

end Sys2Proof.Machine
end

