-- ==== Sys2Proof/Machine/ContextControl.lean ====
section
/-! DEFINITION. Context switch and external control instructions (48_context_control.md). -/

namespace Sys2Proof.Machine

/-- BLWP: the switch, then the increment of the OLD workspace's register (R275). -/
def execBlwp (gs : Operand) (s : State) : StepOutcome :=
  let sa := resolve .src gs .word s
  .next (((sa.2.contextSwitch sa.1 none).postInc .src).addCycles 26)

/-- RTWP (R276). -/
def execRtwp (s : State) : StepOutcome := .next (s.contextReturn.addCycles 14)

/-- The address of the vector of XOP n, `0x0040 + 4n` (20_memory.md R62). -/
def xopVector (n : BitVec 4) : Word := 0x0040#16 + 4#16 * n.setWidth 16

/-- XOP: the increment, the switch with the effective address in new R11, then X is set in ST (R277). -/
def execXop (gs : Operand) (n : BitVec 4) (s : State) : StepOutcome :=
  let sa := branchTarget gs s
  .next (((sa.2.contextSwitch (xopVector n) (some sa.1)).setSt flagX flagX).addCycles 36)

/-- IDLE (R280). -/
def execIdle (s : State) : StepOutcome := .next ({ s.pulse .idle with idle := true }.addCycles 12)

/-- RSET: clears the interrupt mask under RSET_CLEARS_MASK (R281). -/
def execRset (s : State) : StepOutcome :=
  .next ((if s.params.rsetClearsMask then (s.pulse .rset).setSt maskInt 0#16 else s.pulse .rset).addCycles 12)

/-- CKON: a pulse (R282). -/
def execCkon (s : State) : StepOutcome := .next ((s.pulse .ckon).addCycles 12)

/-- CKOF: a pulse (R283). -/
def execCkof (s : State) : StepOutcome := .next ((s.pulse .ckof).addCycles 12)

/-- LREX: a pulse; it starts no LOAD sequence (R284). -/
def execLrex (s : State) : StepOutcome := .next ((s.pulse .lrex).addCycles 12)

end Sys2Proof.Machine
end

