-- ==== Sys2Proof/Machine/Cru.lean ====
section
/-! DEFINITION. CRU instructions (46_cru.md): SBO, SBZ, TB, LDCR, STCR. -/

namespace Sys2Proof.Machine

/-- The CRU base: `(x[12] >> 1) & 0x0FFF`, one read of R12 (R250). -/
def cruBase (s : State) : CruAddr × State :=
  let r := s.readReg 12#4
  (r.1.extractLsb' 1 12, r.2)

/-- The CRU address of a single-bit instruction, modulo 4096 (R250). -/
def cruBitAddr (base : CruAddr) (disp : BitVec 8) : CruAddr := base + disp.signExtend 12

/-- The number of bits of a multi-bit transfer: the field, with 0 meaning 16 (R251). -/
def cruCount (count : BitVec 4) : Nat := if count = 0#4 then 16 else count.toNat

/-- The `n` low bits of `v` to ascending addresses, least significant first (R255). -/
def writeBits (base : CruAddr) (v : Word) : Nat → State → State
  | 0, s => s
  | n + 1, s => writeBits (base + 1#12) (v >>> 1) n (s.writeBit base (v.getLsbD 0))

/-- `n` bits from ascending addresses, the first one bit 0 (R256). -/
def readBits (base : CruAddr) : Nat → State → Word × State
  | 0, s => (0#16, s)
  | n + 1, s =>
    let b := s.readBit base
    let rest := readBits (base + 1#12) n b.2
    ((if b.1 then 1#16 else 0#16) ||| (rest.1 <<< 1), rest.2)

/-- SBO (R252). -/
def execSbo (disp : BitVec 8) (s : State) : StepOutcome :=
  let b := cruBase s
  .next ((b.2.writeBit (cruBitAddr b.1 disp) true).addCycles 12)

/-- SBZ (R253). -/
def execSbz (disp : BitVec 8) (s : State) : StepOutcome :=
  let b := cruBase s
  .next ((b.2.writeBit (cruBitAddr b.1 disp) false).addCycles 12)

/-- TB: EQ is the bit read (R254). -/
def execTb (disp : BitVec 8) (s : State) : StepOutcome :=
  let b := cruBase s
  let v := b.2.readBit (cruBitAddr b.1 disp)
  .next ((v.2.setSt flagEQ (flagIf flagEQ v.1)).addCycles 12)

/-- The flags of a transfer of a byte (R255, R256). -/
def State.cruByteFlags (s : State) (v : Byte) : State := s.setSt maskCompareOP (bStatus v &&& maskCompareOP)

/-- The flags of a transfer of a word (R255, R256). -/
def State.cruWordFlags (s : State) (v : Word) : State := s.setSt maskCompare (wStatus v &&& maskCompare)

/-- LDCR: a byte operand for 1 to 8 bits, else a word; R12 read after the operand's increment (R251, R255). -/
def execLdcr (gs : Operand) (count : BitVec 4) (s : State) : StepOutcome :=
  let cnt := cruCount count
  if cnt ≤ 8 then
    let sv := readSourceByte gs s
    let b := cruBase sv.2
    .next (((writeBits b.1 (sv.1.setWidth 16) cnt b.2).cruByteFlags sv.1).addCycles (20 + 2 * cnt))
  else
    let sv := readSource gs s
    let b := cruBase sv.2
    .next (((writeBits b.1 sv.1 cnt b.2).cruWordFlags sv.1).addCycles (20 + 2 * cnt))

/-- The base cycles of STCR (R256). -/
def stcrCycles (cnt : Nat) : Nat := if cnt ≤ 7 then 42 else if cnt = 8 then 44 else if cnt ≤ 15 then 58 else 60

/-- STCR: the operand resolved, R12 read, the bits read, then the store with zeros above them (R251, R256). -/
def execStcr (gs : Operand) (count : BitVec 4) (s : State) : StepOutcome :=
  let cnt := cruCount count
  if cnt ≤ 8 then
    let sa := resolve .src gs .byte s
    let b := cruBase sa.2
    let v := readBits b.1 cnt b.2
    .next ((((v.2.writeByte sa.1 (lowByte v.1)).postInc .src).cruByteFlags (lowByte v.1)).addCycles (stcrCycles cnt))
  else
    let sa := resolve .src gs .word s
    let b := cruBase sa.2
    let v := readBits b.1 cnt b.2
    .next ((((v.2.writeWord sa.1 v.1).postInc .src).cruWordFlags v.1).addCycles (stcrCycles cnt))

end Sys2Proof.Machine
end

