-- ==== Sys2Proof/Machine/DualOperand.lean ====
section
/-! DEFINITION. Two-operand instructions (42_dual_operand.md): format I, words and bytes, and format III. -/

namespace Sys2Proof.Machine

/-! ## Format I (R160 to R173); `gs` is the source, `gd` the destination -/

/-- A (R160). -/
def execA (gs gd : Operand) (s : State) : StepOutcome :=
  .next (wordDual (fun sv dv => sumEffect (addSum dv sv) 14) gs gd s)

/-- AB (R161). -/
def execAb (gs gd : Operand) (s : State) : StepOutcome :=
  .next (byteDual (fun sv dv => byteSumEffect (addSum dv sv)) gs gd s)

/-- S: destination minus source (R162). -/
def execS (gs gd : Operand) (s : State) : StepOutcome :=
  .next (wordDual (fun sv dv => sumEffect (subSum dv sv) 14) gs gd s)

/-- SB (R163). -/
def execSb (gs gd : Operand) (s : State) : StepOutcome :=
  .next (byteDual (fun sv dv => byteSumEffect (subSum dv sv)) gs gd s)

/-- C: source against destination, no write (R164). -/
def execC (gs gd : Operand) (s : State) : StepOutcome :=
  .next (wordDual (fun sv dv => ⟨none, maskCompare, compareStatus sv dv, 14⟩) gs gd s)

/-- CB: source against destination, with the parity of the source byte (R165). -/
def execCb (gs gd : Operand) (s : State) : StepOutcome :=
  .next (byteDual
    (fun sv dv => ⟨none, maskCompareOP, compareStatus sv dv ||| (bStatus sv &&& flagOP), 14⟩) gs gd s)

/-- MOV: the destination is not read (R166). -/
def execMov (gs gd : Operand) (s : State) : StepOutcome :=
  .next (wordMove (fun sv => resultEffect sv 14) gs gd s)

/-- MOVB (R167). -/
def execMovb (gs gd : Operand) (s : State) : StepOutcome := .next (byteMove byteResultEffect gs gd s)

/-- SOC: OR (R168). -/
def execSoc (gs gd : Operand) (s : State) : StepOutcome :=
  .next (wordDual (fun sv dv => resultEffect (dv ||| sv) 14) gs gd s)

/-- SOCB (R169). -/
def execSocb (gs gd : Operand) (s : State) : StepOutcome :=
  .next (byteDual (fun sv dv => byteResultEffect (dv ||| sv)) gs gd s)

/-- SZC: AND NOT (R170). -/
def execSzc (gs gd : Operand) (s : State) : StepOutcome :=
  .next (wordDual (fun sv dv => resultEffect (dv &&& ~~~sv) 14) gs gd s)

/-- SZCB (R171). -/
def execSzcb (gs gd : Operand) (s : State) : StepOutcome :=
  .next (byteDual (fun sv dv => byteResultEffect (dv &&& ~~~sv)) gs gd s)

/-! ## Format III (R180 to R183) -/

/-- COC: EQ when every 1 bit of the source is 1 in the register (R180). -/
def execCoc (gs : Operand) (d : Reg) (s : State) : StepOutcome :=
  .next (regDual (fun sv dv => ⟨none, flagEQ, flagIf flagEQ (sv &&& dv == sv), 14⟩) gs d s)

/-- CZC: EQ when every 1 bit of the source is 0 in the register (R181). -/
def execCzc (gs : Operand) (d : Reg) (s : State) : StepOutcome :=
  .next (regDual (fun sv dv => ⟨none, flagEQ, flagIf flagEQ (sv &&& dv == 0#16), 14⟩) gs d s)

/-- XOR (R182). -/
def execXor (gs : Operand) (d : Reg) (s : State) : StepOutcome :=
  .next (regDual (fun sv dv => resultEffect (sv ^^^ dv) 14) gs d s)

end Sys2Proof.Machine
end

