-- ==== Sys2Proof/Machine/Immediate.lean ====
section
/-! DEFINITION. Immediate and internal-register instructions (41_immediate.md): format VIII. The immediate has been
fetched by the decoder, so PC points past it (R125). -/

namespace Sys2Proof.Machine

/-- LI: the register is written without being read (R140). -/
def execLi (w : Reg) (imm : Word) (s : State) : StepOutcome :=
  .next ((s.writeReg w imm).conclude (resultEffect imm 12))

/-- AI (R141). -/
def execAi (w : Reg) (imm : Word) (s : State) : StepOutcome :=
  .next (regUnary (fun v => sumEffect (addSum v imm) 14) w s)

/-- ANDI (R142). -/
def execAndi (w : Reg) (imm : Word) (s : State) : StepOutcome :=
  .next (regUnary (fun v => resultEffect (v &&& imm) 14) w s)

/-- ORI (R143). -/
def execOri (w : Reg) (imm : Word) (s : State) : StepOutcome :=
  .next (regUnary (fun v => resultEffect (v ||| imm) 14) w s)

/-- CI: compares, writes nothing (R144). -/
def execCi (w : Reg) (imm : Word) (s : State) : StepOutcome :=
  .next (regUnary (fun v => ⟨none, maskCompare, compareStatus v imm, 14⟩) w s)

/-- STWP: WP stored as it is, no flags (R145). -/
def execStwp (w : Reg) (s : State) : StepOutcome := .next ((s.writeReg w s.wp).addCycles 8)

/-- STST: all 16 bits of ST, no flags (R146). -/
def execStst (w : Reg) (s : State) : StepOutcome := .next ((s.writeReg w s.st).addCycles 8)

/-- LWPI: odd values kept, no flags (R147). -/
def execLwpi (imm : Word) (s : State) : StepOutcome := .next ({ s with wp := imm }.addCycles 10)

/-- LIMI: only IMASK changes (R148). -/
def execLimi (imm : Word) (s : State) : StepOutcome :=
  .next ((s.setSt maskInt (imm &&& maskInt)).addCycles 16)

end Sys2Proof.Machine
end

