-- ==== Sys2Proof/Machine/JumpBranch.lean ====
section
/-! DEFINITION. Jumps and branches (45_jump_branch.md): format II jumps, B and BL. X is in Execute.lean. -/

namespace Sys2Proof.Machine

/-- Whether a flag of ST is set; conditions test the bits "as they are" (R220). -/
def State.hasFlag (s : State) (mask : Word) : Bool := s.st &&& mask != 0#16

/-- The displacement of a jump in bytes, `2 * sext8(disp)` (R220). -/
def jumpOffset (disp : BitVec 8) : Word := 2#16 * disp.signExtend 16

/-- Every jump: PC is already past the jump word, or past the X that executes it (R220, R222). -/
def jumpIf (cond : Bool) (disp : BitVec 8) (s : State) : State :=
  if cond then (s.setPc (s.pc + jumpOffset disp)).addCycles 10 else s.addCycles 8

/-- JMP: always (R223). -/
def execJmp (disp : BitVec 8) (s : State) : StepOutcome := .next (jumpIf true disp s)

/-- JLT (R224). -/
def execJlt (disp : BitVec 8) (s : State) : StepOutcome := .next (jumpIf (!s.hasFlag flagAGT && !s.hasFlag flagEQ) disp s)

/-- JLE (R225). -/
def execJle (disp : BitVec 8) (s : State) : StepOutcome := .next (jumpIf (!s.hasFlag flagLGT || s.hasFlag flagEQ) disp s)

/-- JEQ (R226). -/
def execJeq (disp : BitVec 8) (s : State) : StepOutcome := .next (jumpIf (s.hasFlag flagEQ) disp s)

/-- JHE (R227). -/
def execJhe (disp : BitVec 8) (s : State) : StepOutcome := .next (jumpIf (s.hasFlag flagLGT || s.hasFlag flagEQ) disp s)

/-- JGT (R228). -/
def execJgt (disp : BitVec 8) (s : State) : StepOutcome := .next (jumpIf (s.hasFlag flagAGT) disp s)

/-- JNE (R229). -/
def execJne (disp : BitVec 8) (s : State) : StepOutcome := .next (jumpIf (!s.hasFlag flagEQ) disp s)

/-- JNC (R230). -/
def execJnc (disp : BitVec 8) (s : State) : StepOutcome := .next (jumpIf (!s.hasFlag flagC) disp s)

/-- JOC (R231). -/
def execJoc (disp : BitVec 8) (s : State) : StepOutcome := .next (jumpIf (s.hasFlag flagC) disp s)

/-- JNO (R232). -/
def execJno (disp : BitVec 8) (s : State) : StepOutcome := .next (jumpIf (!s.hasFlag flagOV) disp s)

/-- JL (R233). -/
def execJl (disp : BitVec 8) (s : State) : StepOutcome := .next (jumpIf (!s.hasFlag flagLGT && !s.hasFlag flagEQ) disp s)

/-- JH (R234). -/
def execJh (disp : BitVec 8) (s : State) : StepOutcome := .next (jumpIf (s.hasFlag flagLGT && !s.hasFlag flagEQ) disp s)

/-- JOP (R239). -/
def execJop (disp : BitVec 8) (s : State) : StepOutcome := .next (jumpIf (s.hasFlag flagOP) disp s)

/-- B: to the operand's address, the operand not read (R235). -/
def execB (gs : Operand) (s : State) : StepOutcome :=
  let sa := branchTarget gs s
  .next ((sa.2.setPc sa.1).addCycles 8)

/-- BL: the return address into R11 after the operand's increment, then the branch (R236). -/
def execBl (gs : Operand) (s : State) : StepOutcome :=
  let sa := branchTarget gs s
  .next (((sa.2.writeReg 11#4 sa.2.pc).setPc sa.1).addCycles 12)

end Sys2Proof.Machine
end

