-- ==== Sys2Proof/Machine/MulDiv.lean ====
section
/-! DEFINITION. Multiply and divide (47_muldiv.md). -/

namespace Sys2Proof.Machine

/-- The address of the second word of the pair D: the word after register D in memory (R264). -/
def State.pairAddr (s : State) (d : Reg) : Word := s.regAddr d + 2#16

/-- MPY: unsigned 16 by 16 to 32 bits, high word first, no flag (R265). -/
def execMpy (gs : Operand) (d : Reg) (s : State) : StepOutcome :=
  let sv := readSource gs s
  let dv := sv.2.readReg d
  let p := dv.1.toNat * sv.1.toNat
  let hi := dv.2.writeReg d (BitVec.ofNat 16 (p / 0x10000))
  .next ((hi.writeWord (hi.pairAddr d) (BitVec.ofNat 16 p)).addCycles 52)

/-- DIV: unsigned 32 by 16 bits when the divisor is above the high word, else only OV is set (R266). -/
def execDiv (gs : Operand) (d : Reg) (s : State) : StepOutcome :=
  let sv := readSource gs s
  let hi := sv.2.readReg d
  .next (if hi.1.toNat < sv.1.toNat then
    let lo := hi.2.readWord (hi.2.pairAddr d)
    let n := hi.1.toNat * 0x10000 + lo.1.toNat
    let q := lo.2.writeReg d (BitVec.ofNat 16 (n / sv.1.toNat))
    ((q.writeWord (q.pairAddr d) (BitVec.ofNat 16 (n % sv.1.toNat))).setSt flagOV 0#16).addCycles 92
  else (hi.2.setSt flagOV flagOV).addCycles 16)

end Sys2Proof.Machine
end

