-- ==== Sys2Proof/Machine/Shift.lean ====
section
/-! DEFINITION. Shifts (44_shift.md): format V. -/

namespace Sys2Proof.Machine

/-- `ShiftCount(Cn)`, 1 to 16: the field, or the low nibble of R0 with 0 meaning 16, for 8 cycles (R210). -/
def shiftCount (count : BitVec 4) (s : State) : Nat × State :=
  if count = 0#4 then
    let r := s.readReg 0#4
    let t := r.1 &&& 0x000F#16
    (if t = 0#16 then 16 else t.toNat, r.2.addCycles 8)
  else (count.toNat, s)

/-- The effect of SRA, SRL and SRC: the result and the carry bit; OV unchanged. -/
def shiftEffect (r : Word) (carry : Bool) (cnt : Nat) : Effect 16 :=
  ⟨some r, maskCompareC, (wStatus r &&& maskCompare) ||| flagIf flagC carry, 12 + 2 * cnt⟩

/-- SRA of a value by 1 to 16 (R211). -/
def sraEffect (cnt : Nat) (v : Word) : Effect 16 := shiftEffect (v.sshiftRight cnt) (v.getLsbD (cnt - 1)) cnt

/-- SRL of a value by 1 to 16 (R212). -/
def srlEffect (cnt : Nat) (v : Word) : Effect 16 := shiftEffect (v >>> cnt) (v.getLsbD (cnt - 1)) cnt

/-- Whether the bits v[15], ..., v[15-cnt] are not all equal, with "v[-1]" = 0 (R213). -/
def slaOverflow (cnt : Nat) (v : Word) : Bool :=
  let top : BitVec 17 := (v ++ 0#1) >>> (16 - cnt)
  top != 0#17 && top != 0x1FFFF#17 >>> (16 - cnt)

/-- SLA of a value by 1 to 16: also OV (R213). -/
def slaEffect (cnt : Nat) (v : Word) : Effect 16 :=
  ⟨some (v <<< cnt), maskArith,
    (wStatus (v <<< cnt) &&& maskCompare) ||| flagIf flagC (v.getLsbD (16 - cnt))
      ||| flagIf flagOV (slaOverflow cnt v), 12 + 2 * cnt⟩

/-- SRC of a value by 1 to 16 (R214). -/
def srcEffect (cnt : Nat) (v : Word) : Effect 16 :=
  shiftEffect ((v >>> cnt) ||| (v <<< (16 - cnt))) (v.getLsbD (cnt - 1)) cnt

/-- The sequence of every shift: the count, then the register in place (R210). -/
def shiftRegister (op : Nat → Word → Effect 16) (count : BitVec 4) (w : Reg) (s : State) : State :=
  let c := shiftCount count s
  regUnary (op c.1) w c.2

/-- SRA (R211). -/
def execSra (count : BitVec 4) (w : Reg) (s : State) : StepOutcome := .next (shiftRegister sraEffect count w s)

/-- SRL (R212). -/
def execSrl (count : BitVec 4) (w : Reg) (s : State) : StepOutcome := .next (shiftRegister srlEffect count w s)

/-- SLA (R213). -/
def execSla (count : BitVec 4) (w : Reg) (s : State) : StepOutcome := .next (shiftRegister slaEffect count w s)

/-- SRC (R214). -/
def execSrc (count : BitVec 4) (w : Reg) (s : State) : StepOutcome := .next (shiftRegister srcEffect count w s)

end Sys2Proof.Machine
end

