-- ==== Sys2Proof/Machine/SingleOperand.lean ====
section
/-! DEFINITION. Single-operand data instructions (43_single_operand.md): format VI in place. -/

namespace Sys2Proof.Machine

/-- CLR: the operand is not read, no flag (R190). -/
def execClr (gs : Operand) (s : State) : StepOutcome := .next (wordFill 0x0000#16 gs s)

/-- NEG: all five flags from the word table of the result (R191). -/
def execNeg (gs : Operand) (s : State) : StepOutcome :=
  .next (wordUnary (fun v => ⟨some (-v), maskArith, wStatus (-v) &&& maskArith, 12⟩) gs s)

/-- INV: C and OV unchanged (R192). -/
def execInv (gs : Operand) (s : State) : StepOutcome :=
  .next (wordUnary (fun v => resultEffect (~~~v) 10) gs s)

/-- INC: all five flags from the word table of the result (R193). -/
def execInc (gs : Operand) (s : State) : StepOutcome :=
  .next (wordUnary (fun v => ⟨some (v + 1#16), maskArith, wStatus (v + 1#16) &&& maskArith, 10⟩) gs s)

/-- The effect of INCT, DEC and DECT: the word `r`, with C and OV as the rule says them of `r`. -/
def stepEffect (r : Word) (carry overflow : Bool) : Effect 16 :=
  ⟨some r, maskArith, (wStatus r &&& maskCompare) ||| flagIf flagC carry ||| flagIf flagOV overflow, 10⟩

/-- INCT: C when the result is 0 or 1, OV when it is 0x8000 or 0x8001 (R194). -/
def execInct (gs : Operand) (s : State) : StepOutcome :=
  .next (wordUnary (fun v =>
    stepEffect (v + 2#16) (decide ((v + 2#16).toNat < 2)) (v + 2#16 == 0x8000#16 || v + 2#16 == 0x8001#16)) gs s)

/-- DEC: C unless the result is 0xFFFF, OV when it is 0x7FFF (R195). -/
def execDec (gs : Operand) (s : State) : StepOutcome :=
  .next (wordUnary (fun v =>
    stepEffect (v + 0xFFFF#16) (v + 0xFFFF#16 != 0xFFFF#16) (v + 0xFFFF#16 == 0x7FFF#16)) gs s)

/-- DECT: C when the result is below 0xFFFE, OV when it is 0x7FFF or 0x7FFE (R196). -/
def execDect (gs : Operand) (s : State) : StepOutcome :=
  .next (wordUnary (fun v =>
    stepEffect (v + 0xFFFE#16) (decide ((v + 0xFFFE#16).toNat < 0xFFFE))
      (v + 0xFFFE#16 == 0x7FFF#16 || v + 0xFFFE#16 == 0x7FFE#16)) gs s)

/-- SWPB: no flag (R197). -/
def execSwpb (gs : Operand) (s : State) : StepOutcome :=
  .next (wordUnary (fun v => ⟨some (lowByte v ++ highByte v), 0#16, 0#16, 10⟩) gs s)

/-- SETO: the operand is not read, no flag (R198). -/
def execSeto (gs : Operand) (s : State) : StepOutcome := .next (wordFill 0xFFFF#16 gs s)

/-- ABS: written only when negative, LGT, AGT, EQ and OV from the ORIGINAL operand, C cleared (R199). -/
def execAbs (gs : Operand) (s : State) : StepOutcome :=
  .next (wordUnary (fun v =>
    ⟨if v.msb then some (-v) else none, maskArith, wStatus v &&& (maskCompare ||| flagOV),
      if v.msb then 14 else 12⟩) gs s)

end Sys2Proof.Machine
end

