-- ==== Sys2Proof/Machine/Execute.lean ====
section
/-! DEFINITION. X, the instruction that executes a word (45_jump_branch.md R238), and `Execute(w)`
(40_flags_addressing_step.md R126) as X needs it. -/

namespace Sys2Proof.Machine

/-- The meaning of an instruction, X's own meaning given: one arm per instruction, as in `exec`. -/
def execWith (xMeaning : Operand → State → StepOutcome) (i : Instr) (s : State) : StepOutcome :=
  match i with
  | .li w imm => execLi w imm s
  | .ai w imm => execAi w imm s
  | .andi w imm => execAndi w imm s
  | .ori w imm => execOri w imm s
  | .ci w imm => execCi w imm s
  | .stwp w => execStwp w s
  | .stst w => execStst w s
  | .lwpi imm => execLwpi imm s
  | .limi imm => execLimi imm s
  | .idle => execIdle s
  | .rset => execRset s
  | .rtwp => execRtwp s
  | .ckon => execCkon s
  | .ckof => execCkof s
  | .lrex => execLrex s
  | .blwp gs => execBlwp gs s
  | .b gs => execB gs s
  | .x gs => xMeaning gs s
  | .clr gs => execClr gs s
  | .neg gs => execNeg gs s
  | .inv gs => execInv gs s
  | .inc r => execInc r s
  | .inct gs => execInct gs s
  | .dec gs => execDec gs s
  | .dect gs => execDect gs s
  | .bl gs => execBl gs s
  | .swpb gs => execSwpb gs s
  | .seto gs => execSeto gs s
  | .abs gs => execAbs gs s
  | .sra count w => execSra count w s
  | .srl count w => execSrl count w s
  | .sla count w => execSla count w s
  | .src count w => execSrc count w s
  | .jmp disp => execJmp disp s
  | .jlt disp => execJlt disp s
  | .jle disp => execJle disp s
  | .jeq disp => execJeq disp s
  | .jhe disp => execJhe disp s
  | .jgt disp => execJgt disp s
  | .jne disp => execJne disp s
  | .jnc disp => execJnc disp s
  | .joc disp => execJoc disp s
  | .jno disp => execJno disp s
  | .jl disp => execJl disp s
  | .jh disp => execJh disp s
  | .jop disp => execJop disp s
  | .sbo disp => execSbo disp s
  | .sbz disp => execSbz disp s
  | .tb disp => execTb disp s
  | .coc gs d => execCoc gs d s
  | .czc gs d => execCzc gs d s
  | .xor gs d => execXor gs d s
  | .xop gs n => execXop gs n s
  | .ldcr gs count => execLdcr gs count s
  | .stcr gs count => execStcr gs count s
  | .mpy gs d => execMpy gs d s
  | .div gs d => execDiv gs d s
  | .szc gs gd => execSzc gs gd s
  | .szcb gs gd => execSzcb gs gd s
  | .s gs gd => execS gs gd s
  | .sb gs gd => execSb gs gd s
  | .c gs gd => execC gs gd s
  | .cb gs gd => execCb gs gd s
  | .a gs gd => execA gs gd s
  | .ab gs gd => execAb gs gd s
  | .mov gs gd => execMov gs gd s
  | .movb gs gd => execMovb gs gd s
  | .soc gs gd => execSoc gs gd s
  | .socb gs gd => execSocb gs gd s

/-- A state answered by the target of an X, with that X left. -/
def leaveX : StepOutcome → StepOutcome
  | .next s => .next { s with xDepth := s.xDepth - 1 }
  | .fault r => .fault r
  | .refused r => .refused r

/-- X: the operand's word is executed as a first word at the current PC, `execute` giving the meaning of what
it decodes to; an illegal word is the illegal-instruction action (R238). -/
def execXWith (execute : Instr → State → StepOutcome) (gs : Operand) (s : State) : StepOutcome :=
  let w := readSource gs s
  let s1 := w.2.addCycles 4
  let s2 := { s1 with xDepth := s1.xDepth + 1 }
  match s2.decodeFetched w.1 with
  | none => leaveX (.next s2.illegalInstruction)
  | some r => leaveX (execute r.1 r.2)

/-- The meaning of an instruction with at most `fuel` further levels of X below it. -/
def execDepth : Nat → Instr → State → StepOutcome
  | 0 => execWith fun _ _ => .refused .xChainTooDeep
  | fuel + 1 => execWith (execXWith (execDepth fuel))

/-- X, followed to X_DEPTH_MAX levels, this one among them (R238; 00_scope.md R9). -/
def execX (gs : Operand) (s : State) : StepOutcome :=
  execXWith (execDepth (s.params.xDepthMax - 1 - s.xDepth)) gs s

end Sys2Proof.Machine
end

