-- ==== Sys2Proof/Machine/Dispatch.lean ====
section
/-! DEFINITION. The dispatch (30_encoding.md R82): one arm per row of the opcode table, each one call of its meaning. -/

namespace Sys2Proof.Machine

def exec (i : Instr) (s : State) : Host.Outcome State Fault Refusal :=
  match i with
  | .li w imm => Sys2Proof.Machine.execLi w imm s
  | .ai w imm => Sys2Proof.Machine.execAi w imm s
  | .andi w imm => Sys2Proof.Machine.execAndi w imm s
  | .ori w imm => Sys2Proof.Machine.execOri w imm s
  | .ci w imm => Sys2Proof.Machine.execCi w imm s
  | .stwp w => Sys2Proof.Machine.execStwp w s
  | .stst w => Sys2Proof.Machine.execStst w s
  | .lwpi imm => Sys2Proof.Machine.execLwpi imm s
  | .limi imm => Sys2Proof.Machine.execLimi imm s
  | .idle => Sys2Proof.Machine.execIdle s
  | .rset => Sys2Proof.Machine.execRset s
  | .rtwp => Sys2Proof.Machine.execRtwp s
  | .ckon => Sys2Proof.Machine.execCkon s
  | .ckof => Sys2Proof.Machine.execCkof s
  | .lrex => Sys2Proof.Machine.execLrex s
  | .blwp gs => Sys2Proof.Machine.execBlwp gs s
  | .b gs => Sys2Proof.Machine.execB gs s
  | .x gs => Sys2Proof.Machine.execX gs s
  | .clr gs => Sys2Proof.Machine.execClr gs s
  | .neg gs => Sys2Proof.Machine.execNeg gs s
  | .inv gs => Sys2Proof.Machine.execInv gs s
  | .inc r => Sys2Proof.Machine.execInc r s
  | .inct gs => Sys2Proof.Machine.execInct gs s
  | .dec gs => Sys2Proof.Machine.execDec gs s
  | .dect gs => Sys2Proof.Machine.execDect gs s
  | .bl gs => Sys2Proof.Machine.execBl gs s
  | .swpb gs => Sys2Proof.Machine.execSwpb gs s
  | .seto gs => Sys2Proof.Machine.execSeto gs s
  | .abs gs => Sys2Proof.Machine.execAbs gs s
  | .sra count w => Sys2Proof.Machine.execSra count w s
  | .srl count w => Sys2Proof.Machine.execSrl count w s
  | .sla count w => Sys2Proof.Machine.execSla count w s
  | .src count w => Sys2Proof.Machine.execSrc count w s
  | .jmp disp => Sys2Proof.Machine.execJmp disp s
  | .jlt disp => Sys2Proof.Machine.execJlt disp s
  | .jle disp => Sys2Proof.Machine.execJle disp s
  | .jeq disp => Sys2Proof.Machine.execJeq disp s
  | .jhe disp => Sys2Proof.Machine.execJhe disp s
  | .jgt disp => Sys2Proof.Machine.execJgt disp s
  | .jne disp => Sys2Proof.Machine.execJne disp s
  | .jnc disp => Sys2Proof.Machine.execJnc disp s
  | .joc disp => Sys2Proof.Machine.execJoc disp s
  | .jno disp => Sys2Proof.Machine.execJno disp s
  | .jl disp => Sys2Proof.Machine.execJl disp s
  | .jh disp => Sys2Proof.Machine.execJh disp s
  | .jop disp => Sys2Proof.Machine.execJop disp s
  | .sbo disp => Sys2Proof.Machine.execSbo disp s
  | .sbz disp => Sys2Proof.Machine.execSbz disp s
  | .tb disp => Sys2Proof.Machine.execTb disp s
  | .coc gs d => Sys2Proof.Machine.execCoc gs d s
  | .czc gs d => Sys2Proof.Machine.execCzc gs d s
  | .xor gs d => Sys2Proof.Machine.execXor gs d s
  | .xop gs n => Sys2Proof.Machine.execXop gs n s
  | .ldcr gs count => Sys2Proof.Machine.execLdcr gs count s
  | .stcr gs count => Sys2Proof.Machine.execStcr gs count s
  | .mpy gs d => Sys2Proof.Machine.execMpy gs d s
  | .div gs d => Sys2Proof.Machine.execDiv gs d s
  | .szc gs gd => Sys2Proof.Machine.execSzc gs gd s
  | .szcb gs gd => Sys2Proof.Machine.execSzcb gs gd s
  | .s gs gd => Sys2Proof.Machine.execS gs gd s
  | .sb gs gd => Sys2Proof.Machine.execSb gs gd s
  | .c gs gd => Sys2Proof.Machine.execC gs gd s
  | .cb gs gd => Sys2Proof.Machine.execCb gs gd s
  | .a gs gd => Sys2Proof.Machine.execA gs gd s
  | .ab gs gd => Sys2Proof.Machine.execAb gs gd s
  | .mov gs gd => Sys2Proof.Machine.execMov gs gd s
  | .movb gs gd => Sys2Proof.Machine.execMovb gs gd s
  | .soc gs gd => Sys2Proof.Machine.execSoc gs gd s
  | .socb gs gd => Sys2Proof.Machine.execSocb gs gd s

end Sys2Proof.Machine
end

