-- ==== Sys2Proof/Machine/RunLoop.lean ====
section
/-! DEFINITION. The instruction step (40_flags_addressing_step.md R126, R127) and one pass of the run loop
body (70_reset_and_hazards.md R350). -/

namespace Sys2Proof.Machine

/-- `Execute(w)`: one instruction given its first word, PC already past it (R126). -/
def executeWord (w : Word) (s : State) : StepOutcome :=
  match s.decodeFetched w with
  | none => .next s.illegalInstruction
  | some r => exec r.1 r.2

/-- The interrupt test that ends a step (R127). -/
def endStep : StepOutcome → StepOutcome
  | .next s => .next s.interruptTest
  | .fault r => .fault r
  | .refused r => .refused r

/-- `Step()`: fetch, execute, interrupt test (R127). -/
def instructionStep (s : State) : StepOutcome :=
  let w := s.fetchWord
  endStep (executeWord w.1 w.2)

/-- What one pass of the run loop body does. -/
inductive PassResult where
  /-- The loop stops before any instruction: suspended, idle with nothing accepted, or a breakpoint. -/
  | stopped (s : State)
  /-- The pass ran a step. -/
  | ran (o : StepOutcome)
deriving Repr

/-- Whether the loop stops at the breakpoint before the next fetch (R352). -/
def State.breakpointHit (s : State) : Bool := s.breakpoint == some s.pc && !s.bpLatch

/-- The end of a step that completed, its interrupt test included: what collaborators did to `suspended`
during it takes effect (R353). -/
def leaveStep : StepOutcome → StepOutcome
  | .next s => .next s.noteSuspend
  | .fault r => .fault r
  | .refused r => .refused r

/-- The part of the pass after the idle test: the breakpoint stop, or the latch cleared and one step (R350, R352). -/
def passBody (s : State) : PassResult :=
  if s.breakpointHit then .stopped { s with bpLatch := true }
  else .ran (leaveStep (instructionStep { s with bpLatch := false }))

/-- One pass of the loop body of `run`, the budget aside: nothing while suspended (R353); while idle one
interrupt test, and if it is accepted the dispatch and the rest of the pass (R350; 60_exceptions.md R309). -/
def loopPass (s : State) : PassResult :=
  if s.suspended then .stopped s
  else if s.idle then
    let p := s.sampleInt
    if s.maskOpen && p.1 then passBody p.2.interruptDispatch else .stopped p.2
  else passBody s

end Sys2Proof.Machine
end

