-- ==== Sys2Proof/Machine/Step.lean ====
section
/-! DEFINITION. One step of the machine, and how an instruction is placed for the next step to run. -/

namespace Sys2Proof.Machine

/-- One step: one pass of the run loop body (70_reset_and_hazards.md R350), a stop of the loop being a next
state in which only what the stop changes has changed (log 10). -/
def step (s : State) : Host.Outcome State Fault Refusal :=
  match loopPass s with
  | .stopped t => .next t
  | .ran o => o

/-- The state with an instruction of `nbits` bits, numbered as spec/opcode_table.json numbers them, stored
where the next step fetches: it stands for loading a program from outside (log 14). -/
def State.withFetchWord (s : State) (nbits w : Nat) : State :=
  let v := w % 2 ^ nbits
  (s.placeAtFetch (tableWord v 0) (tableWord v 1) (tableWord v 2)).letFetch

end Sys2Proof.Machine
end

