-- ==== Sys2Proof/Machine/HostOps.lean ====
section
/-! DEFINITION. The host operations, legal between steps only (70_reset_and_hazards.md R340 to R357). A model
gives a call inside a step no meaning (R357). -/

namespace Sys2Proof.Machine

/-- `reset()`: two reads, no write (R340, R342). -/
def hostReset (s : State) : State :=
  let w := s.readWord 0x0000#16
  let p := w.2.readWord 0x0002#16
  { p.2 with
    wp := w.1, st := s.params.stReset, cycles := 0, illegalCount := 0, idle := false, suspended := false,
    breakpoint := none, bpLatch := false, pendingSrc := none, pendingDst := none, xDepth := 0 }.setPc p.1

/-- The loop of `run`: passes while fewer than `budget` cycles are consumed, to at most `fuel` passes (R350). -/
def runLoop (start budget : Nat) : Nat → State → StepOutcome
  | 0, s => .next s
  | fuel + 1, s =>
    if s.cycles - start < budget then
      match loopPass s with
      | .stopped t => .next t
      | .ran (.next t) => runLoop start budget fuel t
      | .ran (.fault r) => .fault r
      | .ran (.refused r) => .refused r
    else .next s

/-- `run(budget)`: the cycles consumed, and the state (R350). Every pass that runs a step costs at least
8 cycles (R373), so `budget` passes are never too few. -/
def hostRun (budget : Nat) (s : State) : Host.Outcome (Nat × State) Fault Refusal :=
  match runLoop s.cycles budget budget s with
  | .next t => .next (t.cycles - s.cycles, t)
  | .fault r => .fault r
  | .refused r => .refused r

/-- `getPC()` (R354). -/
def hostGetPc (s : State) : Word := s.pc

/-- `setPC(v)`: the `pc <-` write, and `bpLatch` cleared (R354). -/
def hostSetPc (v : Word) (s : State) : State := { s.setPc v with bpLatch := false }

/-- `setBreakpoint(addr)` (R352, R354). -/
def hostSetBreakpoint (addr : Word) (s : State) : State := { s with breakpoint := some addr, bpLatch := false }

/-- `clearBreakpoint()` (R352, R354). -/
def hostClearBreakpoint (s : State) : State := { s with breakpoint := none, bpLatch := false }

/-- `isHalted()` (R354; 10_state.md R42). -/
def hostIsHalted (s : State) : Bool := s.idle

/-- A collaborator raises the suspend flag between steps (R353). -/
def hostSuspend (s : State) : State := { s with suspended := true }

/-- A collaborator clears the suspend flag between steps (R353). -/
def hostResume (s : State) : State := { s with suspended := false }

/-- Collaborators choose the interrupt line's next samples (R357; 60_exceptions.md R305). -/
def hostDriveInt (samples : List Bool) (s : State) : State := { s with intSamples := samples }

/-- Collaborators choose the CRU port's next answers (R357; 20_memory.md R64). -/
def hostDriveCru (answers : List Bool) (s : State) : State := { s with cruAnswers := answers }

/-- The memory's owner chooses its answers to the reads to come, those made inside an instruction among them:
hooked addresses, device ports (00_scope.md R7; 20_memory.md R61). -/
def hostDriveReads (answers : List (Option Word)) (s : State) : State := { s with readAnswers := answers }

/-- Collaborators choose what they do to `suspended` during the steps to come, so that a run can be suspended
before its budget is used up (R353, R357). -/
def hostDriveSuspend (changes : List (Option Bool)) (s : State) : State := { s with suspendChanges := changes }

/-- A collaborator changes a word of memory between steps; no port call of the core (R357). -/
def hostPoke (a v : Word) (s : State) : State := { s with mem := s.mem.setWord a v }

/-- What `getRegisterSnapshot()` returns (10_state.md R47). -/
structure Snapshot where
  pc : Word
  wp : Word
  st : Word
  regs : List Word
deriving DecidableEq, Repr

/-- The registers of a list read one after another, each one `readWord` (R355). -/
def readRegs : List Reg → State → List Word × State
  | [], s => ([], s)
  | n :: rest, s =>
    let v := s.readReg n
    let vs := readRegs rest v.2
    (v.1 :: vs.1, vs.2)

/-- R0 to R15, ascending. -/
def allRegs : List Reg :=
  [0#4, 1#4, 2#4, 3#4, 4#4, 5#4, 6#4, 7#4, 8#4, 9#4, 10#4, 11#4, 12#4, 13#4, 14#4, 15#4]

/-- `getRegisterSnapshot()`: sixteen reads, no state of the block changed (R355). -/
def hostSnapshot (s : State) : Snapshot × State :=
  let r := readRegs allRegs s
  (⟨s.pc, s.wp, s.st, r.1⟩, r.2)

/-- The serializable CPU state, exactly seven items (10_state.md R47, R356). -/
structure Saved where
  pc : Word
  wp : Word
  st : Word
  cycles : Nat
  breakpoint : Option Word
  illegalCount : Nat
  suspended : Bool
deriving DecidableEq, Repr

/-- Save (R356). -/
def hostSave (s : State) : Saved := ⟨s.pc, s.wp, s.st, s.cycles, s.breakpoint, s.illegalCount, s.suspended⟩

/-- Restore: the seven items, PC by a `pc <-` write (10_state.md R26: "every write to `PC`, from whatever
cause"; log 13), and `idle`, `bpLatch`, the pending slots and `xDepth` cleared (R356). -/
def hostRestore (v : Saved) (s : State) : State :=
  { s with
    wp := v.wp, st := v.st, cycles := v.cycles, breakpoint := v.breakpoint, illegalCount := v.illegalCount,
    suspended := v.suspended, idle := false, bpLatch := false, pendingSrc := none, pendingDst := none,
    xDepth := 0 }.setPc v.pc

end Sys2Proof.Machine
end

