-- ==== Sys2Proof/Safety.lean ====
section
/-! DEFINITION. The terms claims are stated in: the invariant of the machine between steps, what a step leaves
alone, and what an operand and its increment do to memory. -/

namespace Sys2Proof.Machine

/-! ## Between instructions -/

/-- No post-increment is pending: "Both slots are EMPTY at every instruction boundary" (10_state.md R45). -/
abbrev State.NoPending (s : State) : Prop := s.pendingSrc = none ∧ s.pendingDst = none

/-- The named premise of 20_memory.md R61: no hook is waiting to answer a read, so the Memory Port answers with
the last value written (log 1). -/
abbrev State.RamPort (s : State) : Prop := s.readAnswers = []

/-- An instruction can start, and under the RAM premise of R61. -/
abbrev State.Ready (s : State) : Prop := s.NoPending ∧ s.RamPort

/-- The two transients of the state are at rest (10_state.md R45, R46). -/
abbrev State.Between (s : State) : Prop := s.NoPending ∧ s.xDepth = 0

/-- The invariant: memory in canonical form, the OPEN parameters within R9's constraints, PC even (R25), no
instruction under way. -/
abbrev State.Inv (s : State) : Prop :=
  s.mem.wf = true ∧ s.params.wf = true ∧ s.pc &&& 1#16 = 0#16 ∧ s.Between

/-- A step is safe when it answers a next state. -/
def State.StepsSafely (s : State) : Prop := ∃ t, step s = .next t

/-! ## What is left alone -/

/-- Everything but PC, ST, the cycle counter, the pending slots, memory, the record of port calls and the answers
the Memory Port's owner has waiting. -/
structure Rest where
  wp : Word
  illegalCount : Nat
  idle : Bool
  suspended : Bool
  breakpoint : Option Word
  bpLatch : Bool
  xDepth : Nat
  intSamples : List Bool
  cruAnswers : List Bool
  suspendChanges : List (Option Bool)
  freeIndex : Nat
  params : Config.Params
deriving DecidableEq, Repr

/-- The part of a state that most instructions leave alone. -/
def State.rest (s : State) : Rest where
  wp := s.wp
  illegalCount := s.illegalCount
  idle := s.idle
  suspended := s.suspended
  breakpoint := s.breakpoint
  bpLatch := s.bpLatch
  xDepth := s.xDepth
  intSamples := s.intSamples
  cruAnswers := s.cruAnswers
  suspendChanges := s.suspendChanges
  freeIndex := s.freeIndex
  params := s.params

/-- The rest is as before, no increment is left pending and no hook has come to wait. -/
def KeepsRest (s t : State) : Prop := t.rest = s.rest ∧ t.Ready

/-- Every byte of memory outside the words at these addresses reads as before. The workspace registers are
words of memory (10_state.md R22), so this is their frame too. -/
def UnchangedOutside (s t : State) (words : List Word) : Prop :=
  ∀ a : Word, (∀ w ∈ words, evenAddr a ≠ evenAddr w) → t.byteAt a = s.byteAt a

/-- The earlier port calls are still the older part of the record. -/
def ExtendsCalls (s t : State) : Prop := s.calls <:+ t.calls

/-! ## Operands and their increments (40_flags_addressing_step.md R119, R121) -/

/-- The effective address of an operand, as the table of 40_flags_addressing_step.md R115 has it. -/
def effectiveAddr (s : State) : Operand → Word
  | .reg r => s.regAddr r
  | .ind r => s.regAt r
  | .sym => s.wordAt s.pc
  | .idx r => s.wordAt s.pc + s.regAt r
  | .inc r => s.regAt r

/-- PC once an operand is resolved: past the address word of mode 2 (R115, R120). -/
def pcAfterOperand (s : State) : Operand → Word
  | .sym | .idx _ => remapPc s.params (evenAddr (s.pc + 2#16))
  | .reg _ | .ind _ | .inc _ => s.pc

/-- The address of the register an operand increments: mode 3 only. -/
def incWords (s : State) : Operand → List Word
  | .inc r => [s.regAddr r]
  | .reg _ => []
  | .ind _ => []
  | .sym => []
  | .idx _ => []

/-- The word at `ea` became `v`, then the register `operand` increments grew by `size`, all of it starting
from `s`: "re-read" makes the increment act on `v` when the register's word IS the operand's (R121, R124). -/
def StoredThenIncremented (s t : State) (operand : Operand) (size : Size) (ea v : Word) : Prop :=
  ((∀ p ∈ incWords s operand, evenAddr p ≠ evenAddr ea) → t.wordAt ea = v) ∧
  ∀ p ∈ incWords s operand, t.wordAt p = (if evenAddr p = evenAddr ea then v else s.wordAt p) + size.step

/-- The low bit of a byte address selects its half of a word (20_memory.md R54, R55). -/
def otherHalf (a : Word) : Word := a ^^^ 1#16

/-- As above for one byte stored at `ea`: the other byte of its word stays (20_memory.md R55). -/
def ByteStoredThenIncremented (s t : State) (operand : Operand) (ea : Word) (b : Byte) : Prop :=
  ((∀ p ∈ incWords s operand, evenAddr p ≠ evenAddr ea) →
    t.byteAt ea = b ∧ t.byteAt (otherHalf ea) = s.byteAt (otherHalf ea)) ∧
  ∀ p ∈ incWords s operand,
    t.wordAt p = (if evenAddr p = evenAddr ea then mergeByte ea b (s.wordAt ea) else s.wordAt p) + 1#16

/-- Nothing stored, but the register `operand` increments grew by `size`. -/
def OnlyIncremented (s t : State) (operand : Operand) (size : Size) : Prop :=
  UnchangedOutside s t (incWords s operand) ∧ ∀ p ∈ incWords s operand, t.wordAt p = s.wordAt p + size.step

/-- The port calls of the resolver, newest first (R115, R118; 20_memory.md R70). -/
def resolveCalls (s : State) : Operand → List PortCall
  | .reg _ => []
  | .ind r => [.readWord (evenAddr (s.regAddr r)) (s.regAt r)]
  | .sym => [.readWord (evenAddr s.pc) (s.wordAt s.pc)]
  | .idx r => [.readWord (evenAddr (s.regAddr r)) (s.regAt r), .readWord (evenAddr s.pc) (s.wordAt s.pc)]
  | .inc r => [.readWord (evenAddr (s.regAddr r)) (s.regAt r)]

/-- The two port calls of an increment that leaves the words of `t`, newest first (R121). -/
def incrementCalls (s t : State) (operand : Operand) (size : Size) : List PortCall :=
  (incWords s operand).flatMap fun p =>
    [.writeWord (evenAddr p) (t.wordAt p), .readWord (evenAddr p) (t.wordAt p - size.step)]

/-! ## What the instructions of one shape do

Each of these says all of it: the word or byte stored and where, the increments, the status bits, PC, the
cycles, the port calls in their order, and that nothing else changes. `opcode` is the bits of the first word
outside its fields (30_encoding.md R94). -/

/-- `SetST(clear, bits)` (00_scope.md R12). -/
def statusAfter (s : State) (clear bits : Word) : Word := (s.st &&& ~~~clear) ||| bits

/-- Format VIII with a register: `result` of the register's word is stored in it, if there is one (41_immediate.md). -/
def RegisterInPlace (opcode : Word) (i : Reg → Word → Instr) (result : Word → Word → Option Word)
    (clear : Word) (bits : Word → Word → Word) (cycles : Nat) : Prop :=
  ∀ (w : Reg) (imm : Word) (s : State), s.Ready →
    let a := s.regAddr w
    let v := s.regAt w
    encode (i w imm) = [wordW opcode w, imm] ∧
    ∃ t, exec (i w imm) s = .next t ∧
      (match result v imm with
        | some r => t.regAt w = r ∧ UnchangedOutside s t [a] ∧
            t.calls = .writeWord (evenAddr a) r :: .readWord (evenAddr a) v :: s.calls
        | none => UnchangedOutside s t [] ∧ t.calls = .readWord (evenAddr a) v :: s.calls) ∧
      t.st = statusAfter s clear (bits v imm) ∧ t.pc = s.pc ∧ t.cycles = s.cycles + cycles ∧ KeepsRest s t

/-- Format VI in place: `result` of the operand's word is stored over it, if there is one (43_single_operand.md R200). -/
def OperandInPlace (opcode : Word) (i : Operand → Instr) (result : Word → Option Word)
    (clear : Word) (bits : Word → Word) (cycles : Word → Nat) : Prop :=
  ∀ (gs : Operand) (s : State), s.Ready →
    let ea := (resolve .src gs .word s).1
    let v := s.wordAt ea
    firstWord (i gs) = wordSrc opcode gs ∧
    ∃ t, exec (i gs) s = .next t ∧
      (match result v with
        | some r => StoredThenIncremented s t gs .word ea r ∧ UnchangedOutside s t (ea :: incWords s gs) ∧
            t.calls = incrementCalls s t gs .word ++
              .writeWord (evenAddr ea) r :: .readWord (evenAddr ea) v :: (resolveCalls s gs ++ s.calls)
        | none => OnlyIncremented s t gs .word ∧
            t.calls = incrementCalls s t gs .word ++ .readWord (evenAddr ea) v :: (resolveCalls s gs ++ s.calls)) ∧
      t.st = statusAfter s clear (bits v) ∧ t.pc = pcAfterOperand s gs ∧
      t.cycles = s.cycles + overhead .word gs + cycles v ∧ KeepsRest s t

/-- Format III: `result` of the source word and the register's word is stored in the register, if there is
one; the register is read after the source's increment (42_dual_operand.md R183). -/
def SourceAndRegister (opcode : Word) (i : Operand → Reg → Instr) (result : Word → Word → Option Word)
    (clear : Word) (bits : Word → Word → Word) : Prop :=
  ∀ (gs : Operand) (d : Reg) (s : State), s.Ready →
    let sv := (readSource gs s).1
    let s1 := (readSource gs s).2
    let a := s.regAddr d
    let dv := s1.wordAt a
    firstWord (i gs d) = wordSrcD opcode gs d ∧
    ∃ t, exec (i gs d) s = .next t ∧
      (match result sv dv with
        | some r => t.wordAt a = r ∧ UnchangedOutside s1 t [a] ∧ UnchangedOutside s t (a :: incWords s gs) ∧
            t.calls = .writeWord (evenAddr a) r :: .readWord (evenAddr a) dv :: s1.calls
        | none => UnchangedOutside s1 t [] ∧ OnlyIncremented s t gs .word ∧
            t.calls = .readWord (evenAddr a) dv :: s1.calls) ∧
      t.st = statusAfter s clear (bits sv dv) ∧ t.pc = pcAfterOperand s gs ∧
      t.cycles = s.cycles + overhead .word gs + 14 ∧ KeepsRest s t

/-- Format I on words: `result` of the two words is stored in the destination, if there is one; the
destination is resolved and read after the source's increment (42_dual_operand.md R172). -/
def SourceAndDestination (opcode : Word) (i : Operand → Operand → Instr) (result : Word → Word → Option Word)
    (clear : Word) (bits : Word → Word → Word) : Prop :=
  ∀ (gs gd : Operand) (s : State), s.Ready →
    let sv := (readSource gs s).1
    let s1 := (readSource gs s).2
    let ea := (resolve .dst gd .word s1).1
    let dv := s1.wordAt ea
    firstWord (i gs gd) = wordSrcDst opcode gs gd ∧
    ∃ t, exec (i gs gd) s = .next t ∧
      (match result sv dv with
        | some r => StoredThenIncremented s1 t gd .word ea r ∧ UnchangedOutside s1 t (ea :: incWords s1 gd) ∧
            UnchangedOutside s t (ea :: (incWords s gs ++ incWords s gd)) ∧
            t.calls = incrementCalls s1 t gd .word ++
              .writeWord (evenAddr ea) r :: .readWord (evenAddr ea) dv :: (resolveCalls s1 gd ++ s1.calls)
        | none => OnlyIncremented s1 t gd .word ∧ UnchangedOutside s t (incWords s gs ++ incWords s gd) ∧
            t.calls = incrementCalls s1 t gd .word ++
              .readWord (evenAddr ea) dv :: (resolveCalls s1 gd ++ s1.calls)) ∧
      t.st = statusAfter s clear (bits sv dv) ∧ t.pc = pcAfterOperand s1 gd ∧
      t.cycles = s.cycles + overhead .word gs + overhead .word gd + 14 ∧ KeepsRest s t

/-- Format I on bytes: as on words, but one byte is stored and the other byte of its word stays
(42_dual_operand.md R172, R173). A byte store is a read of the word, then a write (20_memory.md R55). -/
def ByteSourceAndDestination (opcode : Word) (i : Operand → Operand → Instr) (result : Byte → Byte → Option Byte)
    (clear : Word) (bits : Byte → Byte → Word) : Prop :=
  ∀ (gs gd : Operand) (s : State), s.Ready →
    let sv := (readSourceByte gs s).1
    let s1 := (readSourceByte gs s).2
    let ea := (resolve .dst gd .byte s1).1
    let dv := s1.byteAt ea
    let old := s1.wordAt ea
    firstWord (i gs gd) = wordSrcDst opcode gs gd ∧
    ∃ t, exec (i gs gd) s = .next t ∧
      (match result sv dv with
        | some r => ByteStoredThenIncremented s1 t gd ea r ∧ UnchangedOutside s1 t (ea :: incWords s1 gd) ∧
            UnchangedOutside s t (ea :: (incWords s gs ++ incWords s gd)) ∧
            t.calls = incrementCalls s1 t gd .byte ++
              .writeWord (evenAddr ea) (mergeByte ea r old) :: .readWord (evenAddr ea) old ::
                .readWord (evenAddr ea) old :: (resolveCalls s1 gd ++ s1.calls)
        | none => OnlyIncremented s1 t gd .byte ∧ UnchangedOutside s t (incWords s gs ++ incWords s gd) ∧
            t.calls = incrementCalls s1 t gd .byte ++
              .readWord (evenAddr ea) old :: (resolveCalls s1 gd ++ s1.calls)) ∧
      t.st = statusAfter s clear (bits sv dv) ∧ t.pc = pcAfterOperand s1 gd ∧
      t.cycles = s.cycles + overhead .byte gs + overhead .byte gd + 14 ∧ KeepsRest s t

/-- A shift: the count from the field or from R0, then `result` and the carry of the register's word
(44_shift.md R210). `overflow` is none for the shifts that leave OV alone. -/
def Shifts (opcode : Word) (i : BitVec 4 → Reg → Instr) (result : Nat → Word → Nat) (carry : Nat → Word → Bool)
    (overflow : Option (Nat → Word → Bool)) : Prop :=
  ∀ (count : BitVec 4) (w : Reg) (s : State), s.Ready →
    let n := (shiftCount count s).1
    let s1 := (shiftCount count s).2
    let a := s.regAddr w
    let v := s.regAt w
    let r := BitVec.ofNat 16 (result n v)
    firstWord (i count w) = wordShift opcode count w ∧
    ∃ t, exec (i count w) s = .next t ∧
      t.regAt w = r ∧ UnchangedOutside s t [a] ∧
      t.calls = .writeWord (evenAddr a) r :: .readWord (evenAddr a) v :: s1.calls ∧
      t.st = statusAfter s (if overflow.isSome then maskArith else maskCompareC)
        ((wStatus r &&& maskCompare) ||| flagIf flagC (carry n v) |||
          flagIf flagOV (overflow.any fun f => f n v)) ∧
      t.pc = s.pc ∧ t.cycles = s1.cycles + (12 + 2 * n) ∧ KeepsRest s t

/-- A conditional jump: PC and the cycles, nothing else (45_jump_branch.md R220). -/
def JumpsWhen (opcode : Word) (i : BitVec 8 → Instr) (condition : Word → Prop) : Prop :=
  ∀ (disp : BitVec 8) (s : State),
    firstWord (i disp) = wordDisp opcode disp ∧
    (condition s.st → exec (i disp) s = .next
      { s with pc := remapPc s.params (evenAddr (s.pc + BitVec.ofInt 16 (2 * disp.toInt))), cycles := s.cycles + 10 }) ∧
    (¬ condition s.st → exec (i disp) s = .next { s with cycles := s.cycles + 8 })

/-! ## Context switches (48_context_control.md R270) -/

/-- The word at an address once WP, the saved PC and ST are in R13, R14 and R15 of the workspace at `newWp`,
and for XOP the operand's address in its R11. -/
def savedWord (s : State) (newWp savedPc : Word) (xopArg : Option Word) (a : Word) : Word :=
  if evenAddr a = evenAddr (newWp + 26#16) then s.wp
  else if evenAddr a = evenAddr (newWp + 28#16) then savedPc
  else if evenAddr a = evenAddr (newWp + 30#16) then s.st
  else if evenAddr a = evenAddr (newWp + 22#16) then xopArg.getD (s.wordAt a)
  else s.wordAt a

/-- The words a context switch stores to. -/
def savedWords (newWp : Word) (xopArg : Option Word) : List Word :=
  [newWp + 26#16, newWp + 28#16, newWp + 30#16] ++ (xopArg.map fun _ => newWp + 22#16).toList

/-- The port calls of a context switch, newest first. -/
def switchCalls (s : State) (va newWp savedPc : Word) (xopArg : Option Word) : List PortCall :=
  [.readWord (evenAddr (va + 2#16)) (savedWord s newWp savedPc xopArg (va + 2#16)),
   .writeWord (evenAddr (newWp + 30#16)) s.st, .writeWord (evenAddr (newWp + 28#16)) savedPc,
   .writeWord (evenAddr (newWp + 26#16)) s.wp] ++
  (xopArg.map fun ea => PortCall.writeWord (evenAddr (newWp + 22#16)) ea).toList ++
  [.readWord (evenAddr va) newWp]

/-- The CRU writes of R255: `count` bits of `v`, the least significant first, to ascending addresses; newest first. -/
def cruWrites (base : CruAddr) (v : Word) (count : Nat) : List PortCall :=
  ((List.range count).map fun k => PortCall.writeBit (base + BitVec.ofNat 12 k) (v.getLsbD k)).reverse

/-- The CRU reads of R256: the bits answered, from ascending addresses; newest first. -/
def cruReads (base : CruAddr) (bits : List Bool) : List PortCall :=
  ((List.range bits.length).map fun k => PortCall.readBit (base + BitVec.ofNat 12 k) ((bits[k]?).getD false)).reverse

/-! ## What each instruction may write -/

/-- The bits of ST an instruction writes; X counts as none of its own, its target's as all (10_state.md R38). -/
def statusWritten : Instr → Word
  | .li _ _ | .andi _ _ | .ori _ _ | .ci _ _ | .mov _ _ | .soc _ _ | .szc _ _ | .xor _ _ | .inv _ | .c _ _ => maskCompare
  | .movb _ _ | .socb _ _ | .szcb _ _ | .cb _ _ => maskCompareOP
  | .ldcr _ count | .stcr _ count => if 1 ≤ count.toNat ∧ count.toNat ≤ 8 then maskCompareOP else maskCompare
  | .a _ _ | .ai _ _ | .s _ _ | .inc _ | .inct _ | .dec _ | .dect _ | .neg _ | .abs _ | .sla _ _ => maskArith
  | .ab _ _ | .sb _ _ => maskArithOP
  | .sra _ _ | .srl _ _ | .src _ _ => maskCompareC
  | .coc _ _ | .czc _ _ | .tb _ => flagEQ
  | .div _ _ => flagOV
  | .xop _ _ => flagX
  | .limi _ | .rset => maskInt
  | .rtwp | .x _ => 0xFFFF#16
  | .jmp _ | .jlt _ | .jle _ | .jeq _ | .jhe _ | .jgt _ | .jne _ | .jnc _ | .joc _ | .jno _ | .jl _ | .jh _ | .jop _ => 0#16
  | .b _ | .bl _ | .blwp _ | .clr _ | .seto _ | .swpb _ | .mpy _ _ | .stwp _ | .stst _ | .lwpi _ => 0#16
  | .sbo _ | .sbz _ | .idle | .ckon | .ckof | .lrex => 0#16

/-- Whether an instruction is X, whose effects are those of the word it executes. -/
def isX : Instr → Bool
  | .x _ => true
  | _ => false

/-- Whether an instruction may write WP (10_state.md R21): four instructions, and X through its target. -/
def writesWp : Instr → Bool
  | .lwpi _ | .blwp _ | .xop _ _ | .rtwp | .x _ => true
  | _ => false

/-- Whether an instruction may write PC other than past its own words (10_state.md R26). -/
def transfersControl : Instr → Bool
  | .jmp _ | .jlt _ | .jle _ | .jeq _ | .jhe _ | .jgt _ | .jne _ | .jnc _ | .joc _ | .jno _ | .jl _ | .jh _ | .jop _ => true
  | .b _ | .bl _ | .blwp _ | .x _ | .rtwp | .xop _ _ => true
  | _ => false

/-! ## Between steps -/

/-- Nothing keeps the run loop from fetching: not suspended, not idle, no breakpoint stop (R350). -/
abbrev State.Running (s : State) : Prop := s.suspended = false ∧ s.idle = false ∧ s.breakpointHit = false

end Sys2Proof.Machine
end

