-- ==== Sys2Proof/Certificates/Slice0/Obligations.lean ====
section
/-! DEFINITION. The statements for the provers. Each is about the machine, for every state and every setting of
the OPEN parameters it does not mention; the rule of spec/ is named in each docstring. The premise `RamPort`, part
of `Ready`, is the one 20_memory.md R61 names: no hook answers a read of the instruction (log 1). -/

section

open Sys2Proof Sys2Proof.Machine

/-! ## Reset -/

/-- R342 and R48 for the state after reset. That the words at 0x0000 and 0x0002 are 0x83E0 and 0x0024, and
ST_RESET is 0, are the model's choices (log 3, log 4); only the spec's side is stated. -/
def Obligations.ResetStateFields : Prop :=
  State.reset.wp = State.reset.wordAt 0x0000#16 ∧
  State.reset.pc = remapPc State.reset.params (evenAddr (State.reset.wordAt 0x0002#16)) ∧
  State.reset.st = State.reset.params.stReset ∧ State.reset.st &&& maskInt = 0#16 ∧
  State.reset.cycles = 0 ∧ State.reset.illegalCount = 0 ∧ State.reset.idle = false ∧
  State.reset.suspended = false ∧ State.reset.breakpoint = none ∧ State.reset.bpLatch = false ∧
  State.reset.pendingSrc = none ∧ State.reset.pendingDst = none ∧ State.reset.xDepth = 0

/-- R340: what the host operation reset leaves, and the two port calls it makes, in order, whatever the port
answers (the model's form of the port, log 1); the mask is 0, ST_RESET being within R9's constraint. -/
def Obligations.HostResetEffect : Prop :=
  ∀ s : State,
    let w := s.answerAt 0x0000#16
    let p := (s.readWord 0x0000#16).2.answerAt 0x0002#16
    (s.params.wf = true → (hostReset s).st &&& maskInt = 0#16) ∧ hostReset s =
    { s with
      wp := w
      pc := remapPc s.params (evenAddr p)
      st := s.params.stReset
      cycles := 0
      illegalCount := 0
      idle := false
      suspended := false
      breakpoint := none
      bpLatch := false
      pendingSrc := none
      pendingDst := none
      xDepth := 0
      readAnswers := s.readAnswers.drop 2
      calls := .readWord 0x0002#16 p :: .readWord 0x0000#16 w :: s.calls }

/-- R341: resetting twice gives the same state as once, the record of port calls aside, when the two reads
answer the same both times: here, when no hook answers them. -/
def Obligations.ResetTwiceIsResetOnce : Prop :=
  ∀ (s : State) (record : List PortCall), s.RamPort →
    { hostReset (hostReset s) with calls := record } = { hostReset s with calls := record }

/-- The invariant of `EveryStepKeepsInvariant` holds right after reset. -/
def Obligations.ResetMeetsInvariant : Prop := State.reset.Inv

/-! ## The step -/

/-- Whatever a step does, memory keeps its canonical form, the parameters their constraints, PC is even (R25)
and no increment or X is left under way (R45, R46). -/
def Obligations.EveryStepKeepsInvariant : Prop :=
  ∀ s t : State, s.Inv → step s = .next t → t.Inv

/-- R120, R125 to R127, R353: when the words the port answers to the fetch decode to an instruction, the step is
that instruction's meaning, PC being past its first word and its immediate, then the interrupt test, then what
collaborators did to `suspended`. -/
def Obligations.StepRunsDecodedInstruction : Prop :=
  ∀ (s : State) (i : Instr) (rest : List Byte), s.Running →
    let w := s.answerAt s.pc
    decode s.params.unusedBitsAlias
      (bytesOfWord w ++ bytesOfWord ((s.readWord s.pc).2.answerAt (s.fetchNext s.pc))) = .ok (i, rest) →
    step s = leaveStep (endStep (exec i
      (match immediateWord i with
        | some imm =>
          { s with
            pc := s.fetchNext (s.fetchNext s.pc)
            bpLatch := false
            readAnswers := s.readAnswers.drop 2
            calls := .readWord (evenAddr (s.fetchNext s.pc)) imm :: .readWord (evenAddr s.pc) w :: s.calls }
        | none =>
          { s with
            pc := s.fetchNext s.pc
            bpLatch := false
            readAnswers := s.readAnswers.drop 1
            calls := .readWord (evenAddr s.pc) w :: s.calls })))

/-- R300: an illegal word is counted and charged 10 cycles, one word is consumed, and the interrupt test follows. -/
def Obligations.IllegalWordStep : Prop :=
  ∀ s : State, s.Running → findRow s.params.unusedBitsAlias (s.answerAt s.pc) = none →
    step s = .next (State.noteSuspend (State.interruptTest
      { s with
        pc := s.fetchNext s.pc
        bpLatch := false
        readAnswers := s.readAnswers.drop 1
        illegalCount := s.illegalCount + 1
        cycles := s.cycles + 10
        calls := .readWord (evenAddr s.pc) (s.answerAt s.pc) :: s.calls }))

/-- R128, R129, R304: every instruction but X completes, from every state; a step never faults, and the only
refusal is that of an X chain too deep. -/
def Obligations.OnlyDeepExecuteChainsStop : Prop :=
  (∀ (i : Instr) (s : State), isX i = false → ∃ t, exec i s = .next t) ∧
  (∀ s : State, (∃ t, step s = .next t) ∨ step s = .refused .xChainTooDeep)

/-! ## Encoding -/

/-- R84 to R94: the bytes of every well-formed instruction decode to it, whatever follows and under both
settings of UNUSED_BITS_ALIAS. -/
def Obligations.DecodeOfEncode : Prop :=
  ∀ (i : Instr) (aliased : Bool) (rest : List Byte), i.wellFormed = true →
    decode aliased (encodeBytes i ++ rest) = .ok (i, rest)

/-- No bit of a first word is dropped: what a word decodes to encodes to that word, but for LWPI and LIMI, whose
register field is ignored (R91), and what is decoded is well-formed. -/
def Obligations.EncodeOfDecode : Prop :=
  ∀ (w imm : Word) (i : Instr), decodeWords false w imm = some i →
    i.wellFormed = true ∧ (∀ v ∈ immediateWord i, v = imm) ∧
    ((∀ v, i ≠ .lwpi v) → (∀ v, i ≠ .limi v) → firstWord i = w) ∧
    (((∃ v, i = .lwpi v) ∨ ∃ v, i = .limi v) → firstWord i = w &&& 0xFFF0#16)

/-- R82: "the match sets of the 69 instructions are pairwise disjoint". -/
def Obligations.TableRowsDisjoint : Prop :=
  rows.length = 69 ∧ ∀ aliased : Bool,
    rows.Pairwise fun r q => ∀ w : Word, ¬ (r.selects aliased w = true ∧ q.selects aliased w = true)

/-- R97: which words are illegal, under each setting of UNUSED_BITS_ALIAS. -/
def Obligations.IllegalWords : Prop :=
  (∀ w : Word, findRow true w = none ↔
    w.toNat < 0x0200 ∨ (0x0320 ≤ w.toNat ∧ w.toNat < 0x0340) ∨ (0x0780 ≤ w.toNat ∧ w.toNat < 0x0800) ∨
      (0x0C00 ≤ w.toNat ∧ w.toNat < 0x1000)) ∧
  (∀ w : Word, findRow false w = none ↔
    findRow true w = none ∨ (0x0340 ≤ w.toNat ∧ w.toNat < 0x0400 ∧ w.toNat % 32 ≠ 0) ∨
      (0x0200 ≤ w.toNat ∧ w.toNat < 0x0320 ∧ w.toNat % 32 ≥ 16))

/-- A word of each family, written out from the formats R84 to R92 and the map R94, decodes to its instruction. -/
def Obligations.SampleWordsDecode : Prop :=
  decodeWords false 0x0201#16 0x1234#16 = some (.li 1#4 0x1234#16) ∧
  decodeWords false 0x0380#16 0#16 = some .rtwp ∧
  decodeWords false 0x0420#16 0#16 = some (.blwp .sym) ∧
  decodeWords false 0x0841#16 0#16 = some (.sra 4#4 1#4) ∧
  decodeWords false 0x10FF#16 0#16 = some (.jmp 0xFF#8) ∧
  decodeWords false 0x1FFF#16 0#16 = some (.tb 0xFF#8) ∧
  decodeWords false 0x2881#16 0#16 = some (.xor (.reg 1#4) 2#4) ∧
  decodeWords false 0x2C60#16 0#16 = some (.xop .sym 1#4) ∧
  decodeWords false 0x30C1#16 0#16 = some (.ldcr (.reg 1#4) 3#4) ∧
  decodeWords false 0x3CC1#16 0#16 = some (.div (.reg 1#4) 3#4) ∧
  decodeWords false 0xCCE0#16 0#16 = some (.mov .sym (.inc 3#4)) ∧
  decodeWords false 0xD081#16 0#16 = some (.movb (.reg 1#4) (.reg 2#4))

/-- R81, R118, R25: an instruction that transfers no control leaves PC past its address words. PC is past the
first word and the immediate when the meaning starts, and PcRemap is the identity here. -/
def Obligations.PcAdvancesPastAddressWords : Prop :=
  ∀ (i : Instr) (s t : State), transfersControl i = false → s.params.pcRemap = [] → s.pc &&& 1#16 = 0#16 →
    exec i s = .next t → t.pc = s.pc + BitVec.ofNat 16 (2 * (i.operands.map Operand.extWords).sum)

/-! ## Memory -/

/-- R52, R53: a word access drops bit 0 of its address, is one call, and a write reads nothing. R61 and log 1: the
port answers a read with what a hook has waiting, else with the word last written there. -/
def Obligations.WordAccess : Prop :=
  ∀ (s : State) (a b v : Word),
    (s.readWord a).2 =
      { s with
        readAnswers := s.readAnswers.drop 1
        calls := .readWord (evenAddr a) (s.readWord a).1 :: s.calls } ∧
    (∀ hooked later, s.readAnswers = some hooked :: later → (s.readWord a).1 = hooked) ∧
    (∀ later, s.readAnswers = none :: later ∨ s.readAnswers = [] → (s.readWord a).1 = s.wordAt (evenAddr a)) ∧
    s.writeWord a v =
      { s with mem := (s.writeWord a v).mem, calls := .writeWord (evenAddr a) v :: s.calls } ∧
    (s.writeWord a v).wordAt b = (if evenAddr b = evenAddr a then v else s.wordAt b) ∧
    (evenAddr a).toNat = a.toNat / 2 * 2

/-- R54, R55, R56: a word is its two bytes, high byte first; a byte read takes one half of the word the port
answers; a byte write is one read and one write and writes back the other half of the answer, which under the
premise of R61 (log 1) leaves every other byte as it was. -/
def Obligations.ByteAccess : Prop :=
  ∀ (s : State) (a : Word) (v : Byte),
    let w := s.answerAt a
    let t := s.writeByte a v
    s.wordAt a = s.byteAt (evenAddr a) ++ s.byteAt (evenAddr a + 1#16) ∧
    (s.readByte a).1 = (if a.toNat % 2 = 0 then w.extractLsb' 8 8 else w.extractLsb' 0 8) ∧
    (s.readByte a).2 = (s.readWord a).2 ∧
    t.wordAt a = (if a.toNat % 2 = 0 then v ++ w.extractLsb' 0 8 else w.extractLsb' 8 8 ++ v) ∧ t.byteAt a = v ∧
    UnchangedOutside s t [a] ∧
    t = { s with
      mem := t.mem
      readAnswers := s.readAnswers.drop 1
      calls := .writeWord (evenAddr a) (t.wordAt a) :: .readWord (evenAddr a) w :: s.calls } ∧
    (s.RamPort → (s.readByte a).1 = s.byteAt a ∧ ∀ x : Word, x ≠ a → t.byteAt x = s.byteAt x)

/-- R22, R24, R21: register n IS the word of memory at WP + 2n modulo 2^16, so a store there changes it and
a register write is seen there; an odd WP addresses the same registers as WP - 1. -/
def Obligations.WorkspaceRegistersAreMemory : Prop :=
  ∀ (s : State) (n : Reg) (v : Word),
    (s.regAddr n).toNat = (s.wp.toNat + 2 * n.toNat) % 65536 ∧ s.regAt n = s.wordAt (s.regAddr n) ∧
    (s.writeWord (s.regAddr n) v).regAt n = v ∧ (s.writeReg n v).wordAt (s.regAddr n) = v ∧
    UnchangedOutside s (s.writeReg n v) [s.regAddr n] ∧
    (s.wp &&& 1#16 = 1#16 → State.regAt { s with wp := s.wp - 1#16 } n = s.regAt n)

/-! ## Flags -/

/-- R110, R111: the two status tables, bit by bit; no other bit is ever set. -/
def Obligations.StatusTables : Prop :=
  (∀ v : Word,
    (wStatus v &&& flagLGT ≠ 0#16 ↔ v ≠ 0#16) ∧
    (wStatus v &&& flagAGT ≠ 0#16 ↔ 0 < v.toNat ∧ v.toNat < 0x8000) ∧
    (wStatus v &&& flagEQ ≠ 0#16 ↔ v = 0#16) ∧ (wStatus v &&& flagC ≠ 0#16 ↔ v = 0#16) ∧
    (wStatus v &&& flagOV ≠ 0#16 ↔ v = 0x8000#16) ∧ wStatus v &&& ~~~maskArith = 0#16) ∧
  (∀ v : Byte,
    (bStatus v &&& flagLGT ≠ 0#16 ↔ v ≠ 0#8) ∧
    (bStatus v &&& flagAGT ≠ 0#16 ↔ 0 < v.toNat ∧ v.toNat < 0x80) ∧
    (bStatus v &&& flagEQ ≠ 0#16 ↔ v = 0#8) ∧ (bStatus v &&& flagC ≠ 0#16 ↔ v = 0#8) ∧
    (bStatus v &&& flagOV ≠ 0#16 ↔ v = 0x80#8) ∧
    (bStatus v &&& flagOP ≠ 0#16 ↔ ((List.range 8).filter fun k => v.getLsbD k).length % 2 = 1) ∧
    bStatus v &&& ~~~maskArithOP = 0#16)

/-- R113: the compares, in the first operand against the second, for words and for bytes. -/
def Obligations.CompareFlags : Prop :=
  (∀ a b : Word,
    (compareStatus a b &&& flagLGT ≠ 0#16 ↔ b.toNat < a.toNat) ∧
    (compareStatus a b &&& flagAGT ≠ 0#16 ↔ b.toInt < a.toInt) ∧
    (compareStatus a b &&& flagEQ ≠ 0#16 ↔ a = b) ∧ compareStatus a b &&& ~~~maskCompare = 0#16) ∧
  (∀ a b : Byte,
    (compareStatus a b &&& flagLGT ≠ 0#16 ↔ b.toNat < a.toNat) ∧
    (compareStatus a b &&& flagAGT ≠ 0#16 ↔ b.toInt < a.toInt) ∧
    (compareStatus a b &&& flagEQ ≠ 0#16 ↔ a = b) ∧ compareStatus a b &&& ~~~maskCompare = 0#16)

/-- R114 and R33: the adder's value wraps, its carry is the carry out of the top bit or "no borrow", and its
overflow is that the exact signed sum or difference is out of range, for words and for bytes. -/
def Obligations.AdderCarryAndOverflow : Prop :=
  ∀ n : Nat, n = 16 ∨ n = 8 → ∀ a b : BitVec n,
    (addSum a b).value.toNat = (a.toNat + b.toNat) % 2 ^ n ∧
    ((addSum a b).carry = true ↔ 2 ^ n ≤ a.toNat + b.toNat) ∧
    ((addSum a b).overflow = true ↔ a.toInt + b.toInt < -2 ^ (n - 1) ∨ 2 ^ (n - 1) ≤ a.toInt + b.toInt) ∧
    (subSum a b).value.toNat = (a.toNat + 2 ^ n - b.toNat) % 2 ^ n ∧
    ((subSum a b).carry = true ↔ b.toNat ≤ a.toNat) ∧
    ((subSum a b).overflow = true ↔ a.toInt - b.toInt < -2 ^ (n - 1) ∨ 2 ^ (n - 1) ≤ a.toInt - b.toInt)

/-! ## Operands -/

/-- R115 to R119, R373: for each mode the address, what is left pending, PC, the overhead cycles and the port
calls; nothing else changes. -/
def Obligations.ResolverTable : Prop :=
  ∀ (slot : Slot) (o : Operand) (size : Size) (s : State), s.RamPort →
    let t := (resolve slot o size s).2
    (resolve slot o size s).1 =
      (match o with
        | .reg r => s.wp + 2#16 * r.setWidth 16
        | .ind r => s.regAt r
        | .sym => s.wordAt s.pc
        | .idx r => s.wordAt s.pc + s.regAt r
        | .inc r => s.regAt r) ∧
    t.pending slot = (match o with
      | .inc r => some ⟨s.regAddr r, size⟩
      | .reg _ | .ind _ | .sym | .idx _ => s.pending slot) ∧
    (∀ other, other ≠ slot → t.pending other = s.pending other) ∧
    t.pc = (match o with
      | .sym | .idx _ => remapPc s.params (evenAddr (s.pc + 2#16))
      | .reg _ | .ind _ | .inc _ => s.pc) ∧
    t.cycles = s.cycles + (match o, size with
      | .reg _, _ => 0
      | .ind _, _ => 4
      | .sym, _ => 8
      | .idx _, _ => 8
      | .inc _, .byte => 6
      | .inc _, .word => 8) ∧
    t.calls = resolveCalls s o ++ s.calls ∧ t.mem = s.mem ∧ t.st = s.st ∧ t.rest = s.rest ∧ t.RamPort

/-- R121: a post-increment re-reads the register's word, adds the size to what the port answers (the model's
form of the port, log 1), empties its slot, and touches nothing else; with the slot empty it does nothing. -/
def Obligations.PostIncrement : Prop :=
  ∀ (s : State) (slot : Slot),
    (s.pending slot = none → s.postInc slot = s) ∧
    (∀ p, s.pending slot = some p →
      let v := s.answerAt p.addr
      let t := s.postInc slot
      t.wordAt p.addr = v + p.size.step ∧ UnchangedOutside s t [p.addr] ∧
      t.pending slot = none ∧ (∀ other, other ≠ slot → t.pending other = s.pending other) ∧
      t.calls = .writeWord (evenAddr p.addr) (v + p.size.step) :: .readWord (evenAddr p.addr) v :: s.calls ∧
      t.readAnswers = s.readAnswers.drop 1 ∧
      t.pc = s.pc ∧ t.st = s.st ∧ t.cycles = s.cycles ∧ t.rest = s.rest)

/-- R119, R121, R123: reading a source operand gives the word or byte at its effective address and then
increments the register of mode 3, once, by 2 or by 1; nothing else changes. -/
def Obligations.SourceOperandRead : Prop :=
  ∀ (o : Operand) (s : State), s.Ready →
    (let r := readSource o s
     let ea := effectiveAddr s o
     r.1 = s.wordAt ea ∧ OnlyIncremented s r.2 o .word ∧ r.2.pc = pcAfterOperand s o ∧ r.2.st = s.st ∧
     r.2.cycles = s.cycles + overhead .word o ∧ KeepsRest s r.2 ∧
     r.2.calls = incrementCalls s r.2 o .word ++ .readWord (evenAddr ea) (s.wordAt ea) :: (resolveCalls s o ++ s.calls)) ∧
    (let r := readSourceByte o s
     let ea := effectiveAddr s o
     r.1 = s.byteAt ea ∧ OnlyIncremented s r.2 o .byte ∧ r.2.pc = pcAfterOperand s o ∧ r.2.st = s.st ∧
     r.2.cycles = s.cycles + overhead .byte o ∧ KeepsRest s r.2 ∧
     r.2.calls = incrementCalls s r.2 o .byte ++ .readWord (evenAddr ea) (s.wordAt ea) :: (resolveCalls s o ++ s.calls))

/-- R124, row by row: one register used twice, its value `a`. Where a row moves data the hypothesis keeps the
register's own word (and for the indexed row the address word) apart from the words it points at. -/
def Obligations.SameRegisterInBothOperands : Prop :=
  ∀ (r : Reg) (s : State), s.Ready →
    let a := s.regAt r
    let ra := s.regAddr r
    (evenAddr ra ≠ evenAddr (a + 2#16) →
      ∃ t, exec (.mov (.inc r) (.inc r)) s = .next t ∧ t.wordAt (a + 2#16) = s.wordAt a ∧ t.regAt r = a + 4#16) ∧
    (evenAddr ra ≠ evenAddr (a + 2#16) →
      ∃ t, exec (.a (.inc r) (.inc r)) s = .next t ∧
        t.wordAt (a + 2#16) = s.wordAt (a + 2#16) + s.wordAt a ∧ t.regAt r = a + 4#16) ∧
    (∃ t, exec (.mov (.inc r) (.reg r)) s = .next t ∧ t.regAt r = s.wordAt a) ∧
    (evenAddr ra ≠ evenAddr a →
      ∃ t, exec (.mov (.reg r) (.inc r)) s = .next t ∧ t.wordAt a = a ∧ t.regAt r = a + 2#16) ∧
    (evenAddr ra ≠ evenAddr (a + 1#16) →
      ∃ t, exec (.movb (.inc r) (.inc r)) s = .next t ∧ t.byteAt (a + 1#16) = s.byteAt a ∧ t.regAt r = a + 2#16) ∧
    (r ≠ 0#4 → s.wordAt s.pc = 4#16 → evenAddr ra ≠ evenAddr s.pc →
      ∃ t, exec (.mov (.inc r) (.idx r)) s = .next t ∧ t.wordAt (4#16 + (a + 2#16)) = s.wordAt a) ∧
    (a = ra → ∃ t, exec (.inc (.inc r)) s = .next t ∧ t.regAt r = a + 3#16)

/-! ## Immediate and internal-register instructions -/

/-- R141 to R144: AI, ANDI, ORI, CI. -/
def Obligations.ImmediateArithmetic : Prop :=
  RegisterInPlace 0x0220#16 .ai (fun v imm => some (v + imm)) maskArith
    (fun v imm => (wStatus (v + imm) &&& maskCompare) ||| flagIf flagC (addSum v imm).carry |||
      flagIf flagOV (addSum v imm).overflow) 14 ∧
  RegisterInPlace 0x0240#16 .andi (fun v imm => some (v &&& imm)) maskCompare
    (fun v imm => wStatus (v &&& imm) &&& maskCompare) 14 ∧
  RegisterInPlace 0x0260#16 .ori (fun v imm => some (v ||| imm)) maskCompare
    (fun v imm => wStatus (v ||| imm) &&& maskCompare) 14 ∧
  RegisterInPlace 0x0280#16 .ci (fun _ _ => none) maskCompare (fun v imm => compareStatus v imm) 14

/-- R140, R145, R146: LI, STWP and STST write a register without reading it. -/
def Obligations.RegisterLoads : Prop :=
  ∀ (w : Reg) (imm : Word) (s : State),
    encode (.li w imm) = [wordW 0x0200#16 w, imm] ∧ encode (.stwp w) = [wordW 0x02A0#16 w] ∧
    encode (.stst w) = [wordW 0x02C0#16 w] ∧
    exec (.li w imm) s = .next
      { s.writeReg w imm with
        st := statusAfter s maskCompare (wStatus imm &&& maskCompare)
        cycles := s.cycles + 12 } ∧
    exec (.stwp w) s = .next { s.writeReg w s.wp with cycles := s.cycles + 8 } ∧
    exec (.stst w) s = .next { s.writeReg w s.st with cycles := s.cycles + 8 } ∧
    (∀ v : Word, (s.writeReg w v).regAt w = v ∧ UnchangedOutside s (s.writeReg w v) [s.regAddr w])

/-- R147, R148: LWPI loads WP, odd values kept; LIMI changes the interrupt mask only, and the interrupt test of
its step sees the new mask. The low four bits of either's first word are ignored. -/
def Obligations.WorkspaceAndMaskLoads : Prop :=
  ∀ (imm : Word) (w : Reg) (aliased : Bool) (s : State),
    encode (.lwpi imm) = [0x02E0#16, imm] ∧ decodeWords aliased (wordW 0x02E0#16 w) imm = some (.lwpi imm) ∧
    encode (.limi imm) = [0x0300#16, imm] ∧ decodeWords aliased (wordW 0x0300#16 w) imm = some (.limi imm) ∧
    exec (.lwpi imm) s = .next { s with wp := imm, cycles := s.cycles + 10 } ∧
    (let t := { s with st := (s.st &&& 0xFFF0#16) ||| (imm &&& 0x000F#16), cycles := s.cycles + 16 }
     exec (.limi imm) s = .next t ∧ endStep (exec (.limi imm) s) = .next t.interruptTest)

/-! ## Single-operand instructions -/

/-- R191 to R197, R199: NEG, INV, INC, INCT, DEC, DECT, SWPB and ABS on every operand form. -/
def Obligations.OperandInPlaceResults : Prop :=
  OperandInPlace 0x0500#16 .neg (fun v => some (BitVec.ofNat 16 (65536 - v.toNat))) maskArith
    (fun v => wStatus (-v)) (fun _ => 12) ∧
  OperandInPlace 0x0540#16 .inv (fun v => some (~~~v)) maskCompare (fun v => wStatus (~~~v) &&& maskCompare)
    (fun _ => 10) ∧
  OperandInPlace 0x0580#16 .inc (fun v => some (v + 1#16)) maskArith (fun v => wStatus (v + 1#16)) (fun _ => 10) ∧
  OperandInPlace 0x05C0#16 .inct (fun v => some (v + 2#16)) maskArith
    (fun v => (wStatus (v + 2#16) &&& maskCompare) ||| flagIf flagC (decide ((v + 2#16).toNat < 2)) |||
      flagIf flagOV (decide (v + 2#16 = 0x8000#16 ∨ v + 2#16 = 0x8001#16))) (fun _ => 10) ∧
  OperandInPlace 0x0600#16 .dec (fun v => some (v - 1#16)) maskArith
    (fun v => (wStatus (v - 1#16) &&& maskCompare) ||| flagIf flagC (decide (v - 1#16 ≠ 0xFFFF#16)) |||
      flagIf flagOV (decide (v - 1#16 = 0x7FFF#16))) (fun _ => 10) ∧
  OperandInPlace 0x0640#16 .dect (fun v => some (v - 2#16)) maskArith
    (fun v => (wStatus (v - 2#16) &&& maskCompare) ||| flagIf flagC (decide ((v - 2#16).toNat < 0xFFFE)) |||
      flagIf flagOV (decide (v - 2#16 = 0x7FFF#16 ∨ v - 2#16 = 0x7FFE#16))) (fun _ => 10) ∧
  OperandInPlace 0x06C0#16 .swpb (fun v => some (BitVec.ofNat 16 (v.toNat % 256 * 256 + v.toNat / 256))) 0#16
    (fun _ => 0#16) (fun _ => 10) ∧
  OperandInPlace 0x0740#16 .abs (fun v => if v.toInt < 0 then some (-v) else none) maskArith
    (fun v => wStatus v &&& (maskCompare ||| flagOV)) (fun v => if v.toInt < 0 then 14 else 12)

/-- R190, R198: CLR and SETO write the operand without reading it and change no flag. -/
def Obligations.OperandFill : Prop :=
  ∀ (gs : Operand) (s : State), s.Ready →
    let ea := (resolve .src gs .word s).1
    firstWord (.clr gs) = wordSrc 0x04C0#16 gs ∧ firstWord (.seto gs) = wordSrc 0x0700#16 gs ∧
    ∀ i v, (i = Instr.clr gs ∧ v = 0x0000#16) ∨ (i = Instr.seto gs ∧ v = 0xFFFF#16) →
      ∃ t, exec i s = .next t ∧
        StoredThenIncremented s t gs .word ea v ∧ UnchangedOutside s t (ea :: incWords s gs) ∧
        t.calls = incrementCalls s t gs .word ++ .writeWord (evenAddr ea) v :: (resolveCalls s gs ++ s.calls) ∧
        t.st = s.st ∧ t.pc = pcAfterOperand s gs ∧ t.cycles = s.cycles + overhead .word gs + 10 ∧ KeepsRest s t

/-- R193 to R196: the carry and overflow of INC, INCT, DEC and DECT "equal Add16(v, ...)". -/
def Obligations.StepFlagsAreAdderFlags : Prop :=
  ∀ v : Word,
    (wStatus (v + 1#16) &&& (flagC ||| flagOV)) =
      (flagIf flagC (addSum v 1#16).carry ||| flagIf flagOV (addSum v 1#16).overflow) ∧
    ((addSum v 2#16).carry = true ↔ (v + 2#16).toNat < 2) ∧
    ((addSum v 2#16).overflow = true ↔ v + 2#16 = 0x8000#16 ∨ v + 2#16 = 0x8001#16) ∧
    ((addSum v 0xFFFF#16).carry = true ↔ v + 0xFFFF#16 ≠ 0xFFFF#16) ∧
    ((addSum v 0xFFFF#16).overflow = true ↔ v + 0xFFFF#16 = 0x7FFF#16) ∧
    ((addSum v 0xFFFE#16).carry = true ↔ (v + 0xFFFE#16).toNat < 0xFFFE) ∧
    ((addSum v 0xFFFE#16).overflow = true ↔ v + 0xFFFE#16 = 0x7FFF#16 ∨ v + 0xFFFE#16 = 0x7FFE#16)

/-! ## Shifts -/

/-- R210: the count is the field, or the low four bits of R0 with 0 meaning 16, for one read and 8 cycles;
it is 1 to 16. -/
def Obligations.ShiftCountRule : Prop :=
  ∀ (count : BitVec 4) (s : State),
    let r0 := s.answerAt (s.regAddr 0#4)
    1 ≤ (shiftCount count s).1 ∧ (shiftCount count s).1 ≤ 16 ∧
    (count ≠ 0#4 → shiftCount count s = (count.toNat, s)) ∧
    (count = 0#4 → shiftCount count s =
      (if r0.toNat % 16 = 0 then 16 else r0.toNat % 16,
       { s with
         cycles := s.cycles + 8
         readAnswers := s.readAnswers.drop 1
         calls := .readWord (evenAddr (s.regAddr 0#4)) r0 :: s.calls }))

/-- R211 to R214: SRA, SRL, SLA, SRC. The overflow of SLA is "set when the sign bit changed at any of the cnt
single-bit steps". -/
def Obligations.ShiftResults : Prop :=
  Shifts 0x0800#16 .sra (fun n v => (v.toInt / 2 ^ n % 65536).toNat) (fun n v => v.getLsbD (n - 1)) none ∧
  Shifts 0x0900#16 .srl (fun n v => v.toNat / 2 ^ n) (fun n v => v.getLsbD (n - 1)) none ∧
  Shifts 0x0A00#16 .sla (fun n v => v.toNat * 2 ^ n) (fun n v => v.getLsbD (16 - n))
    (some fun n v => (List.range n).any fun k => (v <<< k).msb != (v <<< (k + 1)).msb) ∧
  Shifts 0x0B00#16 .src (fun n v => v.toNat / 2 ^ n ||| v.toNat * 2 ^ (16 - n)) (fun n v => v.getLsbD (n - 1)) none

/-! ## Jumps, branches and X -/

/-- R220, R221, R223 to R234, R239: the thirteen jumps. -/
def Obligations.JumpRules : Prop :=
  JumpsWhen 0x1000#16 .jmp (fun _ => True) ∧
  JumpsWhen 0x1100#16 .jlt (fun st => st &&& 0x4000#16 = 0#16 ∧ st &&& 0x2000#16 = 0#16) ∧
  JumpsWhen 0x1200#16 .jle (fun st => st &&& 0x8000#16 = 0#16 ∨ st &&& 0x2000#16 ≠ 0#16) ∧
  JumpsWhen 0x1300#16 .jeq (fun st => st &&& 0x2000#16 ≠ 0#16) ∧
  JumpsWhen 0x1400#16 .jhe (fun st => st &&& 0x8000#16 ≠ 0#16 ∨ st &&& 0x2000#16 ≠ 0#16) ∧
  JumpsWhen 0x1500#16 .jgt (fun st => st &&& 0x4000#16 ≠ 0#16) ∧
  JumpsWhen 0x1600#16 .jne (fun st => st &&& 0x2000#16 = 0#16) ∧
  JumpsWhen 0x1700#16 .jnc (fun st => st &&& 0x1000#16 = 0#16) ∧
  JumpsWhen 0x1800#16 .joc (fun st => st &&& 0x1000#16 ≠ 0#16) ∧
  JumpsWhen 0x1900#16 .jno (fun st => st &&& 0x0800#16 = 0#16) ∧
  JumpsWhen 0x1A00#16 .jl (fun st => st &&& 0x8000#16 = 0#16 ∧ st &&& 0x2000#16 = 0#16) ∧
  JumpsWhen 0x1B00#16 .jh (fun st => st &&& 0x8000#16 ≠ 0#16 ∧ st &&& 0x2000#16 = 0#16) ∧
  JumpsWhen 0x1C00#16 .jop (fun st => st &&& 0x0400#16 ≠ 0#16)

/-- R235, R236: B goes to the operand's effective address, the register of mode 3 incremented; BL also stores
in R11 the address after it, after that increment. -/
def Obligations.BranchAndLink : Prop :=
  ∀ (gs : Operand) (s : State), s.Ready →
    let ea := (resolve .src gs .word s).1
    let link := pcAfterOperand s gs
    let r11 := s.regAddr 11#4
    firstWord (.b gs) = wordSrc 0x0440#16 gs ∧ firstWord (.bl gs) = wordSrc 0x0680#16 gs ∧
    (∃ t, exec (.b gs) s = .next t ∧ t.pc = remapPc s.params (evenAddr ea) ∧ OnlyIncremented s t gs .word ∧
      t.calls = incrementCalls s t gs .word ++ (resolveCalls s gs ++ s.calls) ∧
      t.st = s.st ∧ t.cycles = s.cycles + overhead .word gs + 8 ∧ KeepsRest s t) ∧
    (∃ t, exec (.bl gs) s = .next t ∧ t.pc = remapPc s.params (evenAddr ea) ∧ t.regAt 11#4 = link ∧
      UnchangedOutside s t (r11 :: incWords s gs) ∧
      (∀ p ∈ incWords s gs, evenAddr p ≠ evenAddr r11 → t.wordAt p = s.wordAt p + 2#16) ∧
      t.calls = .writeWord (evenAddr r11) link :: (branchTarget gs s).2.calls ∧
      t.st = s.st ∧ t.cycles = s.cycles + overhead .word gs + 12 ∧ KeepsRest s t)

/-- R238: X executes the word its operand names, as the instruction at the current PC, with 4 cycles of its own;
an illegal word is the action of R300. The hypothesis on the depth is X_DEPTH_MAX, the model's choice (log 6). -/
def Obligations.ExecuteRunsItsOperand : Prop :=
  ∀ (gs : Operand) (s : State), s.NoPending →
    let w := (readSource gs s).1
    let s1 := (readSource gs s).2
    let s2 := { s1 with cycles := s1.cycles + 4, xDepth := s.xDepth + 1 }
    firstWord (.x gs) = wordSrc 0x0480#16 gs ∧
    (findRow s.params.unusedBitsAlias w = none → exec (.x gs) s = .next
      { s1 with cycles := s.cycles + overhead .word gs + 14, illegalCount := s.illegalCount + 1 }) ∧
    (∀ i s3, s2.decodeFetched w = some (i, s3) → isX i = false →
      ∃ t, exec i s3 = .next t ∧ t.xDepth = s.xDepth + 1 ∧ exec (.x gs) s = .next { t with xDepth := s.xDepth }) ∧
    (∀ i s3, s2.decodeFetched w = some (i, s3) → s.xDepth + 1 < s.params.xDepthMax →
      ∀ t, exec i s3 = .next t → exec (.x gs) s = .next { t with xDepth := s.xDepth })

/-- R238: the endless chain, R1 holding the word of `X R1`, completes no step; the model refuses it by name. -/
def Obligations.EndlessExecuteChainRefused : Prop :=
  ∀ s : State, s.Ready → s.regAt 1#4 = 0x0481#16 → exec (.x (.reg 1#4)) s = .refused .xChainTooDeep

/-! ## Two-operand instructions -/

/-- R160, R162, R164, R168, R170: A, S, C, SOC and SZC on every pair of operand forms. -/
def Obligations.WordSourceAndDestination : Prop :=
  SourceAndDestination 0xA000#16 .a (fun sv dv => some (dv + sv)) maskArith
    (fun sv dv => (wStatus (dv + sv) &&& maskCompare) ||| flagIf flagC (addSum dv sv).carry |||
      flagIf flagOV (addSum dv sv).overflow) ∧
  SourceAndDestination 0x6000#16 .s (fun sv dv => some (dv - sv)) maskArith
    (fun sv dv => (wStatus (dv - sv) &&& maskCompare) ||| flagIf flagC (subSum dv sv).carry |||
      flagIf flagOV (subSum dv sv).overflow) ∧
  SourceAndDestination 0x8000#16 .c (fun _ _ => none) maskCompare (fun sv dv => compareStatus sv dv) ∧
  SourceAndDestination 0xE000#16 .soc (fun sv dv => some (dv ||| sv)) maskCompare
    (fun sv dv => wStatus (dv ||| sv) &&& maskCompare) ∧
  SourceAndDestination 0x4000#16 .szc (fun sv dv => some (dv &&& ~~~sv)) maskCompare
    (fun sv dv => wStatus (dv &&& ~~~sv) &&& maskCompare)

/-- R161, R163, R165, R169, R171: AB, SB, CB, SOCB and SZCB on every pair of operand forms. -/
def Obligations.ByteSourceToDestination : Prop :=
  ByteSourceAndDestination 0xB000#16 .ab (fun sv dv => some (dv + sv)) maskArithOP
    (fun sv dv => (bStatus (dv + sv) &&& maskCompareOP) ||| flagIf flagC (addSum dv sv).carry |||
      flagIf flagOV (addSum dv sv).overflow) ∧
  ByteSourceAndDestination 0x7000#16 .sb (fun sv dv => some (dv - sv)) maskArithOP
    (fun sv dv => (bStatus (dv - sv) &&& maskCompareOP) ||| flagIf flagC (subSum dv sv).carry |||
      flagIf flagOV (subSum dv sv).overflow) ∧
  ByteSourceAndDestination 0x9000#16 .cb (fun _ _ => none) maskCompareOP
    (fun sv dv => compareStatus sv dv ||| (bStatus sv &&& flagOP)) ∧
  ByteSourceAndDestination 0xF000#16 .socb (fun sv dv => some (dv ||| sv)) maskCompareOP
    (fun sv dv => bStatus (dv ||| sv) &&& maskCompareOP) ∧
  ByteSourceAndDestination 0x5000#16 .szcb (fun sv dv => some (dv &&& ~~~sv)) maskCompareOP
    (fun sv dv => bStatus (dv &&& ~~~sv) &&& maskCompareOP)

/-- R166: MOV stores the source word; the destination is not read. -/
def Obligations.MoveWord : Prop :=
  ∀ (gs gd : Operand) (s : State), s.Ready →
    let sv := (readSource gs s).1
    let s1 := (readSource gs s).2
    let ea := (resolve .dst gd .word s1).1
    firstWord (.mov gs gd) = wordSrcDst 0xC000#16 gs gd ∧
    ∃ t, exec (.mov gs gd) s = .next t ∧
      StoredThenIncremented s1 t gd .word ea sv ∧ UnchangedOutside s1 t (ea :: incWords s1 gd) ∧
      UnchangedOutside s t (ea :: (incWords s gs ++ incWords s gd)) ∧
      t.calls = incrementCalls s1 t gd .word ++ .writeWord (evenAddr ea) sv :: (resolveCalls s1 gd ++ s1.calls) ∧
      t.st = statusAfter s maskCompare (wStatus sv &&& maskCompare) ∧ t.pc = pcAfterOperand s1 gd ∧
      t.cycles = s.cycles + overhead .word gs + overhead .word gd + 14 ∧ KeepsRest s t

/-- R167: MOVB stores the source byte, the other byte of the destination word preserved. -/
def Obligations.MoveByte : Prop :=
  ∀ (gs gd : Operand) (s : State), s.Ready →
    let sv := (readSourceByte gs s).1
    let s1 := (readSourceByte gs s).2
    let ea := (resolve .dst gd .byte s1).1
    let old := s1.wordAt ea
    firstWord (.movb gs gd) = wordSrcDst 0xD000#16 gs gd ∧
    ∃ t, exec (.movb gs gd) s = .next t ∧
      ByteStoredThenIncremented s1 t gd ea sv ∧ UnchangedOutside s1 t (ea :: incWords s1 gd) ∧
      UnchangedOutside s t (ea :: (incWords s gs ++ incWords s gd)) ∧
      t.calls = incrementCalls s1 t gd .byte ++
        .writeWord (evenAddr ea) (mergeByte ea sv old) :: .readWord (evenAddr ea) old ::
          (resolveCalls s1 gd ++ s1.calls) ∧
      t.st = statusAfter s maskCompareOP (bStatus sv &&& maskCompareOP) ∧ t.pc = pcAfterOperand s1 gd ∧
      t.cycles = s.cycles + overhead .byte gs + overhead .byte gd + 14 ∧ KeepsRest s t

/-- R180 to R183: COC, CZC, XOR. -/
def Obligations.SourceAndRegisterResults : Prop :=
  SourceAndRegister 0x2000#16 .coc (fun _ _ => none) flagEQ
    (fun sv dv => flagIf flagEQ ((List.range 16).all fun k => !sv.getLsbD k || dv.getLsbD k)) ∧
  SourceAndRegister 0x2400#16 .czc (fun _ _ => none) flagEQ
    (fun sv dv => flagIf flagEQ ((List.range 16).all fun k => !sv.getLsbD k || !dv.getLsbD k)) ∧
  SourceAndRegister 0x2800#16 .xor (fun sv dv => some (sv ^^^ dv)) maskCompare
    (fun sv dv => wStatus (sv ^^^ dv) &&& maskCompare)

/-! ## CRU -/

/-- R250, R252 to R254: SBO and SBZ write one CRU bit, TB puts one in EQ; the address is
`(x[12][12:1] + sext8(disp)) mod 4096`. That TB's bit is the first queued answer, where one is queued, is the
model's form of the port (log 8). -/
def Obligations.SingleBitCru : Prop :=
  ∀ (disp : BitVec 8) (s : State),
    let r12 := s.answerAt (s.regAddr 12#4)
    let a := BitVec.ofInt 12 ((r12.toNat / 2 % 4096 : Nat) + disp.toInt)
    let baseRead := PortCall.readWord (evenAddr (s.regAddr 12#4)) r12
    firstWord (.sbo disp) = wordDisp 0x1D00#16 disp ∧ firstWord (.sbz disp) = wordDisp 0x1E00#16 disp ∧
    firstWord (.tb disp) = wordDisp 0x1F00#16 disp ∧
    exec (.sbo disp) s = .next
      { s with
        cycles := s.cycles + 12
        readAnswers := s.readAnswers.drop 1
        calls := .writeBit a true :: baseRead :: s.calls } ∧
    exec (.sbz disp) s = .next
      { s with
        cycles := s.cycles + 12
        readAnswers := s.readAnswers.drop 1
        calls := .writeBit a false :: baseRead :: s.calls } ∧
    (∃ b t, exec (.tb disp) s = .next t ∧ t.calls = .readBit a b :: baseRead :: s.calls ∧
      (∀ first later, s.cruAnswers = first :: later → b = first ∧ t.cruAnswers = later) ∧
      (t.st &&& flagEQ ≠ 0#16 ↔ b = true) ∧ t.st &&& ~~~flagEQ = s.st &&& ~~~flagEQ ∧
      t.mem = s.mem ∧ t.pc = s.pc ∧ t.wp = s.wp ∧ t.cycles = s.cycles + 12 ∧
      t.idle = s.idle ∧ t.illegalCount = s.illegalCount ∧ t.params = s.params ∧ t.pendingSrc = s.pendingSrc ∧
      t.pendingDst = s.pendingDst ∧ t.suspended = s.suspended ∧ t.breakpoint = s.breakpoint ∧
      t.bpLatch = s.bpLatch ∧ t.xDepth = s.xDepth ∧ t.intSamples = s.intSamples ∧
      t.readAnswers = s.readAnswers.drop 1 ∧ t.suspendChanges = s.suspendChanges)

/-- R251, R255: LDCR sends the low bits of a byte (1 to 8 bits) or a word (9 to 16), the flags being those of
the whole byte or word; R12 is read after the operand's increment. -/
def Obligations.LoadCommunicationRegister : Prop :=
  ∀ (gs : Operand) (count : BitVec 4) (s : State), s.Ready →
    let n := if count = 0#4 then 16 else count.toNat
    firstWord (.ldcr gs count) = wordSrcD 0x3000#16 gs count ∧
    (n ≤ 8 →
      let v := (readSourceByte gs s).1
      let s1 := (readSourceByte gs s).2
      let base := BitVec.ofNat 12 ((s1.regAt 12#4).toNat / 2)
      ∃ t, exec (.ldcr gs count) s = .next t ∧ OnlyIncremented s t gs .byte ∧
        t.calls = cruWrites base (v.setWidth 16) n ++
          .readWord (evenAddr (s.regAddr 12#4)) (s1.regAt 12#4) :: s1.calls ∧
        t.st = statusAfter s maskCompareOP (bStatus v &&& maskCompareOP) ∧ t.pc = pcAfterOperand s gs ∧
        t.cycles = s.cycles + overhead .byte gs + (20 + 2 * n) ∧ KeepsRest s t) ∧
    (9 ≤ n →
      let v := (readSource gs s).1
      let s1 := (readSource gs s).2
      let base := BitVec.ofNat 12 ((s1.regAt 12#4).toNat / 2)
      ∃ t, exec (.ldcr gs count) s = .next t ∧ OnlyIncremented s t gs .word ∧
        t.calls = cruWrites base v n ++
          .readWord (evenAddr (s.regAddr 12#4)) (s1.regAt 12#4) :: s1.calls ∧
        t.st = statusAfter s maskCompare (wStatus v &&& maskCompare) ∧ t.pc = pcAfterOperand s gs ∧
        t.cycles = s.cycles + overhead .word gs + (20 + 2 * n) ∧ KeepsRest s t)

/-- R256: STCR stores the bits read, the first one lowest and zeros above them, in a byte (1 to 8 bits) or a word
(9 to 16), with the flags of what it stores. The bits are whatever the port answers; that they are the queued
answers in order, where enough are queued, is the model's form of the port (log 8). -/
def Obligations.StoreCommunicationRegister : Prop :=
  ∀ (gs : Operand) (count : BitVec 4) (s : State), s.Ready →
    let n := if count = 0#4 then 16 else count.toNat
    let base := BitVec.ofNat 12 ((s.regAt 12#4).toNat / 2)
    firstWord (.stcr gs count) = wordSrcD 0x3400#16 gs count ∧
    ∃ (t : State) (v : Word) (bits : List Bool), exec (.stcr gs count) s = .next t ∧
      bits.length = n ∧ (∀ k < 16, v.getLsbD k = (bits[k]?).getD false) ∧
      (∀ first later, s.cruAnswers = first ++ later → first.length = n →
        bits = first ∧ t.cruAnswers = later ∧ t.freeIndex = s.freeIndex) ∧
      KeepsRest { s with cruAnswers := t.cruAnswers, freeIndex := t.freeIndex } t ∧ t.pc = pcAfterOperand s gs ∧
      let reads := cruReads base bits ++
        .readWord (evenAddr (s.regAddr 12#4)) (s.regAt 12#4) :: (resolveCalls s gs ++ s.calls)
      (n ≤ 8 →
        let ea := (resolve .src gs .byte s).1
        ByteStoredThenIncremented s t gs ea (v.setWidth 8) ∧ UnchangedOutside s t (ea :: incWords s gs) ∧
          t.calls = incrementCalls s t gs .byte ++
            .writeWord (evenAddr ea) (mergeByte ea (v.setWidth 8) (s.wordAt ea)) ::
              .readWord (evenAddr ea) (s.wordAt ea) :: reads ∧
          t.st = statusAfter s maskCompareOP (bStatus (v.setWidth 8) &&& maskCompareOP) ∧
          t.cycles = s.cycles + overhead .byte gs + (if n ≤ 7 then 42 else 44)) ∧
      (9 ≤ n →
        let ea := (resolve .src gs .word s).1
        StoredThenIncremented s t gs .word ea v ∧ UnchangedOutside s t (ea :: incWords s gs) ∧
          t.calls = incrementCalls s t gs .word ++ .writeWord (evenAddr ea) v :: reads ∧
          t.st = statusAfter s maskCompare (wStatus v &&& maskCompare) ∧
          t.cycles = s.cycles + overhead .word gs + (if n ≤ 15 then 58 else 60))

/-! ## Multiply and divide -/

/-- R264, R265: MPY puts the 32-bit unsigned product in register D and the word after it, high word first. -/
def Obligations.Multiply : Prop :=
  ∀ (gs : Operand) (d : Reg) (s : State), s.Ready →
    let sv := (readSource gs s).1
    let s1 := (readSource gs s).2
    let a := s.regAddr d
    let dv := s1.wordAt a
    firstWord (.mpy gs d) = wordSrcD 0x3800#16 gs d ∧
    ∃ t, exec (.mpy gs d) s = .next t ∧
      (t.wordAt a).toNat * 65536 + (t.wordAt (a + 2#16)).toNat = sv.toNat * dv.toNat ∧
      UnchangedOutside s1 t [a, a + 2#16] ∧ UnchangedOutside s t (a :: (a + 2#16) :: incWords s gs) ∧
      t.calls = .writeWord (evenAddr (a + 2#16)) (t.wordAt (a + 2#16)) :: .writeWord (evenAddr a) (t.wordAt a) ::
        .readWord (evenAddr a) dv :: s1.calls ∧
      t.st = s.st ∧ t.pc = pcAfterOperand s gs ∧ t.cycles = s.cycles + overhead .word gs + 52 ∧ KeepsRest s t

/-- R264, R266: DIV divides the 32-bit pair when the divisor is above its high word, quotient first, and clears
OV; otherwise it sets OV and writes nothing, the low word not even read. -/
def Obligations.Divide : Prop :=
  ∀ (gs : Operand) (d : Reg) (s : State), s.Ready →
    let sv := (readSource gs s).1
    let s1 := (readSource gs s).2
    let a := s.regAddr d
    let hi := s1.wordAt a
    let lo := s1.wordAt (a + 2#16)
    let n := hi.toNat * 65536 + lo.toNat
    firstWord (.div gs d) = wordSrcD 0x3C00#16 gs d ∧
    (hi.toNat < sv.toNat → ∃ t, exec (.div gs d) s = .next t ∧
      (t.wordAt a).toNat = n / sv.toNat ∧ (t.wordAt (a + 2#16)).toNat = n % sv.toNat ∧
      UnchangedOutside s1 t [a, a + 2#16] ∧ UnchangedOutside s t (a :: (a + 2#16) :: incWords s gs) ∧
      t.calls = .writeWord (evenAddr (a + 2#16)) (t.wordAt (a + 2#16)) :: .writeWord (evenAddr a) (t.wordAt a) ::
        .readWord (evenAddr (a + 2#16)) lo :: .readWord (evenAddr a) hi :: s1.calls ∧
      t.st = s.st &&& ~~~flagOV ∧ t.pc = pcAfterOperand s gs ∧ t.cycles = s.cycles + overhead .word gs + 92 ∧
      KeepsRest s t) ∧
    (sv.toNat ≤ hi.toNat → ∃ t, exec (.div gs d) s = .next t ∧
      UnchangedOutside s1 t [] ∧ OnlyIncremented s t gs .word ∧
      t.calls = .readWord (evenAddr a) hi :: s1.calls ∧
      t.st = s.st ||| flagOV ∧ t.pc = pcAfterOperand s gs ∧ t.cycles = s.cycles + overhead .word gs + 16 ∧
      KeepsRest s t)

/-! ## Context switches -/

/-- R270, R275: BLWP. The increment of mode 3 acts on the OLD workspace's register, after the switch. -/
def Obligations.BranchAndLoadWorkspace : Prop :=
  ∀ (gs : Operand) (s : State), s.Ready →
    let va := (resolve .src gs .word s).1
    let newWp := s.wordAt va
    let ret := pcAfterOperand s gs
    firstWord (.blwp gs) = wordSrc 0x0400#16 gs ∧
    ∃ t, exec (.blwp gs) s = .next t ∧
      t.wp = newWp ∧ t.pc = remapPc s.params (evenAddr (savedWord s newWp ret none (va + 2#16))) ∧ t.st = s.st ∧
      (∀ a, (∀ p ∈ incWords s gs, evenAddr a ≠ evenAddr p) → t.wordAt a = savedWord s newWp ret none a) ∧
      (∀ p ∈ incWords s gs, t.wordAt p = savedWord s newWp ret none p + 2#16) ∧
      UnchangedOutside s t (savedWords newWp none ++ incWords s gs) ∧
      t.calls = incrementCalls s t gs .word ++ switchCalls s va newWp ret none ++ (resolveCalls s gs ++ s.calls) ∧
      t.cycles = s.cycles + overhead .word gs + 26 ∧ KeepsRest { s with wp := newWp } t ∧
      endStep (exec (.blwp gs) s) = .next t.interruptTest

/-- R62, R270, R277: XOP n switches through the vector at 0x0040 + 4n after the increment, passes the operand's
ADDRESS in new R11, saves the old ST and only then sets X. -/
def Obligations.ExtendedOperation : Prop :=
  ∀ (gs : Operand) (n : BitVec 4) (s : State), s.Ready →
    let s1 := (branchTarget gs s).2
    let ea := (resolve .src gs .word s).1
    let va := BitVec.ofNat 16 (0x0040 + 4 * n.toNat)
    let newWp := s1.wordAt va
    let ret := pcAfterOperand s gs
    firstWord (.xop gs n) = wordSrcD 0x2C00#16 gs n ∧ OnlyIncremented s s1 gs .word ∧
    ∃ t, exec (.xop gs n) s = .next t ∧
      t.wp = newWp ∧ t.pc = remapPc s.params (evenAddr (savedWord s1 newWp ret (some ea) (va + 2#16))) ∧
      t.st = s.st ||| flagX ∧ (∀ a, t.wordAt a = savedWord s1 newWp ret (some ea) a) ∧
      UnchangedOutside s t (savedWords newWp (some ea) ++ incWords s gs) ∧
      t.calls = switchCalls s1 va newWp ret (some ea) ++ s1.calls ∧
      t.cycles = s.cycles + overhead .word gs + 36 ∧ KeepsRest { s with wp := newWp } t

/-- R276: RTWP loads ST (all 16 bits), PC and WP from what the port answers for R15, R14 and R13, in that order:
three reads, no write; the interrupt test of its step sees the mask just loaded. With no hook waiting (R61, log 1)
the answers are the registers. -/
def Obligations.ReturnWithWorkspace : Prop :=
  ∀ s : State,
    let st := (s.readReg 15#4).1
    let s1 := (s.readReg 15#4).2
    let pc := (s1.readReg 14#4).1
    let wp := ((s1.readReg 14#4).2.readReg 13#4).1
    let t :=
      { s with
        wp := wp
        pc := remapPc s.params (evenAddr pc)
        st := st
        cycles := s.cycles + 14
        readAnswers := s.readAnswers.drop 3
        calls := .readWord (evenAddr (s.regAddr 13#4)) wp :: .readWord (evenAddr (s.regAddr 14#4)) pc ::
          .readWord (evenAddr (s.regAddr 15#4)) st :: s.calls }
    encode .rtwp = [0x0380#16] ∧ exec .rtwp s = .next t ∧ endStep (exec .rtwp s) = .next t.interruptTest ∧
    (s.RamPort → st = s.regAt 15#4 ∧ pc = s.regAt 14#4 ∧ wp = s.regAt 13#4)

/-- R272, R306: BLWP then RTWP, XOP then RTWP, and an accepted interrupt then RTWP restore WP, PC and ST (with
the old mask), where the address returned to is a fixed point of PcRemap. For BLWP the register of mode 3 must not
be one of the three words just saved, which its increment would change. -/
def Obligations.SwitchThenReturn : Prop :=
  ∀ (gs : Operand) (s : State), s.Ready →
    (remapPc s.params (evenAddr (pcAfterOperand s gs)) = pcAfterOperand s gs →
      ((∀ p ∈ incWords s gs, ∀ a ∈ savedWords (s.wordAt (effectiveAddr s gs)) none, evenAddr p ≠ evenAddr a) →
        ∃ t u, exec (.blwp gs) s = .next t ∧ exec .rtwp t = .next u ∧
          u.wp = s.wp ∧ u.st = s.st ∧ u.pc = pcAfterOperand s gs) ∧
      (∀ n, ∃ t u, exec (.xop gs n) s = .next t ∧ exec .rtwp t = .next u ∧
        u.wp = s.wp ∧ u.st = s.st ∧ u.pc = pcAfterOperand s gs)) ∧
    (s.pc &&& 1#16 = 0#16 → remapPc s.params s.pc = s.pc →
      ∃ u, exec .rtwp s.interruptDispatch = .next u ∧ u.wp = s.wp ∧ u.st = s.st ∧ u.pc = s.pc)

/-- R280 to R285: IDLE, RSET, CKON, CKOF and LREX each emit their pulse and take 12 cycles; IDLE also sets
`idle`, RSET also clears the interrupt mask under RSET_CLEARS_MASK. -/
def Obligations.ExternalControl : Prop :=
  ∀ s : State,
    [firstWord .idle, firstWord .rset, firstWord .ckon, firstWord .ckof, firstWord .lrex] =
      [0x0340#16, 0x0360#16, 0x03A0#16, 0x03C0#16, 0x03E0#16] ∧
    exec .idle s = .next { s with idle := true, cycles := s.cycles + 12, calls := .pulse .idle :: s.calls } ∧
    exec .rset s = .next
      { s with
        st := if s.params.rsetClearsMask then s.st &&& 0xFFF0#16 else s.st
        cycles := s.cycles + 12
        calls := .pulse .rset :: s.calls } ∧
    exec .ckon s = .next { s with cycles := s.cycles + 12, calls := .pulse .ckon :: s.calls } ∧
    exec .ckof s = .next { s with cycles := s.cycles + 12, calls := .pulse .ckof :: s.calls } ∧
    exec .lrex s = .next { s with cycles := s.cycles + 12, calls := .pulse .lrex :: s.calls }

/-! ## The interrupt -/

/-- R305, R306: with a request sampled and the mask not 0, the test dispatches: old WP, PC and ST into R13, R14
and R15 of the vector's workspace, then mask 0, `idle` cleared, INT_CYCLES charged. With the mask 0 or no
request, nothing but the sample is consumed. -/
def Obligations.InterruptTestRule : Prop :=
  ∀ (s : State) (request : Bool) (later : List Bool), s.RamPort → s.intSamples = request :: later →
    let newWp := s.wordAt 0x0004#16
    let t := s.interruptTest
    (s.st &&& 0x000F#16 = 0#16 ∨ request = false → t = { s with intSamples := later }) ∧
    (s.st &&& 0x000F#16 ≠ 0#16 → request = true →
      t.wp = newWp ∧ t.pc = remapPc s.params (evenAddr (savedWord s newWp s.pc none 0x0006#16)) ∧
      t.st = s.st &&& 0xFFF0#16 ∧ (∀ a, t.wordAt a = savedWord s newWp s.pc none a) ∧
      UnchangedOutside s t (savedWords newWp none) ∧
      t.calls = switchCalls s 0x0004#16 newWp s.pc none ++ s.calls ∧
      t.cycles = s.cycles + s.params.intCycles ∧
      t.rest = { s.rest with wp := newWp, idle := false, intSamples := later } ∧
      t.pendingSrc = s.pendingSrc ∧ t.pendingDst = s.pendingDst ∧ t.RamPort)

/-! ## The run loop and the host operations -/

/-- R350, R352, R353, R309: suspended, a pass changes nothing; idle with nothing accepted, it consumes the sample
only; idle with a request accepted, it dispatches, leaves `idle` and goes on; at the breakpoint, it sets the latch
only, and the next pass goes on. A step during which collaborators raise `suspended` completes with its interrupt
test, and the run ends there, whatever is left of its budget (log 12). -/
def Obligations.SuspendedIdleAndBreakpointPasses : Prop :=
  ∀ s : State,
    (s.suspended = true → loopPass s = .stopped s) ∧
    (s.suspended = false → s.idle = true →
      ∀ request later, s.intSamples = request :: later → s.st &&& 0x000F#16 = 0#16 ∨ request = false →
        loopPass s = .stopped { s with intSamples := later }) ∧
    (s.suspended = false → s.idle = false → s.breakpoint = some s.pc → s.bpLatch = false →
      loopPass s = .stopped { s with bpLatch := true } ∧
      loopPass { s with bpLatch := true } = .ran (leaveStep (instructionStep { s with bpLatch := false }))) ∧
    (s.Running → ∀ t later budget, instructionStep { s with bpLatch := false } = .next t →
      t.suspendChanges = some true :: later →
      hostRun (budget + 1) s = .next (t.cycles - s.cycles, { t with suspended := true, suspendChanges := later })) ∧
    (s.suspended = false → s.idle = true → s.st &&& 0x000F#16 ≠ 0#16 → ∀ later, s.intSamples = true :: later →
      loopPass s = passBody (State.interruptDispatch { s with intSamples := later }) ∧
      (State.interruptDispatch { s with intSamples := later }).idle = false)

/-- R350: "`consumed < budget` happens only when the loop stopped early": suspended, idle, or at the breakpoint. -/
def Obligations.RunReachesItsBudget : Prop :=
  ∀ (s t : State) (budget consumed : Nat), hostRun budget s = .next (consumed, t) →
    consumed = t.cycles - s.cycles ∧
    (consumed < budget →
      t.suspended = true ∨ t.idle = true ∨ (t.breakpoint = some t.pc ∧ t.bpLatch = true))

/-- R350: `run(0)` does nothing, and `run(1)` executes exactly one step when nothing stops it. -/
def Obligations.RunOneIsOneStep : Prop :=
  ∀ s : State, hostRun 0 s = .next (0, s) ∧
    (s.Running → ∀ t, instructionStep { s with bpLatch := false } = .next t →
      hostRun 1 s = .next (t.cycles - s.cycles, t.noteSuspend))

/-- R356, R47: restoring a saved state brings the seven items back; idle, the latch and the transients are cleared,
memory and the inputs are not the block's to restore. -/
def Obligations.SaveThenRestore : Prop :=
  ∀ s other : State, hostRestore (hostSave s) other =
    { other with
      pc := remapPc other.params (evenAddr s.pc)
      wp := s.wp
      st := s.st
      cycles := s.cycles
      breakpoint := s.breakpoint
      illegalCount := s.illegalCount
      suspended := s.suspended
      idle := false
      bpLatch := false
      pendingSrc := none
      pendingDst := none
      xDepth := 0 }

/-- R355, R47: the snapshot reads the sixteen registers live, in ascending order, and changes nothing else. That the
n-th register is the n-th queued answer, else the word of memory, is the model's form of the port (R61, log 1). -/
def Obligations.RegisterSnapshot : Prop :=
  ∀ s : State,
    let answer := fun n : Reg => (s.readAnswers[n.toNat]?.join).getD (s.regAt n)
    (hostSnapshot s).1.pc = s.pc ∧ (hostSnapshot s).1.wp = s.wp ∧ (hostSnapshot s).1.st = s.st ∧
    (hostSnapshot s).1.regs.length = 16 ∧
    (∀ n : Reg, (hostSnapshot s).1.regs[n.toNat]? = some (answer n)) ∧
    (s.RamPort → ∀ n : Reg, answer n = s.regAt n) ∧
    (hostSnapshot s).2 =
      { s with
        readAnswers := s.readAnswers.drop 16
        calls := (allRegs.map fun n => PortCall.readWord (evenAddr (s.regAddr n)) (answer n)).reverse ++ s.calls }

/-! ## The whole machine -/

/-- R38: the status bits each instruction leaves alone. -/
def Obligations.StatusBitsLeftAlone : Prop :=
  ∀ (i : Instr) (s t : State), exec i s = .next t → t.st &&& ~~~statusWritten i = s.st &&& ~~~statusWritten i

/-- R21, R40, R42, R43, R44, R49: no instruction but LWPI, BLWP, XOP, RTWP (and X through its target) writes WP;
none but IDLE (and X) changes `idle`; none but X changes `illegalCount`; none at all changes what belongs to the
host or the parameters; the answers of the Memory Port are used up in order; and the transients are at rest again. -/
def Obligations.StateEachInstructionLeavesAlone : Prop :=
  ∀ (i : Instr) (s t : State), s.NoPending → exec i s = .next t →
    (writesWp i = false → t.wp = s.wp) ∧
    (isX i = false → i ≠ .idle → t.idle = s.idle) ∧ (isX i = false → t.illegalCount = s.illegalCount) ∧
    t.suspended = s.suspended ∧ t.breakpoint = s.breakpoint ∧ t.bpLatch = s.bpLatch ∧ t.params = s.params ∧
    t.intSamples = s.intSamples ∧ t.suspendChanges = s.suspendChanges ∧ t.readAnswers <:+ s.readAnswers ∧
    t.NoPending ∧ t.xDepth = s.xDepth ∧ ExtendsCalls s t

/-- R373: every instruction takes 8 to 100 cycles, X more through its target. -/
def Obligations.CycleBounds : Prop :=
  ∀ (i : Instr) (s t : State), exec i s = .next t →
    s.cycles + 8 ≤ t.cycles ∧ (isX i = false → t.cycles ≤ s.cycles + 100)

end
end

