-- ==== Sys2Proof/Laws/Memory.lean ====
section
/-! SUPPORT. The laws of memory: a read after a write, what a write leaves alone, and the canonical form. -/

namespace Sys2Proof.Machine

/-! ## Bytes -/

theorem Memory.lookup_put_same (m : Memory) (a : Nat) (b : Byte) : (m.put a b).lookup a = some b := by
  induction m with
  | nil => simp [Memory.put, Memory.lookup]
  | cons c rest ih =>
    unfold Memory.put
    split_ifs with h1 h2
    · simp [Memory.lookup]
    · simp [Memory.lookup]
    · simp [Memory.lookup, ih, Ne.symm h2]

theorem Memory.lookup_put_other (m : Memory) {a x : Nat} (b : Byte) (h : x ≠ a) :
    (m.put a b).lookup x = m.lookup x := by
  induction m with
  | nil => simp [Memory.put, Memory.lookup, Ne.symm h]
  | cons c rest ih =>
    unfold Memory.put
    split_ifs with h1 h2
    · simp [Memory.lookup, Ne.symm h]
    · subst h2; simp [Memory.lookup, Ne.symm h]
    · simp [Memory.lookup, ih]

theorem Memory.lookup_erase_same (m : Memory) (a : Nat) : (m.erase a).lookup a = none := by
  induction m with
  | nil => rfl
  | cons c rest ih =>
    unfold Memory.erase
    split_ifs with h
    · exact ih
    · simp [Memory.lookup, h, ih]

theorem Memory.lookup_erase_other (m : Memory) {a x : Nat} (h : x ≠ a) : (m.erase a).lookup x = m.lookup x := by
  induction m with
  | nil => rfl
  | cons c rest ih =>
    unfold Memory.erase
    split_ifs with h1
    · subst h1; simp [Memory.lookup, ih, Ne.symm h]
    · simp [Memory.lookup, ih]

/-- A byte read after it is written is the byte written. -/
@[simp] theorem Memory.byte_setByte_same (m : Memory) (a : Nat) (b : Byte) : (m.setByte a b).byte a = b := by
  unfold Memory.setByte Memory.byte
  split
  · simp [Memory.lookup_put_same]
  · rename_i p hp
    split_ifs with h
    · simp [Memory.lookup_erase_same, unlistedByte, hp, h]
    · simp [Memory.lookup_put_same]

/-- A byte write leaves every other byte alone. -/
theorem Memory.byte_setByte_other (m : Memory) {a x : Nat} (b : Byte) (h : x ≠ a) :
    (m.setByte a b).byte x = m.byte x := by
  unfold Memory.setByte Memory.byte
  split
  · simp [Memory.lookup_put_other m b h]
  · split_ifs
    · simp [Memory.lookup_erase_other m h]
    · simp [Memory.lookup_put_other m b h]

/-! ## Even addresses -/

theorem evenAddr_toNat (a : Word) : (evenAddr a).toNat = a.toNat / 2 * 2 := by
  have h : (evenAddr a).toNat = (a.toNat >>> 1) <<< 1 := by
    have : evenAddr a = (a >>> 1) <<< 1 := by
      unfold evenAddr
      ext i hi
      have : i < 16 := hi
      interval_cases i <;> simp
    rw [this]
    simp only [BitVec.toNat_shiftLeft, BitVec.toNat_ushiftRight]
    have := a.isLt
    rw [Nat.mod_eq_of_lt]
    rw [Nat.shiftLeft_eq, Nat.shiftRight_eq_div_pow]
    omega
  rw [h, Nat.shiftLeft_eq, Nat.shiftRight_eq_div_pow]

theorem evenAddr_succ_lt (a : Word) : (evenAddr a).toNat + 1 < 65536 := by
  rw [evenAddr_toNat]; have := a.isLt; omega

@[simp] theorem evenAddr_evenAddr (a : Word) : evenAddr (evenAddr a) = evenAddr a := by
  apply BitVec.eq_of_toNat_eq; rw [evenAddr_toNat, evenAddr_toNat]; omega

theorem evenAddr_eq_iff (a b : Word) : evenAddr a = evenAddr b ↔ a.toNat / 2 = b.toNat / 2 := by
  rw [← BitVec.toNat_inj, evenAddr_toNat, evenAddr_toNat]; omega

/-- An even address is its own even address. -/
theorem evenAddr_of_even {a : Word} (h : a &&& 1#16 = 0#16) : evenAddr a = a := by
  have h2 : a.toNat % 2 = 0 := by
    have := congrArg BitVec.toNat h
    simpa [BitVec.toNat_and, Nat.and_one_is_mod] using this
  apply BitVec.eq_of_toNat_eq; rw [evenAddr_toNat]; omega

@[simp] theorem evenAddr_and_one (a : Word) : evenAddr a &&& 1#16 = 0#16 := by
  apply BitVec.eq_of_toNat_eq
  simp [BitVec.toNat_and, Nat.and_one_is_mod, evenAddr_toNat]

/-! ## Words -/

theorem highByte_toNat (w : Word) : (highByte w).toNat = w.toNat / 256 := by
  have := w.isLt
  simp only [highByte, BitVec.extractLsb'_toNat, Nat.shiftRight_eq_div_pow]
  omega

theorem lowByte_toNat (w : Word) : (lowByte w).toNat = w.toNat % 256 := by
  simp only [lowByte, BitVec.extractLsb'_toNat, Nat.shiftRight_eq_div_pow]
  omega

theorem append_toNat (h l : Byte) : (h ++ l : Word).toNat = h.toNat * 256 + l.toNat := by
  have := l.isLt
  rw [BitVec.toNat_append, ← Nat.shiftLeft_add_eq_or_of_lt (by omega), Nat.shiftLeft_eq]

@[simp] theorem highByte_append_lowByte (w : Word) : (highByte w ++ lowByte w : Word) = w := by
  apply BitVec.eq_of_toNat_eq
  rw [append_toNat, highByte_toNat, lowByte_toNat]; omega

@[simp] theorem highByte_append (h l : Byte) : highByte (h ++ l : Word) = h := by
  apply BitVec.eq_of_toNat_eq
  rw [highByte_toNat, append_toNat]; have := l.isLt; omega

@[simp] theorem lowByte_append (h l : Byte) : lowByte (h ++ l : Word) = l := by
  apply BitVec.eq_of_toNat_eq
  rw [lowByte_toNat, append_toNat]; have := l.isLt; omega

/-- The byte at an address after a word write: a half of the word, or as before. -/
theorem Memory.byte_setWord (m : Memory) (a v : Word) (x : Nat) :
    (m.setWord a v).byte x =
      if x = (evenAddr a).toNat + 1 then lowByte v
      else if x = (evenAddr a).toNat then highByte v else m.byte x := by
  unfold Memory.setWord
  split_ifs with h1 h2
  · subst h1; simp
  · subst h2; rw [Memory.byte_setByte_other _ _ h1]; simp
  · rw [Memory.byte_setByte_other _ _ h1, Memory.byte_setByte_other _ _ h2]

/-- A word write leaves the bytes outside its word alone. -/
theorem Memory.byte_setWord_other (m : Memory) {a x : Word} (v : Word) (h : evenAddr x ≠ evenAddr a) :
    (m.setWord a v).byte x.toNat = m.byte x.toNat := by
  rw [Memory.byte_setWord]
  rw [ne_eq, evenAddr_eq_iff] at h
  rw [if_neg, if_neg] <;> rw [evenAddr_toNat] <;> omega

theorem Memory.wordAt_congr (m : Memory) {a b : Word} (h : evenAddr a = evenAddr b) : m.wordAt a = m.wordAt b := by
  unfold Memory.wordAt; rw [h]

@[simp] theorem Memory.wordAt_evenAddr (m : Memory) (a : Word) : m.wordAt (evenAddr a) = m.wordAt a :=
  m.wordAt_congr (evenAddr_evenAddr a)

theorem Memory.setWord_congr (m : Memory) {a b : Word} (v : Word) (h : evenAddr a = evenAddr b) :
    m.setWord a v = m.setWord b v := by
  unfold Memory.setWord; rw [h]

/-- A word read after a write to the same word. -/
theorem Memory.wordAt_setWord_same (m : Memory) {a b : Word} (v : Word) (h : evenAddr a = evenAddr b) :
    (m.setWord a v).wordAt b = v := by
  unfold Memory.wordAt
  rw [Memory.byte_setWord, Memory.byte_setWord, h]
  simp

/-- A word read after a write to another word. -/
theorem Memory.wordAt_setWord_other (m : Memory) {a b : Word} (v : Word) (h : evenAddr b ≠ evenAddr a) :
    (m.setWord a v).wordAt b = m.wordAt b := by
  unfold Memory.wordAt
  have h' : b.toNat / 2 ≠ a.toNat / 2 := fun e => h ((evenAddr_eq_iff b a).2 e)
  rw [Memory.byte_setWord, Memory.byte_setWord]
  rw [if_neg, if_neg, if_neg, if_neg] <;> rw [evenAddr_toNat, evenAddr_toNat] <;> omega

/-- A word read after a word write, whatever the two addresses. -/
theorem Memory.wordAt_setWord (m : Memory) (a b v : Word) :
    (m.setWord a v).wordAt b = if evenAddr b = evenAddr a then v else m.wordAt b := by
  split_ifs with h
  · exact m.wordAt_setWord_same v h.symm
  · exact m.wordAt_setWord_other v h

@[simp] theorem Memory.wordAt_setWord_self (m : Memory) (a v : Word) : (m.setWord a v).wordAt a = v :=
  m.wordAt_setWord_same v rfl

/-! ## The canonical form -/

/-- Every key of a list of cells is above a bound. -/
def keysAbove (a : Nat) (m : Memory) : Prop := ∀ c ∈ m, a < c.1

theorem Memory.wf_cons (c : Host.Cell) (m : Memory) :
    Memory.wf (c :: m) = true ↔ cellOk c = true ∧ keysAbove c.1 m ∧ m.wf = true := by
  induction m generalizing c with
  | nil => simp [Memory.wf, keysAbove]
  | cons d rest ih =>
    rw [Memory.wf, Bool.and_eq_true, Bool.and_eq_true, decide_eq_true_iff]
    constructor
    · rintro ⟨⟨h1, h2⟩, h3⟩
      refine ⟨h1, ?_, h3⟩
      intro e he
      rcases List.mem_cons.1 he with rfl | he
      · exact h2
      · exact lt_trans h2 (((ih d).1 h3).2.1 e he)
    · rintro ⟨h1, h2, h3⟩
      exact ⟨⟨h1, h2 d (by simp)⟩, h3⟩

theorem Memory.keysAbove_put {k a : Nat} {b : Byte} {m : Memory} (h : keysAbove k m) (hk : k < a) :
    keysAbove k (m.put a b) := by
  induction m with
  | nil => intro c hc; simp [Memory.put] at hc; subst hc; exact hk
  | cons c rest ih =>
    have hr : keysAbove k rest := fun d hd => h d (List.mem_cons_of_mem _ hd)
    unfold Memory.put
    split_ifs with h1 h2
    · intro d hd; rcases List.mem_cons.1 hd with rfl | hd
      · exact hk
      · exact h d hd
    · intro d hd; rcases List.mem_cons.1 hd with rfl | hd
      · exact hk
      · exact hr d hd
    · intro d hd; rcases List.mem_cons.1 hd with rfl | hd
      · exact h _ (by simp)
      · exact ih hr d hd

theorem Memory.keysAbove_erase {k a : Nat} {m : Memory} (h : keysAbove k m) : keysAbove k (m.erase a) := by
  induction m with
  | nil => exact h
  | cons c rest ih =>
    have hr : keysAbove k rest := fun d hd => h d (List.mem_cons_of_mem _ hd)
    unfold Memory.erase
    split_ifs
    · exact ih hr
    · intro d hd; rcases List.mem_cons.1 hd with rfl | hd
      · exact h _ (by simp)
      · exact ih hr d hd

theorem Memory.wf_put {m : Memory} {a : Nat} {b : Byte} (h : m.wf = true) (hc : cellOk (a, b) = true) :
    (m.put a b).wf = true := by
  induction m with
  | nil => simpa [Memory.put, Memory.wf] using hc
  | cons c rest ih =>
    obtain ⟨h1, h2, h3⟩ := (Memory.wf_cons c rest).1 h
    unfold Memory.put
    split_ifs with ha hb
    · refine (Memory.wf_cons _ _).2 ⟨hc, ?_, h⟩
      intro d hd; rcases List.mem_cons.1 hd with rfl | hd
      · exact ha
      · exact lt_trans ha (h2 d hd)
    · exact (Memory.wf_cons _ _).2 ⟨hc, hb ▸ h2, h3⟩
    · refine (Memory.wf_cons _ _).2 ⟨h1, Memory.keysAbove_put h2 ?_, ih h3⟩
      show c.1 < a
      omega

theorem Memory.wf_erase {m : Memory} {a : Nat} (h : m.wf = true) : (m.erase a).wf = true := by
  induction m with
  | nil => exact h
  | cons c rest ih =>
    obtain ⟨h1, h2, h3⟩ := (Memory.wf_cons c rest).1 h
    unfold Memory.erase
    split_ifs
    · exact ih h3
    · exact (Memory.wf_cons _ _).2 ⟨h1, Memory.keysAbove_erase h2, ih h3⟩

/-- A byte write inside the address space keeps the canonical form. -/
theorem Memory.wf_setByte {m : Memory} {a : Nat} {b : Byte} (h : m.wf = true) (ha : a < 65536) :
    (m.setByte a b).wf = true := by
  unfold Memory.setByte
  split
  · rename_i hp
    exact Memory.wf_put h (by simp [cellOk, ha, hp])
  · rename_i p hp
    split_ifs with hb
    · exact Memory.wf_erase h
    · exact Memory.wf_put h (by simp [cellOk, ha, hp, hb])

/-- A word write keeps the canonical form. -/
theorem Memory.wf_setWord {m : Memory} (a v : Word) (h : m.wf = true) : (m.setWord a v).wf = true :=
  Memory.wf_setByte (Memory.wf_setByte h (by have := evenAddr_succ_lt a; omega)) (evenAddr_succ_lt a)

end Sys2Proof.Machine
end

