-- ==== Sys2Proof/Laws/State.lean ====
section
/-! SUPPORT. One lemma for each field after each plain update of the state, all by rfl, so that no proof has to
unfold a record update; and the rest of the state after each. -/

namespace Sys2Proof.Machine

variable (s : State)

/-! ## record -/

@[simp] theorem State.record_wp (c : PortCall) : (s.record c).wp = s.wp := rfl
@[simp] theorem State.record_pc (c : PortCall) : (s.record c).pc = s.pc := rfl
@[simp] theorem State.record_st (c : PortCall) : (s.record c).st = s.st := rfl
@[simp] theorem State.record_cycles (c : PortCall) : (s.record c).cycles = s.cycles := rfl
@[simp] theorem State.record_illegalCount (c : PortCall) : (s.record c).illegalCount = s.illegalCount := rfl
@[simp] theorem State.record_idle (c : PortCall) : (s.record c).idle = s.idle := rfl
@[simp] theorem State.record_suspended (c : PortCall) : (s.record c).suspended = s.suspended := rfl
@[simp] theorem State.record_breakpoint (c : PortCall) : (s.record c).breakpoint = s.breakpoint := rfl
@[simp] theorem State.record_bpLatch (c : PortCall) : (s.record c).bpLatch = s.bpLatch := rfl
@[simp] theorem State.record_pendingSrc (c : PortCall) : (s.record c).pendingSrc = s.pendingSrc := rfl
@[simp] theorem State.record_pendingDst (c : PortCall) : (s.record c).pendingDst = s.pendingDst := rfl
@[simp] theorem State.record_xDepth (c : PortCall) : (s.record c).xDepth = s.xDepth := rfl
@[simp] theorem State.record_mem (c : PortCall) : (s.record c).mem = s.mem := rfl
@[simp] theorem State.record_intSamples (c : PortCall) : (s.record c).intSamples = s.intSamples := rfl
@[simp] theorem State.record_cruAnswers (c : PortCall) : (s.record c).cruAnswers = s.cruAnswers := rfl
@[simp] theorem State.record_readAnswers (c : PortCall) : (s.record c).readAnswers = s.readAnswers := rfl
@[simp] theorem State.record_suspendChanges (c : PortCall) : (s.record c).suspendChanges = s.suspendChanges := rfl
@[simp] theorem State.record_freeIndex (c : PortCall) : (s.record c).freeIndex = s.freeIndex := rfl
@[simp] theorem State.record_calls (c : PortCall) : (s.record c).calls = c :: s.calls := rfl
@[simp] theorem State.record_params (c : PortCall) : (s.record c).params = s.params := rfl
@[simp] theorem State.record_rest (c : PortCall) : (s.record c).rest = s.rest := rfl

/-! ## readWord -/

@[simp] theorem State.readWord_wp (a : Word) : (s.readWord a).2.wp = s.wp := rfl
@[simp] theorem State.readWord_pc (a : Word) : (s.readWord a).2.pc = s.pc := rfl
@[simp] theorem State.readWord_st (a : Word) : (s.readWord a).2.st = s.st := rfl
@[simp] theorem State.readWord_cycles (a : Word) : (s.readWord a).2.cycles = s.cycles := rfl
@[simp] theorem State.readWord_illegalCount (a : Word) : (s.readWord a).2.illegalCount = s.illegalCount := rfl
@[simp] theorem State.readWord_idle (a : Word) : (s.readWord a).2.idle = s.idle := rfl
@[simp] theorem State.readWord_suspended (a : Word) : (s.readWord a).2.suspended = s.suspended := rfl
@[simp] theorem State.readWord_breakpoint (a : Word) : (s.readWord a).2.breakpoint = s.breakpoint := rfl
@[simp] theorem State.readWord_bpLatch (a : Word) : (s.readWord a).2.bpLatch = s.bpLatch := rfl
@[simp] theorem State.readWord_pendingSrc (a : Word) : (s.readWord a).2.pendingSrc = s.pendingSrc := rfl
@[simp] theorem State.readWord_pendingDst (a : Word) : (s.readWord a).2.pendingDst = s.pendingDst := rfl
@[simp] theorem State.readWord_xDepth (a : Word) : (s.readWord a).2.xDepth = s.xDepth := rfl
@[simp] theorem State.readWord_mem (a : Word) : (s.readWord a).2.mem = s.mem := rfl
@[simp] theorem State.readWord_intSamples (a : Word) : (s.readWord a).2.intSamples = s.intSamples := rfl
@[simp] theorem State.readWord_cruAnswers (a : Word) : (s.readWord a).2.cruAnswers = s.cruAnswers := rfl
@[simp] theorem State.readWord_readAnswers (a : Word) : (s.readWord a).2.readAnswers = s.readAnswers.tail := rfl
@[simp] theorem State.readWord_suspendChanges (a : Word) : (s.readWord a).2.suspendChanges = s.suspendChanges := rfl
@[simp] theorem State.readWord_freeIndex (a : Word) : (s.readWord a).2.freeIndex = s.freeIndex := rfl
@[simp] theorem State.readWord_calls (a : Word) : (s.readWord a).2.calls = .readWord (evenAddr a) (s.answerAt a) :: s.calls := rfl
@[simp] theorem State.readWord_params (a : Word) : (s.readWord a).2.params = s.params := rfl
@[simp] theorem State.readWord_rest (a : Word) : (s.readWord a).2.rest = s.rest := rfl

/-! ## writeWord -/

@[simp] theorem State.writeWord_wp (a v : Word) : (s.writeWord a v).wp = s.wp := rfl
@[simp] theorem State.writeWord_pc (a v : Word) : (s.writeWord a v).pc = s.pc := rfl
@[simp] theorem State.writeWord_st (a v : Word) : (s.writeWord a v).st = s.st := rfl
@[simp] theorem State.writeWord_cycles (a v : Word) : (s.writeWord a v).cycles = s.cycles := rfl
@[simp] theorem State.writeWord_illegalCount (a v : Word) : (s.writeWord a v).illegalCount = s.illegalCount := rfl
@[simp] theorem State.writeWord_idle (a v : Word) : (s.writeWord a v).idle = s.idle := rfl
@[simp] theorem State.writeWord_suspended (a v : Word) : (s.writeWord a v).suspended = s.suspended := rfl
@[simp] theorem State.writeWord_breakpoint (a v : Word) : (s.writeWord a v).breakpoint = s.breakpoint := rfl
@[simp] theorem State.writeWord_bpLatch (a v : Word) : (s.writeWord a v).bpLatch = s.bpLatch := rfl
@[simp] theorem State.writeWord_pendingSrc (a v : Word) : (s.writeWord a v).pendingSrc = s.pendingSrc := rfl
@[simp] theorem State.writeWord_pendingDst (a v : Word) : (s.writeWord a v).pendingDst = s.pendingDst := rfl
@[simp] theorem State.writeWord_xDepth (a v : Word) : (s.writeWord a v).xDepth = s.xDepth := rfl
@[simp] theorem State.writeWord_mem (a v : Word) : (s.writeWord a v).mem = s.mem.setWord a v := rfl
@[simp] theorem State.writeWord_intSamples (a v : Word) : (s.writeWord a v).intSamples = s.intSamples := rfl
@[simp] theorem State.writeWord_cruAnswers (a v : Word) : (s.writeWord a v).cruAnswers = s.cruAnswers := rfl
@[simp] theorem State.writeWord_readAnswers (a v : Word) : (s.writeWord a v).readAnswers = s.readAnswers := rfl
@[simp] theorem State.writeWord_suspendChanges (a v : Word) : (s.writeWord a v).suspendChanges = s.suspendChanges := rfl
@[simp] theorem State.writeWord_freeIndex (a v : Word) : (s.writeWord a v).freeIndex = s.freeIndex := rfl
@[simp] theorem State.writeWord_calls (a v : Word) : (s.writeWord a v).calls = .writeWord (evenAddr a) v :: s.calls := rfl
@[simp] theorem State.writeWord_params (a v : Word) : (s.writeWord a v).params = s.params := rfl
@[simp] theorem State.writeWord_rest (a v : Word) : (s.writeWord a v).rest = s.rest := rfl

/-! ## readByte -/

@[simp] theorem State.readByte_wp (a : Word) : (s.readByte a).2.wp = s.wp := rfl
@[simp] theorem State.readByte_pc (a : Word) : (s.readByte a).2.pc = s.pc := rfl
@[simp] theorem State.readByte_st (a : Word) : (s.readByte a).2.st = s.st := rfl
@[simp] theorem State.readByte_cycles (a : Word) : (s.readByte a).2.cycles = s.cycles := rfl
@[simp] theorem State.readByte_illegalCount (a : Word) : (s.readByte a).2.illegalCount = s.illegalCount := rfl
@[simp] theorem State.readByte_idle (a : Word) : (s.readByte a).2.idle = s.idle := rfl
@[simp] theorem State.readByte_suspended (a : Word) : (s.readByte a).2.suspended = s.suspended := rfl
@[simp] theorem State.readByte_breakpoint (a : Word) : (s.readByte a).2.breakpoint = s.breakpoint := rfl
@[simp] theorem State.readByte_bpLatch (a : Word) : (s.readByte a).2.bpLatch = s.bpLatch := rfl
@[simp] theorem State.readByte_pendingSrc (a : Word) : (s.readByte a).2.pendingSrc = s.pendingSrc := rfl
@[simp] theorem State.readByte_pendingDst (a : Word) : (s.readByte a).2.pendingDst = s.pendingDst := rfl
@[simp] theorem State.readByte_xDepth (a : Word) : (s.readByte a).2.xDepth = s.xDepth := rfl
@[simp] theorem State.readByte_mem (a : Word) : (s.readByte a).2.mem = s.mem := rfl
@[simp] theorem State.readByte_intSamples (a : Word) : (s.readByte a).2.intSamples = s.intSamples := rfl
@[simp] theorem State.readByte_cruAnswers (a : Word) : (s.readByte a).2.cruAnswers = s.cruAnswers := rfl
@[simp] theorem State.readByte_readAnswers (a : Word) : (s.readByte a).2.readAnswers = s.readAnswers.tail := rfl
@[simp] theorem State.readByte_suspendChanges (a : Word) : (s.readByte a).2.suspendChanges = s.suspendChanges := rfl
@[simp] theorem State.readByte_freeIndex (a : Word) : (s.readByte a).2.freeIndex = s.freeIndex := rfl
@[simp] theorem State.readByte_calls (a : Word) : (s.readByte a).2.calls = .readWord (evenAddr a) (s.answerAt a) :: s.calls := rfl
@[simp] theorem State.readByte_params (a : Word) : (s.readByte a).2.params = s.params := rfl
@[simp] theorem State.readByte_rest (a : Word) : (s.readByte a).2.rest = s.rest := rfl

/-! ## writeByte -/

@[simp] theorem State.writeByte_wp (a : Word) (b : Byte) : (s.writeByte a b).wp = s.wp := rfl
@[simp] theorem State.writeByte_pc (a : Word) (b : Byte) : (s.writeByte a b).pc = s.pc := rfl
@[simp] theorem State.writeByte_st (a : Word) (b : Byte) : (s.writeByte a b).st = s.st := rfl
@[simp] theorem State.writeByte_cycles (a : Word) (b : Byte) : (s.writeByte a b).cycles = s.cycles := rfl
@[simp] theorem State.writeByte_illegalCount (a : Word) (b : Byte) : (s.writeByte a b).illegalCount = s.illegalCount := rfl
@[simp] theorem State.writeByte_idle (a : Word) (b : Byte) : (s.writeByte a b).idle = s.idle := rfl
@[simp] theorem State.writeByte_suspended (a : Word) (b : Byte) : (s.writeByte a b).suspended = s.suspended := rfl
@[simp] theorem State.writeByte_breakpoint (a : Word) (b : Byte) : (s.writeByte a b).breakpoint = s.breakpoint := rfl
@[simp] theorem State.writeByte_bpLatch (a : Word) (b : Byte) : (s.writeByte a b).bpLatch = s.bpLatch := rfl
@[simp] theorem State.writeByte_pendingSrc (a : Word) (b : Byte) : (s.writeByte a b).pendingSrc = s.pendingSrc := rfl
@[simp] theorem State.writeByte_pendingDst (a : Word) (b : Byte) : (s.writeByte a b).pendingDst = s.pendingDst := rfl
@[simp] theorem State.writeByte_xDepth (a : Word) (b : Byte) : (s.writeByte a b).xDepth = s.xDepth := rfl
@[simp] theorem State.writeByte_mem (a : Word) (b : Byte) : (s.writeByte a b).mem = s.mem.setWord a (mergeByte a b (s.answerAt a)) := rfl
@[simp] theorem State.writeByte_intSamples (a : Word) (b : Byte) : (s.writeByte a b).intSamples = s.intSamples := rfl
@[simp] theorem State.writeByte_cruAnswers (a : Word) (b : Byte) : (s.writeByte a b).cruAnswers = s.cruAnswers := rfl
@[simp] theorem State.writeByte_readAnswers (a : Word) (b : Byte) : (s.writeByte a b).readAnswers = s.readAnswers.tail := rfl
@[simp] theorem State.writeByte_suspendChanges (a : Word) (b : Byte) : (s.writeByte a b).suspendChanges = s.suspendChanges := rfl
@[simp] theorem State.writeByte_freeIndex (a : Word) (b : Byte) : (s.writeByte a b).freeIndex = s.freeIndex := rfl
@[simp] theorem State.writeByte_calls (a : Word) (b : Byte) : (s.writeByte a b).calls = .writeWord (evenAddr a) (mergeByte a b (s.answerAt a)) :: .readWord (evenAddr a) (s.answerAt a) :: s.calls := rfl
@[simp] theorem State.writeByte_params (a : Word) (b : Byte) : (s.writeByte a b).params = s.params := rfl
@[simp] theorem State.writeByte_rest (a : Word) (b : Byte) : (s.writeByte a b).rest = s.rest := rfl

/-! ## readReg -/

@[simp] theorem State.readReg_wp (n : Reg) : (s.readReg n).2.wp = s.wp := rfl
@[simp] theorem State.readReg_pc (n : Reg) : (s.readReg n).2.pc = s.pc := rfl
@[simp] theorem State.readReg_st (n : Reg) : (s.readReg n).2.st = s.st := rfl
@[simp] theorem State.readReg_cycles (n : Reg) : (s.readReg n).2.cycles = s.cycles := rfl
@[simp] theorem State.readReg_illegalCount (n : Reg) : (s.readReg n).2.illegalCount = s.illegalCount := rfl
@[simp] theorem State.readReg_idle (n : Reg) : (s.readReg n).2.idle = s.idle := rfl
@[simp] theorem State.readReg_suspended (n : Reg) : (s.readReg n).2.suspended = s.suspended := rfl
@[simp] theorem State.readReg_breakpoint (n : Reg) : (s.readReg n).2.breakpoint = s.breakpoint := rfl
@[simp] theorem State.readReg_bpLatch (n : Reg) : (s.readReg n).2.bpLatch = s.bpLatch := rfl
@[simp] theorem State.readReg_pendingSrc (n : Reg) : (s.readReg n).2.pendingSrc = s.pendingSrc := rfl
@[simp] theorem State.readReg_pendingDst (n : Reg) : (s.readReg n).2.pendingDst = s.pendingDst := rfl
@[simp] theorem State.readReg_xDepth (n : Reg) : (s.readReg n).2.xDepth = s.xDepth := rfl
@[simp] theorem State.readReg_mem (n : Reg) : (s.readReg n).2.mem = s.mem := rfl
@[simp] theorem State.readReg_intSamples (n : Reg) : (s.readReg n).2.intSamples = s.intSamples := rfl
@[simp] theorem State.readReg_cruAnswers (n : Reg) : (s.readReg n).2.cruAnswers = s.cruAnswers := rfl
@[simp] theorem State.readReg_readAnswers (n : Reg) : (s.readReg n).2.readAnswers = s.readAnswers.tail := rfl
@[simp] theorem State.readReg_suspendChanges (n : Reg) : (s.readReg n).2.suspendChanges = s.suspendChanges := rfl
@[simp] theorem State.readReg_freeIndex (n : Reg) : (s.readReg n).2.freeIndex = s.freeIndex := rfl
@[simp] theorem State.readReg_calls (n : Reg) : (s.readReg n).2.calls = .readWord (evenAddr (s.regAddr n)) (s.answerAt (s.regAddr n)) :: s.calls := rfl
@[simp] theorem State.readReg_params (n : Reg) : (s.readReg n).2.params = s.params := rfl
@[simp] theorem State.readReg_rest (n : Reg) : (s.readReg n).2.rest = s.rest := rfl

/-! ## writeReg -/

@[simp] theorem State.writeReg_wp (n : Reg) (v : Word) : (s.writeReg n v).wp = s.wp := rfl
@[simp] theorem State.writeReg_pc (n : Reg) (v : Word) : (s.writeReg n v).pc = s.pc := rfl
@[simp] theorem State.writeReg_st (n : Reg) (v : Word) : (s.writeReg n v).st = s.st := rfl
@[simp] theorem State.writeReg_cycles (n : Reg) (v : Word) : (s.writeReg n v).cycles = s.cycles := rfl
@[simp] theorem State.writeReg_illegalCount (n : Reg) (v : Word) : (s.writeReg n v).illegalCount = s.illegalCount := rfl
@[simp] theorem State.writeReg_idle (n : Reg) (v : Word) : (s.writeReg n v).idle = s.idle := rfl
@[simp] theorem State.writeReg_suspended (n : Reg) (v : Word) : (s.writeReg n v).suspended = s.suspended := rfl
@[simp] theorem State.writeReg_breakpoint (n : Reg) (v : Word) : (s.writeReg n v).breakpoint = s.breakpoint := rfl
@[simp] theorem State.writeReg_bpLatch (n : Reg) (v : Word) : (s.writeReg n v).bpLatch = s.bpLatch := rfl
@[simp] theorem State.writeReg_pendingSrc (n : Reg) (v : Word) : (s.writeReg n v).pendingSrc = s.pendingSrc := rfl
@[simp] theorem State.writeReg_pendingDst (n : Reg) (v : Word) : (s.writeReg n v).pendingDst = s.pendingDst := rfl
@[simp] theorem State.writeReg_xDepth (n : Reg) (v : Word) : (s.writeReg n v).xDepth = s.xDepth := rfl
@[simp] theorem State.writeReg_mem (n : Reg) (v : Word) : (s.writeReg n v).mem = s.mem.setWord (s.regAddr n) v := rfl
@[simp] theorem State.writeReg_intSamples (n : Reg) (v : Word) : (s.writeReg n v).intSamples = s.intSamples := rfl
@[simp] theorem State.writeReg_cruAnswers (n : Reg) (v : Word) : (s.writeReg n v).cruAnswers = s.cruAnswers := rfl
@[simp] theorem State.writeReg_readAnswers (n : Reg) (v : Word) : (s.writeReg n v).readAnswers = s.readAnswers := rfl
@[simp] theorem State.writeReg_suspendChanges (n : Reg) (v : Word) : (s.writeReg n v).suspendChanges = s.suspendChanges := rfl
@[simp] theorem State.writeReg_freeIndex (n : Reg) (v : Word) : (s.writeReg n v).freeIndex = s.freeIndex := rfl
@[simp] theorem State.writeReg_calls (n : Reg) (v : Word) : (s.writeReg n v).calls = .writeWord (evenAddr (s.regAddr n)) v :: s.calls := rfl
@[simp] theorem State.writeReg_params (n : Reg) (v : Word) : (s.writeReg n v).params = s.params := rfl
@[simp] theorem State.writeReg_rest (n : Reg) (v : Word) : (s.writeReg n v).rest = s.rest := rfl

/-! ## setPc -/

@[simp] theorem State.setPc_wp (t : Word) : (s.setPc t).wp = s.wp := rfl
@[simp] theorem State.setPc_pc (t : Word) : (s.setPc t).pc = remapPc s.params (evenAddr t) := rfl
@[simp] theorem State.setPc_st (t : Word) : (s.setPc t).st = s.st := rfl
@[simp] theorem State.setPc_cycles (t : Word) : (s.setPc t).cycles = s.cycles := rfl
@[simp] theorem State.setPc_illegalCount (t : Word) : (s.setPc t).illegalCount = s.illegalCount := rfl
@[simp] theorem State.setPc_idle (t : Word) : (s.setPc t).idle = s.idle := rfl
@[simp] theorem State.setPc_suspended (t : Word) : (s.setPc t).suspended = s.suspended := rfl
@[simp] theorem State.setPc_breakpoint (t : Word) : (s.setPc t).breakpoint = s.breakpoint := rfl
@[simp] theorem State.setPc_bpLatch (t : Word) : (s.setPc t).bpLatch = s.bpLatch := rfl
@[simp] theorem State.setPc_pendingSrc (t : Word) : (s.setPc t).pendingSrc = s.pendingSrc := rfl
@[simp] theorem State.setPc_pendingDst (t : Word) : (s.setPc t).pendingDst = s.pendingDst := rfl
@[simp] theorem State.setPc_xDepth (t : Word) : (s.setPc t).xDepth = s.xDepth := rfl
@[simp] theorem State.setPc_mem (t : Word) : (s.setPc t).mem = s.mem := rfl
@[simp] theorem State.setPc_intSamples (t : Word) : (s.setPc t).intSamples = s.intSamples := rfl
@[simp] theorem State.setPc_cruAnswers (t : Word) : (s.setPc t).cruAnswers = s.cruAnswers := rfl
@[simp] theorem State.setPc_readAnswers (t : Word) : (s.setPc t).readAnswers = s.readAnswers := rfl
@[simp] theorem State.setPc_suspendChanges (t : Word) : (s.setPc t).suspendChanges = s.suspendChanges := rfl
@[simp] theorem State.setPc_freeIndex (t : Word) : (s.setPc t).freeIndex = s.freeIndex := rfl
@[simp] theorem State.setPc_calls (t : Word) : (s.setPc t).calls = s.calls := rfl
@[simp] theorem State.setPc_params (t : Word) : (s.setPc t).params = s.params := rfl
@[simp] theorem State.setPc_rest (t : Word) : (s.setPc t).rest = s.rest := rfl

/-! ## setSt -/

@[simp] theorem State.setSt_wp (clear bits : Word) : (s.setSt clear bits).wp = s.wp := rfl
@[simp] theorem State.setSt_pc (clear bits : Word) : (s.setSt clear bits).pc = s.pc := rfl
@[simp] theorem State.setSt_st (clear bits : Word) : (s.setSt clear bits).st = (s.st &&& ~~~clear) ||| bits := rfl
@[simp] theorem State.setSt_cycles (clear bits : Word) : (s.setSt clear bits).cycles = s.cycles := rfl
@[simp] theorem State.setSt_illegalCount (clear bits : Word) : (s.setSt clear bits).illegalCount = s.illegalCount := rfl
@[simp] theorem State.setSt_idle (clear bits : Word) : (s.setSt clear bits).idle = s.idle := rfl
@[simp] theorem State.setSt_suspended (clear bits : Word) : (s.setSt clear bits).suspended = s.suspended := rfl
@[simp] theorem State.setSt_breakpoint (clear bits : Word) : (s.setSt clear bits).breakpoint = s.breakpoint := rfl
@[simp] theorem State.setSt_bpLatch (clear bits : Word) : (s.setSt clear bits).bpLatch = s.bpLatch := rfl
@[simp] theorem State.setSt_pendingSrc (clear bits : Word) : (s.setSt clear bits).pendingSrc = s.pendingSrc := rfl
@[simp] theorem State.setSt_pendingDst (clear bits : Word) : (s.setSt clear bits).pendingDst = s.pendingDst := rfl
@[simp] theorem State.setSt_xDepth (clear bits : Word) : (s.setSt clear bits).xDepth = s.xDepth := rfl
@[simp] theorem State.setSt_mem (clear bits : Word) : (s.setSt clear bits).mem = s.mem := rfl
@[simp] theorem State.setSt_intSamples (clear bits : Word) : (s.setSt clear bits).intSamples = s.intSamples := rfl
@[simp] theorem State.setSt_cruAnswers (clear bits : Word) : (s.setSt clear bits).cruAnswers = s.cruAnswers := rfl
@[simp] theorem State.setSt_readAnswers (clear bits : Word) : (s.setSt clear bits).readAnswers = s.readAnswers := rfl
@[simp] theorem State.setSt_suspendChanges (clear bits : Word) : (s.setSt clear bits).suspendChanges = s.suspendChanges := rfl
@[simp] theorem State.setSt_freeIndex (clear bits : Word) : (s.setSt clear bits).freeIndex = s.freeIndex := rfl
@[simp] theorem State.setSt_calls (clear bits : Word) : (s.setSt clear bits).calls = s.calls := rfl
@[simp] theorem State.setSt_params (clear bits : Word) : (s.setSt clear bits).params = s.params := rfl
@[simp] theorem State.setSt_rest (clear bits : Word) : (s.setSt clear bits).rest = s.rest := rfl

/-! ## addCycles -/

@[simp] theorem State.addCycles_wp (n : Nat) : (s.addCycles n).wp = s.wp := rfl
@[simp] theorem State.addCycles_pc (n : Nat) : (s.addCycles n).pc = s.pc := rfl
@[simp] theorem State.addCycles_st (n : Nat) : (s.addCycles n).st = s.st := rfl
@[simp] theorem State.addCycles_cycles (n : Nat) : (s.addCycles n).cycles = s.cycles + n := rfl
@[simp] theorem State.addCycles_illegalCount (n : Nat) : (s.addCycles n).illegalCount = s.illegalCount := rfl
@[simp] theorem State.addCycles_idle (n : Nat) : (s.addCycles n).idle = s.idle := rfl
@[simp] theorem State.addCycles_suspended (n : Nat) : (s.addCycles n).suspended = s.suspended := rfl
@[simp] theorem State.addCycles_breakpoint (n : Nat) : (s.addCycles n).breakpoint = s.breakpoint := rfl
@[simp] theorem State.addCycles_bpLatch (n : Nat) : (s.addCycles n).bpLatch = s.bpLatch := rfl
@[simp] theorem State.addCycles_pendingSrc (n : Nat) : (s.addCycles n).pendingSrc = s.pendingSrc := rfl
@[simp] theorem State.addCycles_pendingDst (n : Nat) : (s.addCycles n).pendingDst = s.pendingDst := rfl
@[simp] theorem State.addCycles_xDepth (n : Nat) : (s.addCycles n).xDepth = s.xDepth := rfl
@[simp] theorem State.addCycles_mem (n : Nat) : (s.addCycles n).mem = s.mem := rfl
@[simp] theorem State.addCycles_intSamples (n : Nat) : (s.addCycles n).intSamples = s.intSamples := rfl
@[simp] theorem State.addCycles_cruAnswers (n : Nat) : (s.addCycles n).cruAnswers = s.cruAnswers := rfl
@[simp] theorem State.addCycles_readAnswers (n : Nat) : (s.addCycles n).readAnswers = s.readAnswers := rfl
@[simp] theorem State.addCycles_suspendChanges (n : Nat) : (s.addCycles n).suspendChanges = s.suspendChanges := rfl
@[simp] theorem State.addCycles_freeIndex (n : Nat) : (s.addCycles n).freeIndex = s.freeIndex := rfl
@[simp] theorem State.addCycles_calls (n : Nat) : (s.addCycles n).calls = s.calls := rfl
@[simp] theorem State.addCycles_params (n : Nat) : (s.addCycles n).params = s.params := rfl
@[simp] theorem State.addCycles_rest (n : Nat) : (s.addCycles n).rest = s.rest := rfl

/-! ## pulse -/

@[simp] theorem State.pulse_wp (p : Pulse) : (s.pulse p).wp = s.wp := rfl
@[simp] theorem State.pulse_pc (p : Pulse) : (s.pulse p).pc = s.pc := rfl
@[simp] theorem State.pulse_st (p : Pulse) : (s.pulse p).st = s.st := rfl
@[simp] theorem State.pulse_cycles (p : Pulse) : (s.pulse p).cycles = s.cycles := rfl
@[simp] theorem State.pulse_illegalCount (p : Pulse) : (s.pulse p).illegalCount = s.illegalCount := rfl
@[simp] theorem State.pulse_idle (p : Pulse) : (s.pulse p).idle = s.idle := rfl
@[simp] theorem State.pulse_suspended (p : Pulse) : (s.pulse p).suspended = s.suspended := rfl
@[simp] theorem State.pulse_breakpoint (p : Pulse) : (s.pulse p).breakpoint = s.breakpoint := rfl
@[simp] theorem State.pulse_bpLatch (p : Pulse) : (s.pulse p).bpLatch = s.bpLatch := rfl
@[simp] theorem State.pulse_pendingSrc (p : Pulse) : (s.pulse p).pendingSrc = s.pendingSrc := rfl
@[simp] theorem State.pulse_pendingDst (p : Pulse) : (s.pulse p).pendingDst = s.pendingDst := rfl
@[simp] theorem State.pulse_xDepth (p : Pulse) : (s.pulse p).xDepth = s.xDepth := rfl
@[simp] theorem State.pulse_mem (p : Pulse) : (s.pulse p).mem = s.mem := rfl
@[simp] theorem State.pulse_intSamples (p : Pulse) : (s.pulse p).intSamples = s.intSamples := rfl
@[simp] theorem State.pulse_cruAnswers (p : Pulse) : (s.pulse p).cruAnswers = s.cruAnswers := rfl
@[simp] theorem State.pulse_readAnswers (p : Pulse) : (s.pulse p).readAnswers = s.readAnswers := rfl
@[simp] theorem State.pulse_suspendChanges (p : Pulse) : (s.pulse p).suspendChanges = s.suspendChanges := rfl
@[simp] theorem State.pulse_freeIndex (p : Pulse) : (s.pulse p).freeIndex = s.freeIndex := rfl
@[simp] theorem State.pulse_calls (p : Pulse) : (s.pulse p).calls = .pulse p :: s.calls := rfl
@[simp] theorem State.pulse_params (p : Pulse) : (s.pulse p).params = s.params := rfl
@[simp] theorem State.pulse_rest (p : Pulse) : (s.pulse p).rest = s.rest := rfl

/-! ## fetchWord -/

@[simp] theorem State.fetchWord_wp : s.fetchWord.2.wp = s.wp := rfl
@[simp] theorem State.fetchWord_pc : s.fetchWord.2.pc = remapPc s.params (evenAddr (s.pc + 2#16)) := rfl
@[simp] theorem State.fetchWord_st : s.fetchWord.2.st = s.st := rfl
@[simp] theorem State.fetchWord_cycles : s.fetchWord.2.cycles = s.cycles := rfl
@[simp] theorem State.fetchWord_illegalCount : s.fetchWord.2.illegalCount = s.illegalCount := rfl
@[simp] theorem State.fetchWord_idle : s.fetchWord.2.idle = s.idle := rfl
@[simp] theorem State.fetchWord_suspended : s.fetchWord.2.suspended = s.suspended := rfl
@[simp] theorem State.fetchWord_breakpoint : s.fetchWord.2.breakpoint = s.breakpoint := rfl
@[simp] theorem State.fetchWord_bpLatch : s.fetchWord.2.bpLatch = s.bpLatch := rfl
@[simp] theorem State.fetchWord_pendingSrc : s.fetchWord.2.pendingSrc = s.pendingSrc := rfl
@[simp] theorem State.fetchWord_pendingDst : s.fetchWord.2.pendingDst = s.pendingDst := rfl
@[simp] theorem State.fetchWord_xDepth : s.fetchWord.2.xDepth = s.xDepth := rfl
@[simp] theorem State.fetchWord_mem : s.fetchWord.2.mem = s.mem := rfl
@[simp] theorem State.fetchWord_intSamples : s.fetchWord.2.intSamples = s.intSamples := rfl
@[simp] theorem State.fetchWord_cruAnswers : s.fetchWord.2.cruAnswers = s.cruAnswers := rfl
@[simp] theorem State.fetchWord_readAnswers : s.fetchWord.2.readAnswers = s.readAnswers.tail := rfl
@[simp] theorem State.fetchWord_suspendChanges : s.fetchWord.2.suspendChanges = s.suspendChanges := rfl
@[simp] theorem State.fetchWord_freeIndex : s.fetchWord.2.freeIndex = s.freeIndex := rfl
@[simp] theorem State.fetchWord_calls : s.fetchWord.2.calls = .readWord (evenAddr s.pc) (s.answerAt s.pc) :: s.calls := rfl
@[simp] theorem State.fetchWord_params : s.fetchWord.2.params = s.params := rfl
@[simp] theorem State.fetchWord_rest : s.fetchWord.2.rest = s.rest := rfl

/-! ## setPendingSrc -/

@[simp] theorem State.setPendingSrc_wp (p : Option Pending) : (s.setPending .src p).wp = s.wp := rfl
@[simp] theorem State.setPendingSrc_pc (p : Option Pending) : (s.setPending .src p).pc = s.pc := rfl
@[simp] theorem State.setPendingSrc_st (p : Option Pending) : (s.setPending .src p).st = s.st := rfl
@[simp] theorem State.setPendingSrc_cycles (p : Option Pending) : (s.setPending .src p).cycles = s.cycles := rfl
@[simp] theorem State.setPendingSrc_illegalCount (p : Option Pending) : (s.setPending .src p).illegalCount = s.illegalCount := rfl
@[simp] theorem State.setPendingSrc_idle (p : Option Pending) : (s.setPending .src p).idle = s.idle := rfl
@[simp] theorem State.setPendingSrc_suspended (p : Option Pending) : (s.setPending .src p).suspended = s.suspended := rfl
@[simp] theorem State.setPendingSrc_breakpoint (p : Option Pending) : (s.setPending .src p).breakpoint = s.breakpoint := rfl
@[simp] theorem State.setPendingSrc_bpLatch (p : Option Pending) : (s.setPending .src p).bpLatch = s.bpLatch := rfl
@[simp] theorem State.setPendingSrc_pendingSrc (p : Option Pending) : (s.setPending .src p).pendingSrc = p := rfl
@[simp] theorem State.setPendingSrc_pendingDst (p : Option Pending) : (s.setPending .src p).pendingDst = s.pendingDst := rfl
@[simp] theorem State.setPendingSrc_xDepth (p : Option Pending) : (s.setPending .src p).xDepth = s.xDepth := rfl
@[simp] theorem State.setPendingSrc_mem (p : Option Pending) : (s.setPending .src p).mem = s.mem := rfl
@[simp] theorem State.setPendingSrc_intSamples (p : Option Pending) : (s.setPending .src p).intSamples = s.intSamples := rfl
@[simp] theorem State.setPendingSrc_cruAnswers (p : Option Pending) : (s.setPending .src p).cruAnswers = s.cruAnswers := rfl
@[simp] theorem State.setPendingSrc_readAnswers (p : Option Pending) : (s.setPending .src p).readAnswers = s.readAnswers := rfl
@[simp] theorem State.setPendingSrc_suspendChanges (p : Option Pending) : (s.setPending .src p).suspendChanges = s.suspendChanges := rfl
@[simp] theorem State.setPendingSrc_freeIndex (p : Option Pending) : (s.setPending .src p).freeIndex = s.freeIndex := rfl
@[simp] theorem State.setPendingSrc_calls (p : Option Pending) : (s.setPending .src p).calls = s.calls := rfl
@[simp] theorem State.setPendingSrc_params (p : Option Pending) : (s.setPending .src p).params = s.params := rfl
@[simp] theorem State.setPendingSrc_rest (p : Option Pending) : (s.setPending .src p).rest = s.rest := rfl

/-! ## setPendingDst -/

@[simp] theorem State.setPendingDst_wp (p : Option Pending) : (s.setPending .dst p).wp = s.wp := rfl
@[simp] theorem State.setPendingDst_pc (p : Option Pending) : (s.setPending .dst p).pc = s.pc := rfl
@[simp] theorem State.setPendingDst_st (p : Option Pending) : (s.setPending .dst p).st = s.st := rfl
@[simp] theorem State.setPendingDst_cycles (p : Option Pending) : (s.setPending .dst p).cycles = s.cycles := rfl
@[simp] theorem State.setPendingDst_illegalCount (p : Option Pending) : (s.setPending .dst p).illegalCount = s.illegalCount := rfl
@[simp] theorem State.setPendingDst_idle (p : Option Pending) : (s.setPending .dst p).idle = s.idle := rfl
@[simp] theorem State.setPendingDst_suspended (p : Option Pending) : (s.setPending .dst p).suspended = s.suspended := rfl
@[simp] theorem State.setPendingDst_breakpoint (p : Option Pending) : (s.setPending .dst p).breakpoint = s.breakpoint := rfl
@[simp] theorem State.setPendingDst_bpLatch (p : Option Pending) : (s.setPending .dst p).bpLatch = s.bpLatch := rfl
@[simp] theorem State.setPendingDst_pendingSrc (p : Option Pending) : (s.setPending .dst p).pendingSrc = s.pendingSrc := rfl
@[simp] theorem State.setPendingDst_pendingDst (p : Option Pending) : (s.setPending .dst p).pendingDst = p := rfl
@[simp] theorem State.setPendingDst_xDepth (p : Option Pending) : (s.setPending .dst p).xDepth = s.xDepth := rfl
@[simp] theorem State.setPendingDst_mem (p : Option Pending) : (s.setPending .dst p).mem = s.mem := rfl
@[simp] theorem State.setPendingDst_intSamples (p : Option Pending) : (s.setPending .dst p).intSamples = s.intSamples := rfl
@[simp] theorem State.setPendingDst_cruAnswers (p : Option Pending) : (s.setPending .dst p).cruAnswers = s.cruAnswers := rfl
@[simp] theorem State.setPendingDst_readAnswers (p : Option Pending) : (s.setPending .dst p).readAnswers = s.readAnswers := rfl
@[simp] theorem State.setPendingDst_suspendChanges (p : Option Pending) : (s.setPending .dst p).suspendChanges = s.suspendChanges := rfl
@[simp] theorem State.setPendingDst_freeIndex (p : Option Pending) : (s.setPending .dst p).freeIndex = s.freeIndex := rfl
@[simp] theorem State.setPendingDst_calls (p : Option Pending) : (s.setPending .dst p).calls = s.calls := rfl
@[simp] theorem State.setPendingDst_params (p : Option Pending) : (s.setPending .dst p).params = s.params := rfl
@[simp] theorem State.setPendingDst_rest (p : Option Pending) : (s.setPending .dst p).rest = s.rest := rfl

/-! ## writeBit -/

@[simp] theorem State.writeBit_wp (a : CruAddr) (v : Bool) : (s.writeBit a v).wp = s.wp := rfl
@[simp] theorem State.writeBit_pc (a : CruAddr) (v : Bool) : (s.writeBit a v).pc = s.pc := rfl
@[simp] theorem State.writeBit_st (a : CruAddr) (v : Bool) : (s.writeBit a v).st = s.st := rfl
@[simp] theorem State.writeBit_cycles (a : CruAddr) (v : Bool) : (s.writeBit a v).cycles = s.cycles := rfl
@[simp] theorem State.writeBit_illegalCount (a : CruAddr) (v : Bool) : (s.writeBit a v).illegalCount = s.illegalCount := rfl
@[simp] theorem State.writeBit_idle (a : CruAddr) (v : Bool) : (s.writeBit a v).idle = s.idle := rfl
@[simp] theorem State.writeBit_suspended (a : CruAddr) (v : Bool) : (s.writeBit a v).suspended = s.suspended := rfl
@[simp] theorem State.writeBit_breakpoint (a : CruAddr) (v : Bool) : (s.writeBit a v).breakpoint = s.breakpoint := rfl
@[simp] theorem State.writeBit_bpLatch (a : CruAddr) (v : Bool) : (s.writeBit a v).bpLatch = s.bpLatch := rfl
@[simp] theorem State.writeBit_pendingSrc (a : CruAddr) (v : Bool) : (s.writeBit a v).pendingSrc = s.pendingSrc := rfl
@[simp] theorem State.writeBit_pendingDst (a : CruAddr) (v : Bool) : (s.writeBit a v).pendingDst = s.pendingDst := rfl
@[simp] theorem State.writeBit_xDepth (a : CruAddr) (v : Bool) : (s.writeBit a v).xDepth = s.xDepth := rfl
@[simp] theorem State.writeBit_mem (a : CruAddr) (v : Bool) : (s.writeBit a v).mem = s.mem := rfl
@[simp] theorem State.writeBit_intSamples (a : CruAddr) (v : Bool) : (s.writeBit a v).intSamples = s.intSamples := rfl
@[simp] theorem State.writeBit_cruAnswers (a : CruAddr) (v : Bool) : (s.writeBit a v).cruAnswers = s.cruAnswers := rfl
@[simp] theorem State.writeBit_readAnswers (a : CruAddr) (v : Bool) : (s.writeBit a v).readAnswers = s.readAnswers := rfl
@[simp] theorem State.writeBit_suspendChanges (a : CruAddr) (v : Bool) : (s.writeBit a v).suspendChanges = s.suspendChanges := rfl
@[simp] theorem State.writeBit_freeIndex (a : CruAddr) (v : Bool) : (s.writeBit a v).freeIndex = s.freeIndex := rfl
@[simp] theorem State.writeBit_calls (a : CruAddr) (v : Bool) : (s.writeBit a v).calls = .writeBit a v :: s.calls := rfl
@[simp] theorem State.writeBit_params (a : CruAddr) (v : Bool) : (s.writeBit a v).params = s.params := rfl
@[simp] theorem State.writeBit_rest (a : CruAddr) (v : Bool) : (s.writeBit a v).rest = s.rest := rfl

/-! ## illegalInstruction -/

@[simp] theorem State.illegalInstruction_wp : s.illegalInstruction.wp = s.wp := rfl
@[simp] theorem State.illegalInstruction_pc : s.illegalInstruction.pc = s.pc := rfl
@[simp] theorem State.illegalInstruction_st : s.illegalInstruction.st = s.st := rfl
@[simp] theorem State.illegalInstruction_cycles : s.illegalInstruction.cycles = s.cycles + 10 := rfl
@[simp] theorem State.illegalInstruction_illegalCount : s.illegalInstruction.illegalCount = s.illegalCount + 1 := rfl
@[simp] theorem State.illegalInstruction_idle : s.illegalInstruction.idle = s.idle := rfl
@[simp] theorem State.illegalInstruction_suspended : s.illegalInstruction.suspended = s.suspended := rfl
@[simp] theorem State.illegalInstruction_breakpoint : s.illegalInstruction.breakpoint = s.breakpoint := rfl
@[simp] theorem State.illegalInstruction_bpLatch : s.illegalInstruction.bpLatch = s.bpLatch := rfl
@[simp] theorem State.illegalInstruction_pendingSrc : s.illegalInstruction.pendingSrc = s.pendingSrc := rfl
@[simp] theorem State.illegalInstruction_pendingDst : s.illegalInstruction.pendingDst = s.pendingDst := rfl
@[simp] theorem State.illegalInstruction_xDepth : s.illegalInstruction.xDepth = s.xDepth := rfl
@[simp] theorem State.illegalInstruction_mem : s.illegalInstruction.mem = s.mem := rfl
@[simp] theorem State.illegalInstruction_intSamples : s.illegalInstruction.intSamples = s.intSamples := rfl
@[simp] theorem State.illegalInstruction_cruAnswers : s.illegalInstruction.cruAnswers = s.cruAnswers := rfl
@[simp] theorem State.illegalInstruction_readAnswers : s.illegalInstruction.readAnswers = s.readAnswers := rfl
@[simp] theorem State.illegalInstruction_suspendChanges : s.illegalInstruction.suspendChanges = s.suspendChanges := rfl
@[simp] theorem State.illegalInstruction_freeIndex : s.illegalInstruction.freeIndex = s.freeIndex := rfl
@[simp] theorem State.illegalInstruction_calls : s.illegalInstruction.calls = s.calls := rfl
@[simp] theorem State.illegalInstruction_params : s.illegalInstruction.params = s.params := rfl

/-! ## conclude -/

@[simp] theorem State.conclude_wp {n : Nat} (e : Effect n) : (s.conclude e).wp = s.wp := rfl
@[simp] theorem State.conclude_pc {n : Nat} (e : Effect n) : (s.conclude e).pc = s.pc := rfl
@[simp] theorem State.conclude_st {n : Nat} (e : Effect n) : (s.conclude e).st = (s.st &&& ~~~e.clear) ||| e.bits := rfl
@[simp] theorem State.conclude_cycles {n : Nat} (e : Effect n) : (s.conclude e).cycles = s.cycles + e.cycles := rfl
@[simp] theorem State.conclude_illegalCount {n : Nat} (e : Effect n) : (s.conclude e).illegalCount = s.illegalCount := rfl
@[simp] theorem State.conclude_idle {n : Nat} (e : Effect n) : (s.conclude e).idle = s.idle := rfl
@[simp] theorem State.conclude_suspended {n : Nat} (e : Effect n) : (s.conclude e).suspended = s.suspended := rfl
@[simp] theorem State.conclude_breakpoint {n : Nat} (e : Effect n) : (s.conclude e).breakpoint = s.breakpoint := rfl
@[simp] theorem State.conclude_bpLatch {n : Nat} (e : Effect n) : (s.conclude e).bpLatch = s.bpLatch := rfl
@[simp] theorem State.conclude_pendingSrc {n : Nat} (e : Effect n) : (s.conclude e).pendingSrc = s.pendingSrc := rfl
@[simp] theorem State.conclude_pendingDst {n : Nat} (e : Effect n) : (s.conclude e).pendingDst = s.pendingDst := rfl
@[simp] theorem State.conclude_xDepth {n : Nat} (e : Effect n) : (s.conclude e).xDepth = s.xDepth := rfl
@[simp] theorem State.conclude_mem {n : Nat} (e : Effect n) : (s.conclude e).mem = s.mem := rfl
@[simp] theorem State.conclude_intSamples {n : Nat} (e : Effect n) : (s.conclude e).intSamples = s.intSamples := rfl
@[simp] theorem State.conclude_cruAnswers {n : Nat} (e : Effect n) : (s.conclude e).cruAnswers = s.cruAnswers := rfl
@[simp] theorem State.conclude_readAnswers {n : Nat} (e : Effect n) : (s.conclude e).readAnswers = s.readAnswers := rfl
@[simp] theorem State.conclude_suspendChanges {n : Nat} (e : Effect n) : (s.conclude e).suspendChanges = s.suspendChanges := rfl
@[simp] theorem State.conclude_freeIndex {n : Nat} (e : Effect n) : (s.conclude e).freeIndex = s.freeIndex := rfl
@[simp] theorem State.conclude_calls {n : Nat} (e : Effect n) : (s.conclude e).calls = s.calls := rfl
@[simp] theorem State.conclude_params {n : Nat} (e : Effect n) : (s.conclude e).params = s.params := rfl
@[simp] theorem State.conclude_rest {n : Nat} (e : Effect n) : (s.conclude e).rest = s.rest := rfl

/-! ## Values -/

/-- With no hook waiting, the port answers with its RAM: the premise of 20_memory.md R61. -/
@[simp] theorem State.answerAt_ram {s : State} (h : s.readAnswers = []) (a : Word) : s.answerAt a = s.wordAt a := by
  simp [State.answerAt, h]
theorem State.answerAt_reg_ram {s : State} (h : s.readAnswers = []) (n : Reg) :
    s.answerAt (s.regAddr n) = s.regAt n := State.answerAt_ram h _

@[simp] theorem State.readWord_value (a : Word) : (s.readWord a).1 = s.answerAt a := rfl
@[simp] theorem State.readByte_value (a : Word) : (s.readByte a).1 = selectByte a (s.answerAt a) := rfl
@[simp] theorem State.readReg_regAddr (n m : Reg) : (s.readReg n).2.regAddr m = s.regAddr m := rfl
@[simp] theorem State.readReg_value (n : Reg) : (s.readReg n).1 = s.answerAt (s.regAddr n) := rfl
@[simp] theorem State.fetchWord_value : s.fetchWord.1 = s.answerAt s.pc := rfl

/-! ## The rest of a state, field by field -/

@[simp] theorem State.rest_wp : s.rest.wp = s.wp := rfl
@[simp] theorem State.rest_illegalCount : s.rest.illegalCount = s.illegalCount := rfl
@[simp] theorem State.rest_idle : s.rest.idle = s.idle := rfl
@[simp] theorem State.rest_suspended : s.rest.suspended = s.suspended := rfl
@[simp] theorem State.rest_breakpoint : s.rest.breakpoint = s.breakpoint := rfl
@[simp] theorem State.rest_bpLatch : s.rest.bpLatch = s.bpLatch := rfl
@[simp] theorem State.rest_xDepth : s.rest.xDepth = s.xDepth := rfl
@[simp] theorem State.rest_intSamples : s.rest.intSamples = s.intSamples := rfl
@[simp] theorem State.rest_cruAnswers : s.rest.cruAnswers = s.cruAnswers := rfl
@[simp] theorem State.rest_suspendChanges : s.rest.suspendChanges = s.suspendChanges := rfl
@[simp] theorem State.rest_freeIndex : s.rest.freeIndex = s.freeIndex := rfl
@[simp] theorem State.rest_params : s.rest.params = s.params := rfl

end Sys2Proof.Machine
end

