-- ==== Sys2Proof/Laws/Ops.lean ====
section
/-! SUPPORT. What each named operation of Machine/Ops.lean can do, said once. -/

namespace Sys2Proof.Machine

variable (s : State)

/-! ## Bytes and words of the state -/

/-- The RAM premise of R61 stays once it holds: a read takes nothing from an empty list of answers. -/
theorem tail_nil {l : List (Option Word)} (h : l = []) : l.tail = [] := by simp [h]

theorem State.wordAt_writeWord (a v b : Word) :
    (s.writeWord a v).wordAt b = if evenAddr b = evenAddr a then v else s.wordAt b :=
  Memory.wordAt_setWord s.mem a b v

@[simp] theorem State.wordAt_writeWord_self (a v : Word) : (s.writeWord a v).wordAt a = v :=
  Memory.wordAt_setWord_self s.mem a v

theorem State.byteAt_writeWord_other {a x : Word} (v : Word) (h : evenAddr x ≠ evenAddr a) :
    (s.writeWord a v).byteAt x = s.byteAt x :=
  Memory.byte_setWord_other s.mem v h

/-- States with equal memories read equal words. -/
theorem State.wordAt_of_mem {s t : State} (h : t.mem = s.mem) (a : Word) : t.wordAt a = s.wordAt a := by
  unfold State.wordAt; rw [h]

/-- States with equal memories read equal bytes. -/
theorem State.byteAt_of_mem {s t : State} (h : t.mem = s.mem) (a : Word) : t.byteAt a = s.byteAt a := by
  unfold State.byteAt; rw [h]

theorem and_one_eq_zero_iff (a : Word) : a &&& 1#16 = 0#16 ↔ a.toNat % 2 = 0 := by
  rw [← BitVec.toNat_inj]; simp [BitVec.toNat_and, Nat.and_one_is_mod]

/-- The byte at an address is the half of its word that the address selects (R54). -/
theorem State.selectByte_wordAt (a : Word) : selectByte a (s.wordAt a) = s.byteAt a := by
  unfold selectByte State.wordAt Memory.wordAt State.byteAt
  have h2 := evenAddr_toNat a
  split_ifs with h <;> rw [and_one_eq_zero_iff] at h <;> simp <;> congr 1 <;> omega

theorem mergeByte_select (a w : Word) (b : Byte) : selectByte a (mergeByte a b w) = b := by
  unfold selectByte mergeByte; split_ifs <;> simp

theorem otherHalf_toNat (a : Word) :
    (otherHalf a).toNat = if a.toNat % 2 = 0 then a.toNat + 1 else a.toNat - 1 := by
  unfold otherHalf
  rw [BitVec.toNat_xor]
  have h1 : (1#16).toNat = 1 := rfl
  rw [h1]
  split_ifs with h
  · rw [Nat.xor_one_of_even (Nat.even_iff.2 h)]
  · rw [Nat.xor_one_of_odd (Nat.odd_iff.2 (by omega))]

@[simp] theorem evenAddr_otherHalf (a : Word) : evenAddr (otherHalf a) = evenAddr a := by
  rw [evenAddr_eq_iff, otherHalf_toNat]; split_ifs <;> omega

theorem mergeByte_other (a w : Word) (b : Byte) :
    selectByte (otherHalf a) (mergeByte a b w) = selectByte (otherHalf a) w := by
  unfold selectByte mergeByte
  simp only [and_one_eq_zero_iff, otherHalf_toNat]
  split_ifs <;> first | omega | simp

/-- A byte read after it is written (R55). -/
@[simp] theorem State.byteAt_writeByte_self (a : Word) (b : Byte) : (s.writeByte a b).byteAt a = b := by
  rw [← State.selectByte_wordAt]
  have : (s.writeByte a b).wordAt a = mergeByte a b (s.answerAt a) := by
    unfold State.writeByte; simp
  rw [this, mergeByte_select]

/-- A byte write leaves every byte of other words alone, whatever the port answers to its read (R55). -/
theorem State.byteAt_writeByte_otherWord {a x : Word} (b : Byte) (h : evenAddr x ≠ evenAddr a) :
    (s.writeByte a b).byteAt x = s.byteAt x := Memory.byte_setWord_other s.mem _ h

/-- A byte write leaves every other byte alone, the other half of its word too, where the port answers with its
RAM (R55, R61). -/
theorem State.byteAt_writeByte_other {a x : Word} (hr : s.readAnswers = []) (b : Byte) (h : x ≠ a) :
    (s.writeByte a b).byteAt x = s.byteAt x := by
  by_cases he : evenAddr x = evenAddr a
  · have hx : x = otherHalf a := by
      rw [evenAddr_eq_iff] at he
      apply BitVec.eq_of_toNat_eq
      rw [otherHalf_toNat]
      have : x.toNat ≠ a.toNat := fun e => h (BitVec.eq_of_toNat_eq e)
      split_ifs <;> omega
    subst hx
    rw [← State.selectByte_wordAt, ← State.selectByte_wordAt]
    have h1 : (s.writeByte a b).wordAt (otherHalf a) = mergeByte a b (s.wordAt a) := by
      unfold State.wordAt
      rw [State.writeByte_mem, Memory.wordAt_setWord, if_pos (by simp), State.answerAt_ram hr]
      rfl
    have h2 : s.wordAt (otherHalf a) = s.wordAt a := s.mem.wordAt_congr (by simp)
    rw [h1, h2, mergeByte_other]
  · exact Memory.byte_setWord_other s.mem _ he

/-! ## Deferred post-increments -/

/-- A memory after the increment of the register `operand` names: unchanged but for mode 3 (R119, R121). -/
def incremented (s : State) (operand : Operand) (size : Size) (m : Memory) : Memory :=
  match operand with
  | .inc r => m.setWord (s.regAddr r) (m.wordAt (s.regAddr r) + size.step)
  | .reg _ | .ind _ | .sym | .idx _ => m

/-- The pending slot an operand leaves: its own in mode 3, else what was there (R119). -/
def pendingOf (s : State) (operand : Operand) (size : Size) (before : Option Pending) : Option Pending :=
  match operand with
  | .inc r => some ⟨s.regAddr r, size⟩
  | .reg _ | .ind _ | .sym | .idx _ => before

/-- What a pending slot makes of a memory, where the port answers with its RAM. -/
def Memory.bump (m : Memory) : Option Pending → Memory
  | none => m
  | some p => m.setWord p.addr (m.wordAt p.addr + p.size.step)

@[simp] theorem bump_pendingOf (o : Operand) (size : Size) (m : Memory) :
    m.bump (pendingOf s o size none) = incremented s o size m := by cases o <;> rfl

/-- All that a post-increment does to memory: the word the port answers for the slot's register grows by the
size (R121). -/
theorem State.postInc_mem_answer (slot : Slot) :
    (s.postInc slot).mem =
      (s.pending slot).elim s.mem fun p => s.mem.setWord p.addr (s.answerAt p.addr + p.size.step) := by
  unfold State.postInc; split <;> rename_i h <;> rw [h]
  · rfl
  · cases slot <;> rfl

/-- The same where the port answers with its RAM. -/
theorem State.postInc_mem (hr : s.readAnswers = []) (slot : Slot) :
    (s.postInc slot).mem = s.mem.bump (s.pending slot) := by
  rw [State.postInc_mem_answer]
  cases s.pending slot
  · rfl
  · simp only [Option.elim, State.answerAt_ram hr]; rfl

@[simp] theorem State.postInc_src_mem (hr : s.readAnswers = []) :
    (s.postInc .src).mem = s.mem.bump s.pendingSrc := s.postInc_mem hr .src
@[simp] theorem State.postInc_dst_mem (hr : s.readAnswers = []) :
    (s.postInc .dst).mem = s.mem.bump s.pendingDst := s.postInc_mem hr .dst

/-- It takes one answer of the port, or none. -/
theorem State.postInc_answers (slot : Slot) : (s.postInc slot).readAnswers <:+ s.readAnswers := by
  unfold State.postInc; split
  · exact List.suffix_rfl
  · cases slot <;> exact List.tail_suffix _
@[simp] theorem State.postInc_readAnswers (hr : s.readAnswers = []) (slot : Slot) :
    (s.postInc slot).readAnswers = [] := List.suffix_nil.1 (hr ▸ s.postInc_answers slot)

/-- It empties its slot. -/
@[simp] theorem State.postInc_src_pendingSrc : (s.postInc .src).pendingSrc = none := by
  unfold State.postInc; split
  · assumption
  · rfl
@[simp] theorem State.postInc_src_pendingDst : (s.postInc .src).pendingDst = s.pendingDst := by
  unfold State.postInc; split <;> rfl
@[simp] theorem State.postInc_dst_pendingDst : (s.postInc .dst).pendingDst = none := by
  unfold State.postInc; split
  · assumption
  · rfl
@[simp] theorem State.postInc_dst_pendingSrc : (s.postInc .dst).pendingSrc = s.pendingSrc := by
  unfold State.postInc; split <;> rfl

/-- And it changes nothing else but the record of port calls. -/
@[simp] theorem State.postInc_rest (slot : Slot) : (s.postInc slot).rest = s.rest := by
  unfold State.postInc; split
  · rfl
  · cases slot <;> rfl
@[simp] theorem State.postInc_pc (slot : Slot) : (s.postInc slot).pc = s.pc := by
  unfold State.postInc; split
  · rfl
  · cases slot <;> rfl
@[simp] theorem State.postInc_st (slot : Slot) : (s.postInc slot).st = s.st := by
  unfold State.postInc; split
  · rfl
  · cases slot <;> rfl
@[simp] theorem State.postInc_cycles (slot : Slot) : (s.postInc slot).cycles = s.cycles := by
  unfold State.postInc; split
  · rfl
  · cases slot <;> rfl
@[simp] theorem State.postInc_wp (slot : Slot) : (s.postInc slot).wp = s.wp := congrArg Rest.wp (s.postInc_rest slot)
@[simp] theorem State.postInc_params (slot : Slot) : (s.postInc slot).params = s.params :=
  congrArg Rest.params (s.postInc_rest slot)
@[simp] theorem State.postInc_regAddr (slot : Slot) (n : Reg) : (s.postInc slot).regAddr n = s.regAddr n := by
  simp [State.regAddr]

theorem ExtendsCalls.refl : ExtendsCalls s s := List.suffix_rfl

theorem ExtendsCalls.trans {s t u : State} (h : ExtendsCalls s t) (g : ExtendsCalls t u) : ExtendsCalls s u :=
  List.IsSuffix.trans h g

/-- One more call on top. -/
theorem ExtendsCalls.cons {s t u : State} {c : PortCall} (h : ExtendsCalls s t) (g : u.calls = c :: t.calls) :
    ExtendsCalls s u := by
  unfold ExtendsCalls; rw [g]; exact List.IsSuffix.trans h (List.suffix_cons _ _)

/-- No more calls. -/
theorem ExtendsCalls.same {s t u : State} (h : ExtendsCalls s t) (g : u.calls = t.calls) : ExtendsCalls s u := by
  unfold ExtendsCalls; rw [g]; exact h

theorem State.postInc_calls (slot : Slot) : ExtendsCalls s (s.postInc slot) := by
  unfold State.postInc; split
  · exact .refl s
  · cases slot <;> exact ((ExtendsCalls.refl s).cons rfl).cons rfl

/-! ## The canonical form of memory -/

theorem Memory.wf_bump {m : Memory} (p : Option Pending) (h : m.wf = true) : (m.bump p).wf = true := by
  cases p
  · exact h
  · exact Memory.wf_setWord _ _ h

theorem Memory.wf_incremented {m : Memory} (o : Operand) (size : Size) (h : m.wf = true) :
    (incremented s o size m).wf = true := by
  cases o <;> first | exact h | exact Memory.wf_setWord _ _ h

/-! ## PC -/

/-- Every value PcRemap gives is even when its table is (R26). -/
theorem remapPc_even {p : Config.Params} (hp : p.wf = true) {t : Word} (ht : t &&& 1#16 = 0#16) :
    remapPc p t &&& 1#16 = 0#16 := by
  unfold remapPc
  split
  · rename_i e he
    simp only [Config.Params.wf, Bool.and_eq_true, List.all_eq_true] at hp
    simpa using hp.1.2 e (List.mem_of_find?_eq_some he)
  · exact ht

/-- Every write to PC leaves it even (R26). -/
theorem State.setPc_even (hp : s.params.wf = true) (t : Word) : (s.setPc t).pc &&& 1#16 = 0#16 :=
  remapPc_even hp (evenAddr_and_one t)

/-! ## Reads where the port answers with its RAM (20_memory.md R61) -/

/-- All a word read does: the word last written, and one more port call. -/
theorem State.readWord_ram (hr : s.readAnswers = []) (a : Word) :
    s.readWord a = (s.wordAt a, { s with calls := .readWord (evenAddr a) (s.wordAt a) :: s.calls }) := by
  simp [State.readWord, State.answerAt, hr]

/-- All a register read does. -/
theorem State.readReg_ram (hr : s.readAnswers = []) (n : Reg) :
    s.readReg n = (s.regAt n, { s with calls := .readWord (evenAddr (s.regAddr n)) (s.regAt n) :: s.calls }) :=
  s.readWord_ram hr _

/-! ## Inputs -/

/-- A CRU read answers a bit and changes only the inputs and the record of port calls. -/
theorem State.readBit_frame (a : CruAddr) :
    (s.readBit a).2.wp = s.wp ∧ (s.readBit a).2.pc = s.pc ∧ (s.readBit a).2.st = s.st ∧
    (s.readBit a).2.cycles = s.cycles ∧ (s.readBit a).2.mem = s.mem ∧
    (s.readBit a).2.pendingSrc = s.pendingSrc ∧ (s.readBit a).2.pendingDst = s.pendingDst ∧
    (s.readBit a).2.xDepth = s.xDepth ∧ (s.readBit a).2.params = s.params ∧
    (s.readBit a).2.calls = .readBit a (s.readBit a).1 :: s.calls ∧
    (s.readBit a).2.intSamples = s.intSamples ∧ (s.readBit a).2.readAnswers = s.readAnswers ∧
    (s.readBit a).2.suspendChanges = s.suspendChanges := by
  unfold State.readBit; split <;> exact ⟨rfl, rfl, rfl, rfl, rfl, rfl, rfl, rfl, rfl, rfl, rfl, rfl, rfl⟩

/-- The end of a step changes only the suspend flag and its inputs. -/
theorem State.noteSuspend_frame :
    s.noteSuspend = { s with suspended := s.noteSuspend.suspended, suspendChanges := s.suspendChanges.tail } := rfl

/-- A step is left with a next state only from one. -/
theorem leaveStep_eq_next {o : StepOutcome} {t : State} : leaveStep o = .next t ↔ ∃ u, o = .next u ∧ t = u.noteSuspend := by
  cases o <;> simp [leaveStep, eq_comm]

/-- With nothing waiting, the end of a step leaves the suspend flag as it is. -/
@[simp] theorem State.noteSuspend_suspended (h : s.suspendChanges = []) : s.noteSuspend.suspended = s.suspended := by
  simp [State.noteSuspend, h]

/-- A sample of the interrupt line changes only the inputs. -/
theorem State.sampleInt_frame :
    s.sampleInt.2 = { s with intSamples := s.sampleInt.2.intSamples, freeIndex := s.sampleInt.2.freeIndex } := by
  unfold State.sampleInt; split <;> rfl

/-! ## The context switch and the exceptional paths -/

/-- All a context switch does to memory: the operand address into new R11 for XOP, then the old WP, PC and ST
into new R13, R14 and R15, the new WP being what the port answers (48_context_control.md R270). -/
theorem State.contextSwitch_mem_answer (va : Word) (x : Option Word) :
    (s.contextSwitch va x).mem =
      ((((x.elim s.mem fun ea => s.mem.setWord (s.answerAt va + 22#16) ea).setWord (s.answerAt va + 26#16) s.wp).setWord
        (s.answerAt va + 28#16) s.pc).setWord (s.answerAt va + 30#16) s.st) := by
  cases x <;> simp [State.contextSwitch, State.passOperand]

/-- The same where the port answers with its RAM. -/
theorem State.contextSwitch_mem (hr : s.readAnswers = []) (va : Word) (x : Option Word) :
    (s.contextSwitch va x).mem =
      ((((x.elim s.mem fun ea => s.mem.setWord (s.wordAt va + 22#16) ea).setWord (s.wordAt va + 26#16) s.wp).setWord
        (s.wordAt va + 28#16) s.pc).setWord (s.wordAt va + 30#16) s.st) := by
  rw [State.contextSwitch_mem_answer, State.answerAt_ram hr]

/-- It takes two answers of the port. -/
@[simp] theorem State.contextSwitch_readAnswers (va : Word) (x : Option Word) :
    (s.contextSwitch va x).readAnswers = s.readAnswers.tail.tail := by
  cases x <;> simp [State.contextSwitch, State.passOperand]

/-- The new PC is read from the vector after those four writes (R270). -/
theorem State.contextSwitch_pc (hr : s.readAnswers = []) (va : Word) (x : Option Word) :
    (s.contextSwitch va x).pc = remapPc s.params (evenAddr ((s.contextSwitch va x).wordAt (va + 2#16))) := by
  cases x <;> simp [State.contextSwitch, State.passOperand, State.wordAt, State.answerAt, hr]

/-- PC is even after a context switch, whatever the port answers (R26). -/
theorem State.contextSwitch_pc_even (hp : s.params.wf = true) (va : Word) (x : Option Word) :
    (s.contextSwitch va x).pc &&& 1#16 = 0#16 := by
  cases x <;> exact remapPc_even (p := s.params) hp (evenAddr_and_one _)

@[simp] theorem State.contextSwitch_rest (va : Word) (x : Option Word) :
    (s.contextSwitch va x).rest = { s.rest with wp := s.answerAt va } := by
  cases x <;> simp [State.contextSwitch, State.passOperand, State.rest]
@[simp] theorem State.contextSwitch_wp (va : Word) (x : Option Word) : (s.contextSwitch va x).wp = s.answerAt va :=
  congrArg Rest.wp (s.contextSwitch_rest va x)
@[simp] theorem State.contextSwitch_params (va : Word) (x : Option Word) :
    (s.contextSwitch va x).params = s.params := congrArg Rest.params (s.contextSwitch_rest va x)
@[simp] theorem State.contextSwitch_xDepth (va : Word) (x : Option Word) :
    (s.contextSwitch va x).xDepth = s.xDepth := congrArg Rest.xDepth (s.contextSwitch_rest va x)
@[simp] theorem State.contextSwitch_st (va : Word) (x : Option Word) : (s.contextSwitch va x).st = s.st := by
  cases x <;> simp [State.contextSwitch, State.passOperand]
@[simp] theorem State.contextSwitch_cycles (va : Word) (x : Option Word) :
    (s.contextSwitch va x).cycles = s.cycles := by cases x <;> simp [State.contextSwitch, State.passOperand]
@[simp] theorem State.contextSwitch_pendingSrc (va : Word) (x : Option Word) :
    (s.contextSwitch va x).pendingSrc = s.pendingSrc := by cases x <;> simp [State.contextSwitch, State.passOperand]
@[simp] theorem State.contextSwitch_pendingDst (va : Word) (x : Option Word) :
    (s.contextSwitch va x).pendingDst = s.pendingDst := by cases x <;> simp [State.contextSwitch, State.passOperand]
theorem State.contextSwitch_calls (va : Word) (x : Option Word) : ExtendsCalls s (s.contextSwitch va x) := by
  unfold State.contextSwitch
  refine ExtendsCalls.same (t := (State.readWord _ _).2) ?_ rfl
  refine (ExtendsCalls.cons (ExtendsCalls.cons (ExtendsCalls.cons ?_ rfl) rfl) rfl).cons rfl
  cases x
  · exact (ExtendsCalls.refl s).cons rfl
  · exact ((ExtendsCalls.refl s).cons rfl).cons rfl

/-- All a context return does where the port answers with its RAM: ST, PC and WP from R15, R14 and R13, three
reads, no write (R276). -/
theorem State.contextReturn_spec (hr : s.readAnswers = []) :
    s.contextReturn = { s with
      wp := s.regAt 13#4, pc := remapPc s.params (evenAddr (s.regAt 14#4)), st := s.regAt 15#4
      calls := .readWord (evenAddr (s.regAddr 13#4)) (s.regAt 13#4) ::
        .readWord (evenAddr (s.regAddr 14#4)) (s.regAt 14#4) ::
        .readWord (evenAddr (s.regAddr 15#4)) (s.regAt 15#4) :: s.calls } := by
  simp [State.contextReturn, State.readReg, State.readWord, State.answerAt, State.setPc, State.regAddr, State.regAt,
    State.wordAt, hr]

/-- The interrupt dispatch keeps the memory's canonical form and PC even, and leaves nothing pending that was
not. -/
theorem State.interruptDispatch_fields :
    s.interruptDispatch.mem = (s.contextSwitch 0x0004#16 none).mem ∧
    s.interruptDispatch.pc = (s.contextSwitch 0x0004#16 none).pc ∧
    s.interruptDispatch.wp = s.answerAt 0x0004#16 ∧ s.interruptDispatch.st = s.st &&& ~~~maskInt ∧
    s.interruptDispatch.idle = false ∧ s.interruptDispatch.cycles = s.cycles + s.params.intCycles ∧
    s.interruptDispatch.pendingSrc = s.pendingSrc ∧ s.interruptDispatch.pendingDst = s.pendingDst ∧
    s.interruptDispatch.xDepth = s.xDepth ∧ s.interruptDispatch.params = s.params := by
  simp [State.interruptDispatch]

/-- Decoding changes the state only by the fetch of an immediate (40_flags_addressing_step.md R125). -/
theorem State.decodeFetched_cases {w : Word} {i : Instr} {t : State} (h : s.decodeFetched w = some (i, t)) :
    ∃ r, findRow s.params.unusedBitsAlias w = some r ∧
      ((r.hasImm = true ∧ i = r.build w (s.answerAt s.pc) ∧ t = s.fetchWord.2) ∨
        (r.hasImm = false ∧ i = r.build w 0#16 ∧ t = s)) := by
  unfold State.decodeFetched at h
  split at h
  · cases h
  · rename_i r hr
    refine ⟨r, hr, ?_⟩
    cases hi : r.hasImm <;> simp [hi] at h <;> simp [h]

end Sys2Proof.Machine
end

