-- ==== Sys2Proof/Laws/Operands.lean ====
section
/-! SUPPORT. What the resolver and the shared operand sequences of Machine/Operands.lean can do, said once. -/

namespace Sys2Proof.Machine

variable (s : State)

/-! ## The resolver -/

/-- It takes the port's answers in order. -/
theorem resolve_answers (slot : Slot) (o : Operand) (size : Size) :
    (resolve slot o size s).2.readAnswers <:+ s.readAnswers := by
  cases o <;> cases slot <;>
    first
    | exact List.suffix_rfl
    | exact List.tail_suffix _
    | exact (List.tail_suffix _).trans (List.tail_suffix _)
@[simp] theorem resolve_readAnswers (hr : s.readAnswers = []) (slot : Slot) (o : Operand) (size : Size) :
    (resolve slot o size s).2.readAnswers = [] := List.suffix_nil.1 (hr ▸ resolve_answers s slot o size)

/-- The resolver gives the address of R115's table, where the port answers with its RAM. -/
theorem resolve_addr (hr : s.readAnswers = []) (slot : Slot) (o : Operand) (size : Size) :
    (resolve slot o size s).1 = effectiveAddr s o := by
  cases o <;> simp [resolve, resolveAddr, effectiveAddr, hr, State.regAt, State.answerAt, State.wordAt, State.regAddr]

/-- It moves PC past an address word and nowhere else. -/
theorem resolve_pc (slot : Slot) (o : Operand) (size : Size) : (resolve slot o size s).2.pc = pcAfterOperand s o := by
  cases o <;> cases slot <;> rfl

@[simp] theorem resolve_mem (slot : Slot) (o : Operand) (size : Size) : (resolve slot o size s).2.mem = s.mem := by
  cases o <;> cases slot <;> rfl
@[simp] theorem resolve_st (slot : Slot) (o : Operand) (size : Size) : (resolve slot o size s).2.st = s.st := by
  cases o <;> cases slot <;> rfl
@[simp] theorem resolve_rest (slot : Slot) (o : Operand) (size : Size) : (resolve slot o size s).2.rest = s.rest := by
  cases o <;> cases slot <;> rfl
@[simp] theorem resolve_wp (slot : Slot) (o : Operand) (size : Size) : (resolve slot o size s).2.wp = s.wp :=
  congrArg Rest.wp (resolve_rest s slot o size)
@[simp] theorem resolve_params (slot : Slot) (o : Operand) (size : Size) :
    (resolve slot o size s).2.params = s.params := congrArg Rest.params (resolve_rest s slot o size)
@[simp] theorem resolve_regAddr (slot : Slot) (o : Operand) (size : Size) (n : Reg) :
    (resolve slot o size s).2.regAddr n = s.regAddr n := by simp [State.regAddr]
@[simp] theorem resolve_wordAt (slot : Slot) (o : Operand) (size : Size) (a : Word) :
    (resolve slot o size s).2.wordAt a = s.wordAt a := by simp [State.wordAt]
@[simp] theorem resolve_cycles (slot : Slot) (o : Operand) (size : Size) :
    (resolve slot o size s).2.cycles = s.cycles + overhead size o := by cases o <;> cases slot <;> rfl
@[simp] theorem resolve_src_pendingSrc (o : Operand) (size : Size) :
    (resolve .src o size s).2.pendingSrc = pendingOf s o size s.pendingSrc := by cases o <;> rfl
@[simp] theorem resolve_src_pendingDst (o : Operand) (size : Size) :
    (resolve .src o size s).2.pendingDst = s.pendingDst := by cases o <;> rfl
@[simp] theorem resolve_dst_pendingDst (o : Operand) (size : Size) :
    (resolve .dst o size s).2.pendingDst = pendingOf s o size s.pendingDst := by cases o <;> rfl
@[simp] theorem resolve_dst_pendingSrc (o : Operand) (size : Size) :
    (resolve .dst o size s).2.pendingSrc = s.pendingSrc := by cases o <;> rfl
theorem resolve_calls (slot : Slot) (o : Operand) (size : Size) : ExtendsCalls s (resolve slot o size s).2 := by
  cases o <;> cases slot <;>
    first
    | exact .refl s
    | exact (ExtendsCalls.refl s).cons rfl
    | exact ((ExtendsCalls.refl s).cons rfl).cons rfl

/-- The increment of an operand depends on WP only. -/
theorem incremented_congr {s t : State} (h : t.wp = s.wp) (o : Operand) (size : Size) (m : Memory) :
    incremented t o size m = incremented s o size m := by
  cases o <;> simp [incremented, State.regAddr, h]

@[simp] theorem pendingOf_none_bump (o : Operand) (size : Size) (m : Memory) :
    m.bump (pendingOf s o size none) = incremented s o size m := bump_pendingOf s o size m

/-! ## The source operand, read and incremented (R123) -/

@[simp] theorem readSource_value (hr : s.readAnswers = []) (o : Operand) :
    (readSource o s).1 = s.wordAt (effectiveAddr s o) := by
  simp [readSource, resolve_addr, hr]
theorem readSource_answers (o : Operand) : (readSource o s).2.readAnswers <:+ s.readAnswers :=
  (State.postInc_answers _ _).trans ((List.tail_suffix _).trans (resolve_answers _ _ _ _))
@[simp] theorem readSource_readAnswers (hr : s.readAnswers = []) (o : Operand) :
    (readSource o s).2.readAnswers = [] := List.suffix_nil.1 (hr ▸ readSource_answers s o)
@[simp] theorem readSource_rest (o : Operand) : (readSource o s).2.rest = s.rest := by simp [readSource]
@[simp] theorem readSource_wp (o : Operand) : (readSource o s).2.wp = s.wp := congrArg Rest.wp (readSource_rest s o)
@[simp] theorem readSource_params (o : Operand) : (readSource o s).2.params = s.params :=
  congrArg Rest.params (readSource_rest s o)
@[simp] theorem readSource_regAddr (o : Operand) (n : Reg) : (readSource o s).2.regAddr n = s.regAddr n := by
  simp [State.regAddr]
@[simp] theorem readSource_st (o : Operand) : (readSource o s).2.st = s.st := by simp [readSource]
@[simp] theorem readSource_cycles (o : Operand) : (readSource o s).2.cycles = s.cycles + overhead .word o := by
  simp [readSource]
@[simp] theorem readSource_pendingSrc (o : Operand) : (readSource o s).2.pendingSrc = none := by simp [readSource]
@[simp] theorem readSource_pendingDst (o : Operand) : (readSource o s).2.pendingDst = s.pendingDst := by
  simp [readSource]
theorem readSource_pc (o : Operand) : (readSource o s).2.pc = pcAfterOperand s o := by
  simp [readSource, resolve_pc]
theorem readSource_mem (hr : s.readAnswers = []) (o : Operand) (h : s.pendingSrc = none) :
    (readSource o s).2.mem = incremented s o .word s.mem := by
  simp [readSource, h, hr]
theorem readSource_calls (o : Operand) : ExtendsCalls s (readSource o s).2 :=
  ((resolve_calls s .src o .word).cons rfl).trans (State.postInc_calls _ _)

@[simp] theorem readSourceByte_value (hr : s.readAnswers = []) (o : Operand) :
    (readSourceByte o s).1 = s.byteAt (effectiveAddr s o) := by
  simp [readSourceByte, resolve_addr, State.selectByte_wordAt, hr]
theorem readSourceByte_answers (o : Operand) : (readSourceByte o s).2.readAnswers <:+ s.readAnswers :=
  (State.postInc_answers _ _).trans ((List.tail_suffix _).trans (resolve_answers _ _ _ _))
@[simp] theorem readSourceByte_readAnswers (hr : s.readAnswers = []) (o : Operand) :
    (readSourceByte o s).2.readAnswers = [] := List.suffix_nil.1 (hr ▸ readSourceByte_answers s o)
@[simp] theorem readSourceByte_rest (o : Operand) : (readSourceByte o s).2.rest = s.rest := by simp [readSourceByte]
@[simp] theorem readSourceByte_wp (o : Operand) : (readSourceByte o s).2.wp = s.wp :=
  congrArg Rest.wp (readSourceByte_rest s o)
@[simp] theorem readSourceByte_params (o : Operand) : (readSourceByte o s).2.params = s.params :=
  congrArg Rest.params (readSourceByte_rest s o)
@[simp] theorem readSourceByte_regAddr (o : Operand) (n : Reg) : (readSourceByte o s).2.regAddr n = s.regAddr n := by
  simp [State.regAddr]
@[simp] theorem readSourceByte_st (o : Operand) : (readSourceByte o s).2.st = s.st := by simp [readSourceByte]
@[simp] theorem readSourceByte_cycles (o : Operand) :
    (readSourceByte o s).2.cycles = s.cycles + overhead .byte o := by simp [readSourceByte]
@[simp] theorem readSourceByte_pendingSrc (o : Operand) : (readSourceByte o s).2.pendingSrc = none := by
  simp [readSourceByte]
@[simp] theorem readSourceByte_pendingDst (o : Operand) : (readSourceByte o s).2.pendingDst = s.pendingDst := by
  simp [readSourceByte]
theorem readSourceByte_pc (o : Operand) : (readSourceByte o s).2.pc = pcAfterOperand s o := by
  simp [readSourceByte, resolve_pc]
theorem readSourceByte_mem (hr : s.readAnswers = []) (o : Operand) (h : s.pendingSrc = none) :
    (readSourceByte o s).2.mem = incremented s o .byte s.mem := by
  simp [readSourceByte, h, hr]
theorem readSourceByte_calls (o : Operand) : ExtendsCalls s (readSourceByte o s).2 :=
  ((resolve_calls s .src o .byte).cons rfl).trans (State.postInc_calls _ _)

@[simp] theorem branchTarget_value (hr : s.readAnswers = []) (o : Operand) :
    (branchTarget o s).1 = effectiveAddr s o := by
  simp [branchTarget, resolve_addr, hr]
theorem branchTarget_answers (o : Operand) : (branchTarget o s).2.readAnswers <:+ s.readAnswers :=
  (State.postInc_answers _ _).trans (resolve_answers _ _ _ _)
@[simp] theorem branchTarget_readAnswers (hr : s.readAnswers = []) (o : Operand) :
    (branchTarget o s).2.readAnswers = [] := List.suffix_nil.1 (hr ▸ branchTarget_answers s o)
@[simp] theorem branchTarget_rest (o : Operand) : (branchTarget o s).2.rest = s.rest := by simp [branchTarget]
@[simp] theorem branchTarget_wp (o : Operand) : (branchTarget o s).2.wp = s.wp :=
  congrArg Rest.wp (branchTarget_rest s o)
@[simp] theorem branchTarget_params (o : Operand) : (branchTarget o s).2.params = s.params :=
  congrArg Rest.params (branchTarget_rest s o)
@[simp] theorem branchTarget_regAddr (o : Operand) (n : Reg) : (branchTarget o s).2.regAddr n = s.regAddr n := by
  simp [State.regAddr]
@[simp] theorem branchTarget_st (o : Operand) : (branchTarget o s).2.st = s.st := by simp [branchTarget]
@[simp] theorem branchTarget_cycles (o : Operand) : (branchTarget o s).2.cycles = s.cycles + overhead .word o := by
  simp [branchTarget]
@[simp] theorem branchTarget_pendingSrc (o : Operand) : (branchTarget o s).2.pendingSrc = none := by
  simp [branchTarget]
@[simp] theorem branchTarget_pendingDst (o : Operand) : (branchTarget o s).2.pendingDst = s.pendingDst := by
  simp [branchTarget]
theorem branchTarget_pc (o : Operand) : (branchTarget o s).2.pc = pcAfterOperand s o := by
  simp [branchTarget, resolve_pc]
theorem branchTarget_mem (hr : s.readAnswers = []) (o : Operand) (h : s.pendingSrc = none) :
    (branchTarget o s).2.mem = incremented s o .word s.mem := by
  simp [branchTarget, h, hr]
theorem branchTarget_calls (o : Operand) : ExtendsCalls s (branchTarget o s).2 :=
  (resolve_calls s .src o .word).trans (State.postInc_calls _ _)

/-! ## Stores that may be absent -/

/-- A memory with a word stored in it, when there is one to store. -/
def stored (a : Word) (m : Memory) : Option Word → Memory
  | none => m
  | some v => m.setWord a v

/-- A memory with a byte stored in it, when there is one to store. -/
def storedByte (a : Word) (m : Memory) : Option Byte → Memory
  | none => m
  | some b => m.setWord a (mergeByte a b (m.wordAt a))

@[simp] theorem State.storeWord_mem (a : Word) (v : Option Word) : (s.storeWord a v).mem = stored a s.mem v := by
  cases v <;> rfl
@[simp] theorem State.storeWord_rest (a : Word) (v : Option Word) : (s.storeWord a v).rest = s.rest := by
  cases v <;> rfl
@[simp] theorem State.storeWord_wp (a : Word) (v : Option Word) : (s.storeWord a v).wp = s.wp := by cases v <;> rfl
@[simp] theorem State.storeWord_pc (a : Word) (v : Option Word) : (s.storeWord a v).pc = s.pc := by cases v <;> rfl
@[simp] theorem State.storeWord_st (a : Word) (v : Option Word) : (s.storeWord a v).st = s.st := by cases v <;> rfl
@[simp] theorem State.storeWord_cycles (a : Word) (v : Option Word) : (s.storeWord a v).cycles = s.cycles := by
  cases v <;> rfl
@[simp] theorem State.storeWord_pendingSrc (a : Word) (v : Option Word) :
    (s.storeWord a v).pendingSrc = s.pendingSrc := by cases v <;> rfl
@[simp] theorem State.storeWord_pendingDst (a : Word) (v : Option Word) :
    (s.storeWord a v).pendingDst = s.pendingDst := by cases v <;> rfl
@[simp] theorem State.storeWord_readAnswers (a : Word) (v : Option Word) :
    (s.storeWord a v).readAnswers = s.readAnswers := by cases v <;> rfl
theorem State.storeWord_calls (a : Word) (v : Option Word) : ExtendsCalls s (s.storeWord a v) := by
  cases v
  · exact .refl s
  · exact (ExtendsCalls.refl s).cons rfl

@[simp] theorem State.storeByte_mem (hr : s.readAnswers = []) (a : Word) (v : Option Byte) :
    (s.storeByte a v).mem = storedByte a s.mem v := by
  cases v
  · rfl
  · simp only [State.storeByte, State.writeByte_mem, State.answerAt_ram hr]; rfl
@[simp] theorem State.storeByte_rest (a : Word) (v : Option Byte) : (s.storeByte a v).rest = s.rest := by
  cases v <;> rfl
@[simp] theorem State.storeByte_wp (a : Word) (v : Option Byte) : (s.storeByte a v).wp = s.wp := by cases v <;> rfl
@[simp] theorem State.storeByte_pc (a : Word) (v : Option Byte) : (s.storeByte a v).pc = s.pc := by cases v <;> rfl
@[simp] theorem State.storeByte_st (a : Word) (v : Option Byte) : (s.storeByte a v).st = s.st := by cases v <;> rfl
@[simp] theorem State.storeByte_cycles (a : Word) (v : Option Byte) : (s.storeByte a v).cycles = s.cycles := by
  cases v <;> rfl
@[simp] theorem State.storeByte_pendingSrc (a : Word) (v : Option Byte) :
    (s.storeByte a v).pendingSrc = s.pendingSrc := by cases v <;> rfl
@[simp] theorem State.storeByte_pendingDst (a : Word) (v : Option Byte) :
    (s.storeByte a v).pendingDst = s.pendingDst := by cases v <;> rfl
theorem State.storeByte_answers (a : Word) (v : Option Byte) : (s.storeByte a v).readAnswers <:+ s.readAnswers := by
  cases v
  · exact List.suffix_rfl
  · exact List.tail_suffix _
@[simp] theorem State.storeByte_readAnswers (hr : s.readAnswers = []) (a : Word) (v : Option Byte) :
    (s.storeByte a v).readAnswers = [] := List.suffix_nil.1 (hr ▸ s.storeByte_answers a v)
theorem State.storeByte_calls (a : Word) (v : Option Byte) : ExtendsCalls s (s.storeByte a v) := by
  cases v
  · exact .refl s
  · exact ((ExtendsCalls.refl s).cons rfl).cons rfl

theorem Memory.wf_stored {m : Memory} (a : Word) (v : Option Word) (h : m.wf = true) : (stored a m v).wf = true := by
  cases v
  · exact h
  · exact Memory.wf_setWord _ _ h

theorem Memory.wf_storedByte {m : Memory} (a : Word) (v : Option Byte) (h : m.wf = true) :
    (storedByte a m v).wf = true := by
  cases v
  · exact h
  · exact Memory.wf_setWord _ _ h

/-! ## The sequences of the families

Each lemma says every field of the state a sequence answers, from a state with nothing pending whose port
answers with its RAM. -/

/-- What a sequence answers: memory, PC, ST and cycles as given, nothing pending, the rest kept. -/
structure Answer (s t : State) (m : Memory) (pc st : Word) (cycles : Nat) : Prop where
  mem : t.mem = m
  pc : t.pc = pc
  st : t.st = st
  cycles : t.cycles = s.cycles + cycles
  keeps : KeepsRest s t
  calls : ExtendsCalls s t

variable {s}

theorem wordDual_answer (h : s.Ready) (op : Word → Word → Effect 16) (gs gd : Operand) :
    Answer s (wordDual op gs gd s)
      (let sv := readSource gs s
       let ea := (resolve .dst gd .word sv.2).1
       incremented s gd .word (stored ea sv.2.mem (op sv.1 (sv.2.wordAt ea)).write))
      (pcAfterOperand (readSource gs s).2 gd)
      (let sv := readSource gs s
       let e := op sv.1 (sv.2.wordAt (resolve .dst gd .word sv.2).1)
       (s.st &&& ~~~e.clear) ||| e.bits)
      (let sv := readSource gs s
       overhead .word gs + overhead .word gd + (op sv.1 (sv.2.wordAt (resolve .dst gd .word sv.2).1)).cycles) := by
  have hr := readSource_readAnswers s h.2 gs
  have hd := resolve_readAnswers _ hr .dst gd .word
  have hp : s.pendingDst = none := h.1.2
  constructor
  · simp [wordDual, hr, hp, incremented_congr (readSource_wp s gs)]
  · simp [wordDual, resolve_pc]
  · simp [wordDual, hr]
  · simp [wordDual, hr, Nat.add_assoc]
  · simp [wordDual, KeepsRest, State.Ready, State.NoPending, State.RamPort, hr]
  · exact ((((readSource_calls s gs).trans (resolve_calls _ _ _ _)).cons rfl).trans
      ((State.storeWord_calls _ _ _).trans (State.postInc_calls _ _))).same rfl

theorem byteDual_answer (h : s.Ready) (op : Byte → Byte → Effect 8) (gs gd : Operand) :
    Answer s (byteDual op gs gd s)
      (let sv := readSourceByte gs s
       let ea := (resolve .dst gd .byte sv.2).1
       incremented s gd .byte (storedByte ea sv.2.mem (op sv.1 (sv.2.byteAt ea)).write))
      (pcAfterOperand (readSourceByte gs s).2 gd)
      (let sv := readSourceByte gs s
       let e := op sv.1 (sv.2.byteAt (resolve .dst gd .byte sv.2).1)
       (s.st &&& ~~~e.clear) ||| e.bits)
      (let sv := readSourceByte gs s
       overhead .byte gs + overhead .byte gd + (op sv.1 (sv.2.byteAt (resolve .dst gd .byte sv.2).1)).cycles) := by
  have hr := readSourceByte_readAnswers s h.2 gs
  have hd := resolve_readAnswers _ hr .dst gd .byte
  have hp : s.pendingDst = none := h.1.2
  constructor
  · simp [byteDual, hr, hd, hp, incremented_congr (readSourceByte_wp s gs), State.selectByte_wordAt]
  · simp [byteDual, resolve_pc]
  · simp [byteDual, hr, State.selectByte_wordAt]
  · simp [byteDual, hr, Nat.add_assoc, State.selectByte_wordAt]
  · simp [byteDual, KeepsRest, State.Ready, State.NoPending, State.RamPort, hr, hd]
  · exact ((((readSourceByte_calls s gs).trans (resolve_calls _ _ _ _)).cons rfl).trans
      ((State.storeByte_calls _ _ _).trans (State.postInc_calls _ _))).same rfl

theorem wordMove_answer (h : s.Ready) (op : Word → Effect 16) (gs gd : Operand) :
    Answer s (wordMove op gs gd s)
      (let sv := readSource gs s
       incremented s gd .word (stored (resolve .dst gd .word sv.2).1 sv.2.mem (op sv.1).write))
      (pcAfterOperand (readSource gs s).2 gd)
      ((s.st &&& ~~~(op (readSource gs s).1).clear) ||| (op (readSource gs s).1).bits)
      (overhead .word gs + overhead .word gd + (op (readSource gs s).1).cycles) := by
  have hr := readSource_readAnswers s h.2 gs
  have hd := resolve_readAnswers _ hr .dst gd .word
  have hp : s.pendingDst = none := h.1.2
  constructor
  · simp [wordMove, hr, hp, incremented_congr (readSource_wp s gs)]
  · simp [wordMove, resolve_pc]
  · simp [wordMove]
  · simp [wordMove, Nat.add_assoc]
  · simp [wordMove, KeepsRest, State.Ready, State.NoPending, State.RamPort, hr]
  · exact (((readSource_calls s gs).trans (resolve_calls _ _ _ _)).trans
      ((State.storeWord_calls _ _ _).trans (State.postInc_calls _ _))).same rfl

theorem byteMove_answer (h : s.Ready) (op : Byte → Effect 8) (gs gd : Operand) :
    Answer s (byteMove op gs gd s)
      (let sv := readSourceByte gs s
       incremented s gd .byte (storedByte (resolve .dst gd .byte sv.2).1 sv.2.mem (op sv.1).write))
      (pcAfterOperand (readSourceByte gs s).2 gd)
      ((s.st &&& ~~~(op (readSourceByte gs s).1).clear) ||| (op (readSourceByte gs s).1).bits)
      (overhead .byte gs + overhead .byte gd + (op (readSourceByte gs s).1).cycles) := by
  have hr := readSourceByte_readAnswers s h.2 gs
  have hd := resolve_readAnswers _ hr .dst gd .byte
  have hp : s.pendingDst = none := h.1.2
  constructor
  · simp [byteMove, hr, hd, hp, incremented_congr (readSourceByte_wp s gs)]
  · simp [byteMove, resolve_pc]
  · simp [byteMove]
  · simp [byteMove, Nat.add_assoc]
  · simp [byteMove, KeepsRest, State.Ready, State.NoPending, State.RamPort, hd]
  · exact (((readSourceByte_calls s gs).trans (resolve_calls _ _ _ _)).trans
      ((State.storeByte_calls _ _ _).trans (State.postInc_calls _ _))).same rfl

theorem regDual_answer (h : s.Ready) (op : Word → Word → Effect 16) (gs : Operand) (d : Reg) :
    Answer s (regDual op gs d s)
      (let sv := readSource gs s
       stored (s.regAddr d) sv.2.mem (op sv.1 (sv.2.regAt d)).write)
      (pcAfterOperand s gs)
      (let e := op (readSource gs s).1 ((readSource gs s).2.regAt d)
       (s.st &&& ~~~e.clear) ||| e.bits)
      (overhead .word gs + (op (readSource gs s).1 ((readSource gs s).2.regAt d)).cycles) := by
  have hr := readSource_readAnswers s h.2 gs
  have hp : s.pendingSrc = none ∧ s.pendingDst = none := h.1
  have hv : (readSource gs s).2.wordAt (s.regAddr d) = (readSource gs s).2.regAt d := by simp [State.regAt]
  constructor
  · simp [regDual, hr, hv]
  · simp [regDual, readSource_pc]
  · simp [regDual, hr, hv]
  · simp [regDual, hr, hv, Nat.add_assoc]
  · simp [regDual, hv, KeepsRest, State.Ready, State.NoPending, State.RamPort, hr, hp]
  · exact (((readSource_calls s gs).cons rfl).trans (State.storeWord_calls _ _ _)).same rfl

theorem wordUnary_answer (h : s.Ready) (op : Word → Effect 16) (gs : Operand) :
    Answer s (wordUnary op gs s)
      (let ea := (resolve .src gs .word s).1
       incremented s gs .word (stored ea s.mem (op (s.wordAt ea)).write))
      (pcAfterOperand s gs)
      (let e := op (s.wordAt (resolve .src gs .word s).1)
       (s.st &&& ~~~e.clear) ||| e.bits)
      (overhead .word gs + (op (s.wordAt (resolve .src gs .word s).1)).cycles) := by
  have hd := resolve_readAnswers s h.2 .src gs .word
  have hp : s.pendingSrc = none ∧ s.pendingDst = none := h.1
  constructor
  · simp [wordUnary, hd, hp]
  · simp [wordUnary, resolve_pc]
  · simp [wordUnary, hd]
  · simp [wordUnary, hd, Nat.add_assoc]
  · simp [wordUnary, KeepsRest, State.Ready, State.NoPending, State.RamPort, hd, hp]
  · exact (((resolve_calls s _ gs _).cons rfl).trans
      ((State.storeWord_calls _ _ _).trans (State.postInc_calls _ _))).same rfl

theorem wordFill_answer (h : s.Ready) (v : Word) (gs : Operand) :
    Answer s (wordFill v gs s) (incremented s gs .word (s.mem.setWord (resolve .src gs .word s).1 v))
      (pcAfterOperand s gs) s.st (overhead .word gs + 10) := by
  have hd := resolve_readAnswers s h.2 .src gs .word
  have hp : s.pendingSrc = none ∧ s.pendingDst = none := h.1
  constructor
  · simp [wordFill, hd, hp]
  · simp [wordFill, resolve_pc]
  · simp [wordFill]
  · simp [wordFill, Nat.add_assoc]
  · simp [wordFill, KeepsRest, State.Ready, State.NoPending, State.RamPort, hd, hp]
  · exact (((resolve_calls s _ gs _).cons rfl).trans (State.postInc_calls _ _)).same rfl

theorem regUnary_answer (h : s.Ready) (op : Word → Effect 16) (w : Reg) :
    Answer s (regUnary op w s) (stored (s.regAddr w) s.mem (op (s.regAt w)).write) s.pc
      ((s.st &&& ~~~(op (s.regAt w)).clear) ||| (op (s.regAt w)).bits) (op (s.regAt w)).cycles := by
  have hr : s.readAnswers = [] := h.2
  have hp : s.pendingSrc = none ∧ s.pendingDst = none := h.1
  have hv : s.wordAt (s.regAddr w) = s.regAt w := rfl
  constructor
  · simp [regUnary, hr, hv]
  · simp [regUnary, hr, hv]
  · simp [regUnary, hr, hv]
  · simp [regUnary, hr, hv]
  · simp [regUnary, hv, KeepsRest, State.Ready, State.NoPending, State.RamPort, hr, hp]
  · exact (((ExtendsCalls.refl s).cons rfl).trans (State.storeWord_calls _ _ _)).same rfl

/-! ## Memory after a sequence, in the terms of the statements -/

theorem incWords_mem_iff (o : Operand) (p : Word) : p ∈ incWords s o ↔ ∃ r, o = .inc r ∧ p = s.regAddr r := by
  cases o <;> simp [incWords]

/-- An increment leaves the other words alone. -/
theorem byte_incremented_other (o : Operand) (size : Size) (m : Memory) {a : Word}
    (h : ∀ p ∈ incWords s o, evenAddr a ≠ evenAddr p) : (incremented s o size m).byte a.toNat = m.byte a.toNat := by
  cases o <;> first | rfl | exact Memory.byte_setWord_other _ _ (h _ (by simp [incWords]))

theorem wordAt_incremented_other (o : Operand) (size : Size) (m : Memory) {a : Word}
    (h : ∀ p ∈ incWords s o, evenAddr p ≠ evenAddr a) : (incremented s o size m).wordAt a = m.wordAt a := by
  cases o <;> first | rfl | exact Memory.wordAt_setWord_other _ _ (Ne.symm (h _ (by simp [incWords])))

theorem wordAt_incremented_self (o : Operand) (size : Size) (m : Memory) {p : Word} (h : p ∈ incWords s o) :
    (incremented s o size m).wordAt p = m.wordAt p + size.step := by
  cases o <;> simp [incWords] at h
  subst h; simp [incremented]

/-- A word stored, then an increment, as the statements say it. -/
theorem storedThenIncremented_of_mem {t : State} {o : Operand} {size : Size} {ea v : Word}
    (h : t.mem = incremented s o size (s.mem.setWord ea v)) : StoredThenIncremented s t o size ea v := by
  refine ⟨fun hp => ?_, fun p hp => ?_⟩
  · unfold State.wordAt
    rw [h, wordAt_incremented_other _ _ _ hp, Memory.wordAt_setWord_self]
  · unfold State.wordAt
    rw [h, wordAt_incremented_self _ _ _ hp, Memory.wordAt_setWord]

/-- Its frame. -/
theorem unchangedOutside_of_mem {t : State} {o : Operand} {size : Size} {ea v : Word}
    (h : t.mem = incremented s o size (s.mem.setWord ea v)) : UnchangedOutside s t (ea :: incWords s o) := by
  intro a ha
  unfold State.byteAt
  rw [h, byte_incremented_other _ _ _ (fun p hp => ha p (List.mem_cons_of_mem _ hp)),
    Memory.byte_setWord_other _ _ (ha ea (by simp))]

/-- A byte stored, then an increment, as the statements say it. -/
theorem byteStoredThenIncremented_of_mem {t : State} {o : Operand} {ea : Word} {b : Byte}
    (h : t.mem = incremented s o .byte (s.mem.setWord ea (mergeByte ea b (s.wordAt ea)))) :
    ByteStoredThenIncremented s t o ea b := by
  have hm : ∀ x : Word, (s.mem.setWord ea (mergeByte ea b (s.wordAt ea))).byte x.toNat =
      (State.writeByte { s with readAnswers := [] } ea b).byteAt x := fun _ => rfl
  refine ⟨fun hp => ?_, fun p hp => ?_⟩
  · unfold State.byteAt
    rw [h, byte_incremented_other _ _ _ (fun p hq => (hp p hq).symm),
      byte_incremented_other _ _ _ (fun p hq => by simpa using (hp p hq).symm), hm, hm]
    refine ⟨State.byteAt_writeByte_self _ ea b, State.byteAt_writeByte_other _ rfl b ?_⟩
    intro e
    have := congrArg BitVec.toNat e
    rw [otherHalf_toNat] at this
    split_ifs at this <;> omega
  · unfold State.wordAt
    rw [h, wordAt_incremented_self _ _ _ hp, Memory.wordAt_setWord]; rfl

/-- Nothing stored, then an increment. -/
theorem onlyIncremented_of_mem {t : State} {o : Operand} {size : Size} (h : t.mem = incremented s o size s.mem) :
    OnlyIncremented s t o size := by
  refine ⟨fun a ha => ?_, fun p hp => ?_⟩
  · unfold State.byteAt; rw [h, byte_incremented_other _ _ _ ha]
  · unfold State.wordAt; rw [h, wordAt_incremented_self _ _ _ hp]

end Sys2Proof.Machine
end

