-- ==== Sys2Proof/Laws/Calls.lean ====
section
/-! SUPPORT. The port calls of operands and increments, said once. -/

namespace Sys2Proof.Machine

/-- The port calls the resolver makes (40_flags_addressing_step.md R115, R118). -/
theorem resolve_calls_eq {s : State} (hr : s.readAnswers = []) (slot : Slot) (o : Operand) (size : Size) :
    (resolve slot o size s).2.calls = resolveCalls s o ++ s.calls := by
  cases o <;> cases slot <;>
    simp [resolve, resolveAddr, resolveCalls, State.setPending, State.regAt, State.regAddr, State.answerAt,
      State.wordAt, hr]

theorem incWords_congr {s u : State} (h : u.wp = s.wp) (o : Operand) : incWords u o = incWords s o := by
  cases o <;> simp [incWords, State.regAddr, h]

theorem incrementCalls_congr {s u t v : State} (h : u.wp = s.wp) (hm : v.mem = t.mem) (o : Operand) (size : Size) :
    incrementCalls u v o size = incrementCalls s t o size := by
  unfold incrementCalls State.wordAt
  rw [incWords_congr h, hm]

@[simp] theorem incrementCalls_addCycles (s t : State) (n : Nat) (o : Operand) (size : Size) :
    incrementCalls s (t.addCycles n) o size = incrementCalls s t o size := rfl
@[simp] theorem incrementCalls_conclude {n : Nat} (s t : State) (e : Effect n) (o : Operand) (size : Size) :
    incrementCalls s (t.conclude e) o size = incrementCalls s t o size := rfl
@[simp] theorem incrementCalls_setSt (s t : State) (c b : Word) (o : Operand) (size : Size) :
    incrementCalls s (t.setSt c b) o size = incrementCalls s t o size := rfl

/-- The port calls of the increment an operand left pending in its slot (R121). -/
theorem postInc_src_calls_eq {s u : State} {o : Operand} {size : Size} (h : u.pendingSrc = pendingOf s o size none) :
    (u.postInc .src).calls = incrementCalls s (u.postInc .src) o size ++ u.calls := by
  cases o <;> simp only [pendingOf] at h <;>
    simp [State.postInc, State.pending, h, incrementCalls, incWords, State.wordAt]

theorem postInc_dst_calls_eq {s u : State} {o : Operand} {size : Size} (h : u.pendingDst = pendingOf s o size none) :
    (u.postInc .dst).calls = incrementCalls s (u.postInc .dst) o size ++ u.calls := by
  cases o <;> simp only [pendingOf] at h <;>
    simp [State.postInc, State.pending, h, incrementCalls, incWords, State.wordAt]

/-- The port calls of a source operand's read and increment (R123). -/
theorem readSource_calls_eq {s : State} (hr : s.readAnswers = []) (o : Operand) (h : s.pendingSrc = none) :
    (readSource o s).2.calls = incrementCalls s (readSource o s).2 o .word ++
      .readWord (evenAddr (effectiveAddr s o)) (s.wordAt (effectiveAddr s o)) :: (resolveCalls s o ++ s.calls) := by
  unfold readSource
  rw [postInc_src_calls_eq (s := s) (o := o) (size := .word) (by simp [h])]
  simp [resolve_calls_eq, resolve_addr, hr]

theorem readSourceByte_calls_eq {s : State} (hr : s.readAnswers = []) (o : Operand) (h : s.pendingSrc = none) :
    (readSourceByte o s).2.calls = incrementCalls s (readSourceByte o s).2 o .byte ++
      .readWord (evenAddr (effectiveAddr s o)) (s.wordAt (effectiveAddr s o)) :: (resolveCalls s o ++ s.calls) := by
  unfold readSourceByte
  rw [postInc_src_calls_eq (s := s) (o := o) (size := .byte) (by simp [h])]
  simp [resolve_calls_eq, resolve_addr, hr]

theorem branchTarget_calls_eq {s : State} (hr : s.readAnswers = []) (o : Operand) (h : s.pendingSrc = none) :
    (branchTarget o s).2.calls = incrementCalls s (branchTarget o s).2 o .word ++ (resolveCalls s o ++ s.calls) := by
  unfold branchTarget
  rw [postInc_src_calls_eq (s := s) (o := o) (size := .word) (by simp [h])]
  simp [resolve_calls_eq hr]

end Sys2Proof.Machine
end

