-- ==== Sys2Proof/Laws/Encoding.lean ====
section
/-! SUPPORT. The fields of a word built by the encoder, each read back. -/

namespace Sys2Proof

/-! ## Pieces of a word, each of them in its place -/

theorem fieldS_reg (r : Reg) : fieldS (r.setWidth 16) = r := by revert r; decide
theorem fieldTs_reg (r : Reg) : fieldTs (r.setWidth 16) = 0#2 := by revert r; decide
theorem fieldD_reg (r : Reg) : fieldD (r.setWidth 16) = 0#4 := by revert r; decide
theorem fieldTd_reg (r : Reg) : fieldTd (r.setWidth 16) = 0#2 := by revert r; decide
theorem fieldC_reg (r : Reg) : fieldC (r.setWidth 16) = 0#4 := by revert r; decide
theorem fieldS_ts (t : BitVec 2) : fieldS (t.setWidth 16 <<< 4) = 0#4 := by revert t; decide
theorem fieldTs_ts (t : BitVec 2) : fieldTs (t.setWidth 16 <<< 4) = t := by revert t; decide
theorem fieldD_ts (t : BitVec 2) : fieldD (t.setWidth 16 <<< 4) = 0#4 := by revert t; decide
theorem fieldTd_ts (t : BitVec 2) : fieldTd (t.setWidth 16 <<< 4) = 0#2 := by revert t; decide
theorem fieldS_d (d : BitVec 4) : fieldS (d.setWidth 16 <<< 6) = 0#4 := by revert d; decide
theorem fieldTs_d (d : BitVec 4) : fieldTs (d.setWidth 16 <<< 6) = 0#2 := by revert d; decide
theorem fieldD_d (d : BitVec 4) : fieldD (d.setWidth 16 <<< 6) = d := by revert d; decide
theorem fieldTd_d (d : BitVec 4) : fieldTd (d.setWidth 16 <<< 6) = 0#2 := by revert d; decide
theorem fieldS_td (t : BitVec 2) : fieldS (t.setWidth 16 <<< 10) = 0#4 := by revert t; decide
theorem fieldTs_td (t : BitVec 2) : fieldTs (t.setWidth 16 <<< 10) = 0#2 := by revert t; decide
theorem fieldD_td (t : BitVec 2) : fieldD (t.setWidth 16 <<< 10) = 0#4 := by revert t; decide
theorem fieldTd_td (t : BitVec 2) : fieldTd (t.setWidth 16 <<< 10) = t := by revert t; decide
theorem fieldS_c (c : BitVec 4) : fieldS (c.setWidth 16 <<< 4) = 0#4 := by revert c; decide
theorem fieldC_c (c : BitVec 4) : fieldC (c.setWidth 16 <<< 4) = c := by revert c; decide
theorem fieldDisp_disp (d : BitVec 8) : fieldDisp (d.setWidth 16) = d := by
  ext i hi; simp [fieldDisp, hi]; omega

theorem fieldS_or (a b : Word) : fieldS (a ||| b) = fieldS a ||| fieldS b := BitVec.extractLsb'_or
theorem fieldTs_or (a b : Word) : fieldTs (a ||| b) = fieldTs a ||| fieldTs b := BitVec.extractLsb'_or
theorem fieldD_or (a b : Word) : fieldD (a ||| b) = fieldD a ||| fieldD b := BitVec.extractLsb'_or
theorem fieldTd_or (a b : Word) : fieldTd (a ||| b) = fieldTd a ||| fieldTd b := BitVec.extractLsb'_or
theorem fieldC_or (a b : Word) : fieldC (a ||| b) = fieldC a ||| fieldC b := BitVec.extractLsb'_or
theorem fieldDisp_or (a b : Word) : fieldDisp (a ||| b) = fieldDisp a ||| fieldDisp b := BitVec.extractLsb'_or

/-- A well-formed operand is the one its mode selector and register field name (30_encoding.md R93). -/
theorem operandOf_mode_field {o : Operand} (h : o.wellFormed = true) : operandOf o.mode o.field = o := by
  cases o <;> simp_all [Operand.mode, Operand.field, operandOf, Operand.wellFormed]

/-! ## The formats, for an opcode word whose field bits are 0 -/

theorem fieldS_wordW {op : Word} (h : fieldS op = 0#4) (w : Reg) : fieldS (wordW op w) = w := by
  simp [wordW, fieldS_or, fieldS_reg, h]

theorem fieldS_wordShift {op : Word} (h : fieldS op = 0#4) (c : BitVec 4) (w : Reg) :
    fieldS (wordShift op c w) = w := by
  simp [wordShift, fieldS_or, fieldS_c, fieldS_reg, h]

theorem fieldC_wordShift {op : Word} (h : fieldC op = 0#4) (c : BitVec 4) (w : Reg) :
    fieldC (wordShift op c w) = c := by
  simp [wordShift, fieldC_or, fieldC_c, fieldC_reg, h]

theorem fieldDisp_wordDisp {op : Word} (h : fieldDisp op = 0#8) (d : BitVec 8) : fieldDisp (wordDisp op d) = d := by
  simp [wordDisp, fieldDisp_or, fieldDisp_disp, h]

theorem fieldSrc_wordSrc {op : Word} (hs : fieldS op = 0#4) (ht : fieldTs op = 0#2) {o : Operand}
    (h : o.wellFormed = true) : fieldSrc (wordSrc op o) = o := by
  simp [fieldSrc, wordSrc, fieldS_or, fieldTs_or, fieldS_ts, fieldTs_ts, fieldS_reg, fieldTs_reg, hs, ht,
    operandOf_mode_field h]

theorem fieldSrc_wordSrcD {op : Word} (hs : fieldS op = 0#4) (ht : fieldTs op = 0#2) {o : Operand}
    (h : o.wellFormed = true) (d : BitVec 4) : fieldSrc (wordSrcD op o d) = o := by
  simp [fieldSrc, wordSrcD, wordSrc, fieldS_or, fieldTs_or, fieldS_ts, fieldTs_ts, fieldS_reg, fieldTs_reg,
    fieldS_d, fieldTs_d, hs, ht, operandOf_mode_field h]

theorem fieldD_wordSrcD {op : Word} (hd : fieldD op = 0#4) (o : Operand) (d : BitVec 4) :
    fieldD (wordSrcD op o d) = d := by
  simp [wordSrcD, wordSrc, fieldD_or, fieldD_ts, fieldD_reg, fieldD_d, hd]

theorem fieldSrc_wordSrcDst {op : Word} (hs : fieldS op = 0#4) (ht : fieldTs op = 0#2) {o : Operand}
    (h : o.wellFormed = true) (d : Operand) : fieldSrc (wordSrcDst op o d) = o := by
  simp [fieldSrc, wordSrcDst, wordSrcD, wordSrc, fieldS_or, fieldTs_or, fieldS_ts, fieldTs_ts, fieldS_reg,
    fieldTs_reg, fieldS_d, fieldTs_d, fieldS_td, fieldTs_td, hs, ht, operandOf_mode_field h]

theorem fieldDst_wordSrcDst {op : Word} (hd : fieldD op = 0#4) (ht : fieldTd op = 0#2) {d : Operand}
    (h : d.wellFormed = true) (o : Operand) : fieldDst (wordSrcDst op o d) = d := by
  simp [fieldDst, wordSrcDst, wordSrcD, wordSrc, fieldD_or, fieldTd_or, fieldD_ts, fieldTd_ts, fieldD_reg,
    fieldTd_reg, fieldD_d, fieldTd_d, fieldD_td, fieldTd_td, hd, ht, operandOf_mode_field h]

/-! ## Which row a word selects: only the field bits are outside the mask -/

theorem and_mask_or {op m : Word} {x : Word} (ho : op &&& m = op) (hx : x &&& m = 0#16) : (op ||| x) &&& m = op := by
  rw [BitVec.and_comm, BitVec.and_or_distrib_left, BitVec.and_comm m op, BitVec.and_comm m x, ho, hx]; simp

theorem reg_and_F0 (r : Reg) : r.setWidth 16 &&& 0xFFF0#16 = 0#16 := by revert r; decide
theorem reg_and_E0 (r : Reg) : r.setWidth 16 &&& 0xFFE0#16 = 0#16 := by revert r; decide
theorem reg_and_FC0 (r : Reg) : r.setWidth 16 &&& 0xFFC0#16 = 0#16 := by revert r; decide
theorem reg_and_F00 (r : Reg) : r.setWidth 16 &&& 0xFF00#16 = 0#16 := by revert r; decide
theorem reg_and_FC00 (r : Reg) : r.setWidth 16 &&& 0xFC00#16 = 0#16 := by revert r; decide
theorem reg_and_F000 (r : Reg) : r.setWidth 16 &&& 0xF000#16 = 0#16 := by revert r; decide
theorem ts_and_FC0 (t : BitVec 2) : (t.setWidth 16 <<< 4 : Word) &&& 0xFFC0#16 = 0#16 := by revert t; decide
theorem ts_and_FC00 (t : BitVec 2) : (t.setWidth 16 <<< 4 : Word) &&& 0xFC00#16 = 0#16 := by revert t; decide
theorem ts_and_F000 (t : BitVec 2) : (t.setWidth 16 <<< 4 : Word) &&& 0xF000#16 = 0#16 := by revert t; decide
theorem c_and_F00 (c : BitVec 4) : (c.setWidth 16 <<< 4 : Word) &&& 0xFF00#16 = 0#16 := by revert c; decide
theorem d_and_FC00 (d : BitVec 4) : (d.setWidth 16 <<< 6 : Word) &&& 0xFC00#16 = 0#16 := by revert d; decide
theorem d_and_F000 (d : BitVec 4) : (d.setWidth 16 <<< 6 : Word) &&& 0xF000#16 = 0#16 := by revert d; decide
theorem td_and_F000 (t : BitVec 2) : (t.setWidth 16 <<< 10 : Word) &&& 0xF000#16 = 0#16 := by revert t; decide
theorem disp_and_F00 (d : BitVec 8) : d.setWidth 16 &&& 0xFF00#16 = 0#16 := by
  ext i hi
  have : i < 16 := hi
  interval_cases i <;> simp

theorem wordW_F0 {op : Word} (h : op &&& 0xFFF0#16 = op) (w : Reg) : wordW op w &&& 0xFFF0#16 = op :=
  and_mask_or h (reg_and_F0 w)
theorem wordW_E0 {op : Word} (h : op &&& 0xFFE0#16 = op) (w : Reg) : wordW op w &&& 0xFFE0#16 = op :=
  and_mask_or h (reg_and_E0 w)
theorem wordShift_F00 {op : Word} (h : op &&& 0xFF00#16 = op) (c : BitVec 4) (w : Reg) :
    wordShift op c w &&& 0xFF00#16 = op := by
  rw [wordShift, BitVec.or_assoc]
  refine and_mask_or h ?_
  rw [BitVec.and_comm, BitVec.and_or_distrib_left, BitVec.and_comm, c_and_F00, BitVec.and_comm, reg_and_F00]; rfl
theorem wordDisp_F00 {op : Word} (h : op &&& 0xFF00#16 = op) (d : BitVec 8) : wordDisp op d &&& 0xFF00#16 = op :=
  and_mask_or h (disp_and_F00 d)
theorem wordSrc_mask {op m : Word} (h : op &&& m = op) (o : Operand) (ht : (o.mode.setWidth 16 <<< 4 : Word) &&& m = 0#16)
    (hr : o.field.setWidth 16 &&& m = 0#16) : wordSrc op o &&& m = op := by
  rw [wordSrc, BitVec.or_assoc]
  refine and_mask_or h ?_
  rw [BitVec.and_comm, BitVec.and_or_distrib_left, BitVec.and_comm, ht, BitVec.and_comm, hr]; simp
theorem wordSrc_FC0 {op : Word} (h : op &&& 0xFFC0#16 = op) (o : Operand) : wordSrc op o &&& 0xFFC0#16 = op :=
  wordSrc_mask h o (ts_and_FC0 _) (reg_and_FC0 _)
theorem or_mask {w x op m : Word} (h : w &&& m = op) (hx : x &&& m = 0#16) : (w ||| x) &&& m = op := by
  rw [BitVec.and_comm, BitVec.and_or_distrib_left, BitVec.and_comm m w, BitVec.and_comm m x, h, hx]; simp
theorem wordSrcD_FC00 {op : Word} (h : op &&& 0xFC00#16 = op) (o : Operand) (d : BitVec 4) :
    wordSrcD op o d &&& 0xFC00#16 = op :=
  or_mask (wordSrc_mask h o (ts_and_FC00 _) (reg_and_FC00 _)) (d_and_FC00 d)
theorem wordSrcDst_F000 {op : Word} (h : op &&& 0xF000#16 = op) (o d : Operand) :
    wordSrcDst op o d &&& 0xF000#16 = op :=
  or_mask (or_mask (wordSrc_mask h o (ts_and_F000 _) (reg_and_F000 _)) (d_and_F000 _)) (td_and_F000 _)

end Sys2Proof
end

