-- ==== Sys2Proof/Laws/Kept.lean ====
section
/-! SUPPORT. What the shared operations and sequences keep WHATEVER the Memory Port answers to their reads: the
rest of the state, memory's canonical form, the order of the waiting answers and the older port calls. The
lemmas of Laws/Operands.lean say the values too, under the RAM premise (20_memory.md R61). -/

namespace Sys2Proof.Machine

/-- The rest is as before, memory keeps its form, answers are taken in order, calls only added. -/
structure Kept (s t : State) : Prop where
  rest : t.rest = s.rest
  mem : s.mem.wf = true → t.mem.wf = true
  answers : t.readAnswers <:+ s.readAnswers
  calls : ExtendsCalls s t

variable {s t u : State}

theorem Kept.refl (s : State) : Kept s s := ⟨rfl, id, List.suffix_rfl, .refl s⟩

theorem Kept.trans (h : Kept s t) (g : Kept t u) : Kept s u :=
  ⟨g.rest.trans h.rest, g.mem ∘ h.mem, g.answers.trans h.answers, h.calls.trans g.calls⟩

/-! ## One operation more -/

theorem Kept.readWord (h : Kept s t) (a : Word) : Kept s (t.readWord a).2 :=
  ⟨h.rest, h.mem, (List.tail_suffix _).trans h.answers, h.calls.cons rfl⟩

theorem Kept.readReg (h : Kept s t) (n : Reg) : Kept s (t.readReg n).2 := h.readWord _

theorem Kept.readByte (h : Kept s t) (a : Word) : Kept s (t.readByte a).2 := h.readWord a

theorem Kept.writeWord (h : Kept s t) (a v : Word) : Kept s (t.writeWord a v) :=
  ⟨h.rest, fun m => Memory.wf_setWord _ _ (h.mem m), h.answers, h.calls.cons rfl⟩

theorem Kept.writeReg (h : Kept s t) (n : Reg) (v : Word) : Kept s (t.writeReg n v) := h.writeWord _ v

theorem Kept.writeByte (h : Kept s t) (a : Word) (b : Byte) : Kept s (t.writeByte a b) :=
  (h.readWord a).writeWord a _

theorem Kept.storeWord (h : Kept s t) (a : Word) (v : Option Word) : Kept s (t.storeWord a v) := by
  cases v
  · exact h
  · exact h.writeWord _ _

theorem Kept.storeByte (h : Kept s t) (a : Word) (v : Option Byte) : Kept s (t.storeByte a v) := by
  cases v
  · exact h
  · exact h.writeByte _ _

theorem Kept.record (h : Kept s t) (c : PortCall) : Kept s (t.record c) := ⟨h.rest, h.mem, h.answers, h.calls.cons rfl⟩

theorem Kept.setPc (h : Kept s t) (v : Word) : Kept s (t.setPc v) := ⟨h.rest, h.mem, h.answers, h.calls.same rfl⟩

theorem Kept.setSt (h : Kept s t) (clear bits : Word) : Kept s (t.setSt clear bits) :=
  ⟨h.rest, h.mem, h.answers, h.calls.same rfl⟩

theorem Kept.addCycles (h : Kept s t) (n : Nat) : Kept s (t.addCycles n) := ⟨h.rest, h.mem, h.answers, h.calls.same rfl⟩

theorem Kept.conclude {n : Nat} (h : Kept s t) (e : Effect n) : Kept s (t.conclude e) := (h.setSt _ _).addCycles _

theorem Kept.postInc (h : Kept s t) (slot : Slot) : Kept s (t.postInc slot) := by
  refine ⟨(t.postInc_rest slot).trans h.rest, fun m => ?_, (t.postInc_answers slot).trans h.answers,
    h.calls.trans (t.postInc_calls slot)⟩
  rw [State.postInc_mem_answer]
  cases t.pending slot
  · exact h.mem m
  · exact Memory.wf_setWord _ _ (h.mem m)

theorem Kept.resolve (h : Kept s t) (slot : Slot) (o : Operand) (size : Size) : Kept s (resolve slot o size t).2 :=
  ⟨(resolve_rest t slot o size).trans h.rest, fun m => by rw [resolve_mem]; exact h.mem m,
    (resolve_answers t slot o size).trans h.answers, h.calls.trans (resolve_calls t slot o size)⟩

/-! ## The sequences -/

variable (s)

theorem readSource_kept (o : Operand) : Kept s (readSource o s).2 :=
  (((Kept.refl s).resolve _ _ _).readWord _).postInc _

theorem readSourceByte_kept (o : Operand) : Kept s (readSourceByte o s).2 :=
  (((Kept.refl s).resolve _ _ _).readByte _).postInc _

theorem branchTarget_kept (o : Operand) : Kept s (branchTarget o s).2 := ((Kept.refl s).resolve _ _ _).postInc _

theorem wordDual_kept (op : Word → Word → Effect 16) (gs gd : Operand) : Kept s (wordDual op gs gd s) :=
  (((((readSource_kept s gs).resolve _ _ _).readWord _).storeWord _ _).postInc _).conclude _

theorem byteDual_kept (op : Byte → Byte → Effect 8) (gs gd : Operand) : Kept s (byteDual op gs gd s) :=
  (((((readSourceByte_kept s gs).resolve _ _ _).readByte _).storeByte _ _).postInc _).conclude _

theorem wordMove_kept (op : Word → Effect 16) (gs gd : Operand) : Kept s (wordMove op gs gd s) :=
  ((((readSource_kept s gs).resolve _ _ _).storeWord _ _).postInc _).conclude _

theorem byteMove_kept (op : Byte → Effect 8) (gs gd : Operand) : Kept s (byteMove op gs gd s) :=
  ((((readSourceByte_kept s gs).resolve _ _ _).storeByte _ _).postInc _).conclude _

theorem regDual_kept (op : Word → Word → Effect 16) (gs : Operand) (d : Reg) : Kept s (regDual op gs d s) :=
  (((readSource_kept s gs).readReg d).storeWord _ _).conclude _

theorem wordUnary_kept (op : Word → Effect 16) (gs : Operand) : Kept s (wordUnary op gs s) :=
  (((((Kept.refl s).resolve _ _ _).readWord _).storeWord _ _).postInc _).conclude _

theorem wordFill_kept (v : Word) (gs : Operand) : Kept s (wordFill v gs s) :=
  ((((Kept.refl s).resolve _ _ _).writeWord _ _).postInc _).addCycles _

theorem regUnary_kept (op : Word → Effect 16) (w : Reg) : Kept s (regUnary op w s) :=
  (((Kept.refl s).readReg w).storeWord _ _).conclude _

/-! ## What is pending after a sequence, and PC -/

variable {s}

theorem wordDual_pending (s : State) (op : Word → Word → Effect 16) (gs gd : Operand) :
    (wordDual op gs gd s).NoPending := by simp [wordDual, State.NoPending]
theorem byteDual_pending (s : State) (op : Byte → Byte → Effect 8) (gs gd : Operand) :
    (byteDual op gs gd s).NoPending := by simp [byteDual, State.NoPending]
theorem wordMove_pending (s : State) (op : Word → Effect 16) (gs gd : Operand) :
    (wordMove op gs gd s).NoPending := by simp [wordMove, State.NoPending]
theorem byteMove_pending (s : State) (op : Byte → Effect 8) (gs gd : Operand) :
    (byteMove op gs gd s).NoPending := by simp [byteMove, State.NoPending]
theorem regDual_pending (h : s.NoPending) (op : Word → Word → Effect 16) (gs : Operand) (d : Reg) :
    (regDual op gs d s).NoPending := by simp [regDual, State.NoPending, h.2]
theorem wordUnary_pending (h : s.NoPending) (op : Word → Effect 16) (gs : Operand) :
    (wordUnary op gs s).NoPending := by simp [wordUnary, State.NoPending, h.2]
theorem wordFill_pending (h : s.NoPending) (v : Word) (gs : Operand) : (wordFill v gs s).NoPending := by
  simp [wordFill, State.NoPending, h.2]
theorem regUnary_pending (h : s.NoPending) (op : Word → Effect 16) (w : Reg) : (regUnary op w s).NoPending := by
  simp [regUnary, State.NoPending, h.1, h.2]

variable (s)

theorem wordDual_pc (op : Word → Word → Effect 16) (gs gd : Operand) :
    (wordDual op gs gd s).pc = pcAfterOperand (readSource gs s).2 gd := by simp [wordDual, resolve_pc]
theorem byteDual_pc (op : Byte → Byte → Effect 8) (gs gd : Operand) :
    (byteDual op gs gd s).pc = pcAfterOperand (readSourceByte gs s).2 gd := by simp [byteDual, resolve_pc]
theorem wordMove_pc (op : Word → Effect 16) (gs gd : Operand) :
    (wordMove op gs gd s).pc = pcAfterOperand (readSource gs s).2 gd := by simp [wordMove, resolve_pc]
theorem byteMove_pc (op : Byte → Effect 8) (gs gd : Operand) :
    (byteMove op gs gd s).pc = pcAfterOperand (readSourceByte gs s).2 gd := by simp [byteMove, resolve_pc]
theorem regDual_pc (op : Word → Word → Effect 16) (gs : Operand) (d : Reg) :
    (regDual op gs d s).pc = pcAfterOperand s gs := by simp [regDual, readSource_pc]
theorem wordUnary_pc (op : Word → Effect 16) (gs : Operand) : (wordUnary op gs s).pc = pcAfterOperand s gs := by
  simp [wordUnary, resolve_pc]
theorem wordFill_pc (v : Word) (gs : Operand) : (wordFill v gs s).pc = pcAfterOperand s gs := by
  simp [wordFill, resolve_pc]
theorem regUnary_pc (op : Word → Effect 16) (w : Reg) : (regUnary op w s).pc = s.pc := by simp [regUnary]

end Sys2Proof.Machine
end

