-- ==== Sys2Proof/Laws/PerInstr.lean ====
section
/-! SUPPORT. For every instruction, the row of the dispatch table (30_encoding.md R94) its first word selects:
one lemma for each constructor. -/

namespace Sys2Proof.Laws.SelectsItsRow

set_option Elab.async false

/-- Some row of the table is selected by the instruction's first word, under both settings of
UNUSED_BITS_ALIAS, says whether an immediate follows, and builds the instruction back. -/
def Statement (i : Instr) : Prop :=
  i.wellFormed = true → ∃ r ∈ rows, (∀ aliased, r.selects aliased (firstWord i) = true) ∧
    r.hasImm = (immediateWord i).isSome ∧ r.build (firstWord i) ((immediateWord i).getD 0#16) = i

/-- The statement from its parts, for a row at a known place of the table. -/
theorem of_row {i : Instr} (n : Nat) (r : Row) (hr : rows[n]? = some r) (hm : firstWord i &&& r.mask = r.pattern)
    (ha : firstWord i &&& r.aliasMask = r.pattern) (hi : r.hasImm = (immediateWord i).isSome)
    (hb : i.wellFormed = true → r.build (firstWord i) ((immediateWord i).getD 0#16) = i) : Statement i := by
  refine fun hw => ⟨r, List.mem_of_getElem? hr, fun a => ?_, hi, hb hw⟩
  cases a <;> simp [Row.selects, hm, ha]

theorem li (w : Reg) (imm : Word) : Statement (Instr.li w imm) :=
  of_row 0 _ rfl (wordW_F0 rfl w) (wordW_E0 rfl w) rfl <| fun _ => congrArg (Instr.li · imm) (fieldS_wordW rfl w)

theorem ai (w : Reg) (imm : Word) : Statement (Instr.ai w imm) :=
  of_row 1 _ rfl (wordW_F0 rfl w) (wordW_E0 rfl w) rfl <| fun _ => congrArg (Instr.ai · imm) (fieldS_wordW rfl w)

theorem andi (w : Reg) (imm : Word) : Statement (Instr.andi w imm) :=
  of_row 2 _ rfl (wordW_F0 rfl w) (wordW_E0 rfl w) rfl <| fun _ => congrArg (Instr.andi · imm) (fieldS_wordW rfl w)

theorem ori (w : Reg) (imm : Word) : Statement (Instr.ori w imm) :=
  of_row 3 _ rfl (wordW_F0 rfl w) (wordW_E0 rfl w) rfl <| fun _ => congrArg (Instr.ori · imm) (fieldS_wordW rfl w)

theorem ci (w : Reg) (imm : Word) : Statement (Instr.ci w imm) :=
  of_row 4 _ rfl (wordW_F0 rfl w) (wordW_E0 rfl w) rfl <| fun _ => congrArg (Instr.ci · imm) (fieldS_wordW rfl w)

theorem stwp (w : Reg) : Statement (Instr.stwp w) :=
  of_row 5 _ rfl (wordW_F0 rfl w) (wordW_E0 rfl w) rfl <| fun _ => congrArg Instr.stwp (fieldS_wordW rfl w)

theorem stst (w : Reg) : Statement (Instr.stst w) :=
  of_row 6 _ rfl (wordW_F0 rfl w) (wordW_E0 rfl w) rfl <| fun _ => congrArg Instr.stst (fieldS_wordW rfl w)

theorem lwpi (imm : Word) : Statement (Instr.lwpi imm) :=
  of_row 7 _ rfl (show (0x02E0#16 : Word) &&& 0xFFF0#16 = 0x02E0#16 by decide)
    (show (0x02E0#16 : Word) &&& 0xFFE0#16 = 0x02E0#16 by decide) rfl <| fun _ => rfl

theorem limi (imm : Word) : Statement (Instr.limi imm) :=
  of_row 8 _ rfl (show (0x0300#16 : Word) &&& 0xFFF0#16 = 0x0300#16 by decide)
    (show (0x0300#16 : Word) &&& 0xFFE0#16 = 0x0300#16 by decide) rfl <| fun _ => rfl

theorem idle : Statement Instr.idle :=
  of_row 9 _ rfl rfl rfl rfl <| fun _ => rfl

theorem rset : Statement Instr.rset :=
  of_row 10 _ rfl rfl rfl rfl <| fun _ => rfl

theorem rtwp : Statement Instr.rtwp :=
  of_row 11 _ rfl rfl rfl rfl <| fun _ => rfl

theorem ckon : Statement Instr.ckon :=
  of_row 12 _ rfl rfl rfl rfl <| fun _ => rfl

theorem ckof : Statement Instr.ckof :=
  of_row 13 _ rfl rfl rfl rfl <| fun _ => rfl

theorem lrex : Statement Instr.lrex :=
  of_row 14 _ rfl rfl rfl rfl <| fun _ => rfl

theorem blwp (gs : Operand) : Statement (Instr.blwp gs) :=
  of_row 15 _ rfl (wordSrc_FC0 rfl gs) (wordSrc_FC0 rfl gs) rfl <| fun h => congrArg Instr.blwp (fieldSrc_wordSrc rfl rfl (by simpa [Instr.wellFormed, Instr.operands] using h))

theorem b (gs : Operand) : Statement (Instr.b gs) :=
  of_row 16 _ rfl (wordSrc_FC0 rfl gs) (wordSrc_FC0 rfl gs) rfl <| fun h => congrArg Instr.b (fieldSrc_wordSrc rfl rfl (by simpa [Instr.wellFormed, Instr.operands] using h))

theorem x (gs : Operand) : Statement (Instr.x gs) :=
  of_row 17 _ rfl (wordSrc_FC0 rfl gs) (wordSrc_FC0 rfl gs) rfl <| fun h => congrArg Instr.x (fieldSrc_wordSrc rfl rfl (by simpa [Instr.wellFormed, Instr.operands] using h))

theorem clr (gs : Operand) : Statement (Instr.clr gs) :=
  of_row 18 _ rfl (wordSrc_FC0 rfl gs) (wordSrc_FC0 rfl gs) rfl <| fun h => congrArg Instr.clr (fieldSrc_wordSrc rfl rfl (by simpa [Instr.wellFormed, Instr.operands] using h))

theorem neg (gs : Operand) : Statement (Instr.neg gs) :=
  of_row 19 _ rfl (wordSrc_FC0 rfl gs) (wordSrc_FC0 rfl gs) rfl <| fun h => congrArg Instr.neg (fieldSrc_wordSrc rfl rfl (by simpa [Instr.wellFormed, Instr.operands] using h))

theorem inv (gs : Operand) : Statement (Instr.inv gs) :=
  of_row 20 _ rfl (wordSrc_FC0 rfl gs) (wordSrc_FC0 rfl gs) rfl <| fun h => congrArg Instr.inv (fieldSrc_wordSrc rfl rfl (by simpa [Instr.wellFormed, Instr.operands] using h))

theorem inc (gs : Operand) : Statement (Instr.inc gs) :=
  of_row 21 _ rfl (wordSrc_FC0 rfl gs) (wordSrc_FC0 rfl gs) rfl <| fun h => congrArg Instr.inc (fieldSrc_wordSrc rfl rfl (by simpa [Instr.wellFormed, Instr.operands] using h))

theorem inct (gs : Operand) : Statement (Instr.inct gs) :=
  of_row 22 _ rfl (wordSrc_FC0 rfl gs) (wordSrc_FC0 rfl gs) rfl <| fun h => congrArg Instr.inct (fieldSrc_wordSrc rfl rfl (by simpa [Instr.wellFormed, Instr.operands] using h))

theorem dec (gs : Operand) : Statement (Instr.dec gs) :=
  of_row 23 _ rfl (wordSrc_FC0 rfl gs) (wordSrc_FC0 rfl gs) rfl <| fun h => congrArg Instr.dec (fieldSrc_wordSrc rfl rfl (by simpa [Instr.wellFormed, Instr.operands] using h))

theorem dect (gs : Operand) : Statement (Instr.dect gs) :=
  of_row 24 _ rfl (wordSrc_FC0 rfl gs) (wordSrc_FC0 rfl gs) rfl <| fun h => congrArg Instr.dect (fieldSrc_wordSrc rfl rfl (by simpa [Instr.wellFormed, Instr.operands] using h))

theorem bl (gs : Operand) : Statement (Instr.bl gs) :=
  of_row 25 _ rfl (wordSrc_FC0 rfl gs) (wordSrc_FC0 rfl gs) rfl <| fun h => congrArg Instr.bl (fieldSrc_wordSrc rfl rfl (by simpa [Instr.wellFormed, Instr.operands] using h))

theorem swpb (gs : Operand) : Statement (Instr.swpb gs) :=
  of_row 26 _ rfl (wordSrc_FC0 rfl gs) (wordSrc_FC0 rfl gs) rfl <| fun h => congrArg Instr.swpb (fieldSrc_wordSrc rfl rfl (by simpa [Instr.wellFormed, Instr.operands] using h))

theorem seto (gs : Operand) : Statement (Instr.seto gs) :=
  of_row 27 _ rfl (wordSrc_FC0 rfl gs) (wordSrc_FC0 rfl gs) rfl <| fun h => congrArg Instr.seto (fieldSrc_wordSrc rfl rfl (by simpa [Instr.wellFormed, Instr.operands] using h))

theorem abs (gs : Operand) : Statement (Instr.abs gs) :=
  of_row 28 _ rfl (wordSrc_FC0 rfl gs) (wordSrc_FC0 rfl gs) rfl <| fun h => congrArg Instr.abs (fieldSrc_wordSrc rfl rfl (by simpa [Instr.wellFormed, Instr.operands] using h))

theorem sra (count : BitVec 4) (w : Reg) : Statement (Instr.sra count w) :=
  of_row 29 _ rfl (wordShift_F00 rfl count w) (wordShift_F00 rfl count w) rfl <| fun _ => congrArg₂ Instr.sra (fieldC_wordShift rfl count w) (fieldS_wordShift rfl count w)

theorem srl (count : BitVec 4) (w : Reg) : Statement (Instr.srl count w) :=
  of_row 30 _ rfl (wordShift_F00 rfl count w) (wordShift_F00 rfl count w) rfl <| fun _ => congrArg₂ Instr.srl (fieldC_wordShift rfl count w) (fieldS_wordShift rfl count w)

theorem sla (count : BitVec 4) (w : Reg) : Statement (Instr.sla count w) :=
  of_row 31 _ rfl (wordShift_F00 rfl count w) (wordShift_F00 rfl count w) rfl <| fun _ => congrArg₂ Instr.sla (fieldC_wordShift rfl count w) (fieldS_wordShift rfl count w)

theorem src (count : BitVec 4) (w : Reg) : Statement (Instr.src count w) :=
  of_row 32 _ rfl (wordShift_F00 rfl count w) (wordShift_F00 rfl count w) rfl <| fun _ => congrArg₂ Instr.src (fieldC_wordShift rfl count w) (fieldS_wordShift rfl count w)

theorem jmp (disp : BitVec 8) : Statement (Instr.jmp disp) :=
  of_row 33 _ rfl (wordDisp_F00 rfl disp) (wordDisp_F00 rfl disp) rfl <| fun _ => congrArg Instr.jmp (fieldDisp_wordDisp rfl disp)

theorem jlt (disp : BitVec 8) : Statement (Instr.jlt disp) :=
  of_row 34 _ rfl (wordDisp_F00 rfl disp) (wordDisp_F00 rfl disp) rfl <| fun _ => congrArg Instr.jlt (fieldDisp_wordDisp rfl disp)

theorem jle (disp : BitVec 8) : Statement (Instr.jle disp) :=
  of_row 35 _ rfl (wordDisp_F00 rfl disp) (wordDisp_F00 rfl disp) rfl <| fun _ => congrArg Instr.jle (fieldDisp_wordDisp rfl disp)

theorem jeq (disp : BitVec 8) : Statement (Instr.jeq disp) :=
  of_row 36 _ rfl (wordDisp_F00 rfl disp) (wordDisp_F00 rfl disp) rfl <| fun _ => congrArg Instr.jeq (fieldDisp_wordDisp rfl disp)

theorem jhe (disp : BitVec 8) : Statement (Instr.jhe disp) :=
  of_row 37 _ rfl (wordDisp_F00 rfl disp) (wordDisp_F00 rfl disp) rfl <| fun _ => congrArg Instr.jhe (fieldDisp_wordDisp rfl disp)

theorem jgt (disp : BitVec 8) : Statement (Instr.jgt disp) :=
  of_row 38 _ rfl (wordDisp_F00 rfl disp) (wordDisp_F00 rfl disp) rfl <| fun _ => congrArg Instr.jgt (fieldDisp_wordDisp rfl disp)

theorem jne (disp : BitVec 8) : Statement (Instr.jne disp) :=
  of_row 39 _ rfl (wordDisp_F00 rfl disp) (wordDisp_F00 rfl disp) rfl <| fun _ => congrArg Instr.jne (fieldDisp_wordDisp rfl disp)

theorem jnc (disp : BitVec 8) : Statement (Instr.jnc disp) :=
  of_row 40 _ rfl (wordDisp_F00 rfl disp) (wordDisp_F00 rfl disp) rfl <| fun _ => congrArg Instr.jnc (fieldDisp_wordDisp rfl disp)

theorem joc (disp : BitVec 8) : Statement (Instr.joc disp) :=
  of_row 41 _ rfl (wordDisp_F00 rfl disp) (wordDisp_F00 rfl disp) rfl <| fun _ => congrArg Instr.joc (fieldDisp_wordDisp rfl disp)

theorem jno (disp : BitVec 8) : Statement (Instr.jno disp) :=
  of_row 42 _ rfl (wordDisp_F00 rfl disp) (wordDisp_F00 rfl disp) rfl <| fun _ => congrArg Instr.jno (fieldDisp_wordDisp rfl disp)

theorem jl (disp : BitVec 8) : Statement (Instr.jl disp) :=
  of_row 43 _ rfl (wordDisp_F00 rfl disp) (wordDisp_F00 rfl disp) rfl <| fun _ => congrArg Instr.jl (fieldDisp_wordDisp rfl disp)

theorem jh (disp : BitVec 8) : Statement (Instr.jh disp) :=
  of_row 44 _ rfl (wordDisp_F00 rfl disp) (wordDisp_F00 rfl disp) rfl <| fun _ => congrArg Instr.jh (fieldDisp_wordDisp rfl disp)

theorem jop (disp : BitVec 8) : Statement (Instr.jop disp) :=
  of_row 45 _ rfl (wordDisp_F00 rfl disp) (wordDisp_F00 rfl disp) rfl <| fun _ => congrArg Instr.jop (fieldDisp_wordDisp rfl disp)

theorem sbo (disp : BitVec 8) : Statement (Instr.sbo disp) :=
  of_row 46 _ rfl (wordDisp_F00 rfl disp) (wordDisp_F00 rfl disp) rfl <| fun _ => congrArg Instr.sbo (fieldDisp_wordDisp rfl disp)

theorem sbz (disp : BitVec 8) : Statement (Instr.sbz disp) :=
  of_row 47 _ rfl (wordDisp_F00 rfl disp) (wordDisp_F00 rfl disp) rfl <| fun _ => congrArg Instr.sbz (fieldDisp_wordDisp rfl disp)

theorem tb (disp : BitVec 8) : Statement (Instr.tb disp) :=
  of_row 48 _ rfl (wordDisp_F00 rfl disp) (wordDisp_F00 rfl disp) rfl <| fun _ => congrArg Instr.tb (fieldDisp_wordDisp rfl disp)

theorem coc (gs : Operand) (d : BitVec 4) : Statement (Instr.coc gs d) :=
  of_row 49 _ rfl (wordSrcD_FC00 rfl gs d) (wordSrcD_FC00 rfl gs d) rfl <| fun h => congrArg₂ Instr.coc (fieldSrc_wordSrcD rfl rfl (by simpa [Instr.wellFormed, Instr.operands] using h) d)
    (fieldD_wordSrcD rfl gs d)

theorem czc (gs : Operand) (d : BitVec 4) : Statement (Instr.czc gs d) :=
  of_row 50 _ rfl (wordSrcD_FC00 rfl gs d) (wordSrcD_FC00 rfl gs d) rfl <| fun h => congrArg₂ Instr.czc (fieldSrc_wordSrcD rfl rfl (by simpa [Instr.wellFormed, Instr.operands] using h) d)
    (fieldD_wordSrcD rfl gs d)

theorem xor (gs : Operand) (d : BitVec 4) : Statement (Instr.xor gs d) :=
  of_row 51 _ rfl (wordSrcD_FC00 rfl gs d) (wordSrcD_FC00 rfl gs d) rfl <| fun h => congrArg₂ Instr.xor (fieldSrc_wordSrcD rfl rfl (by simpa [Instr.wellFormed, Instr.operands] using h) d)
    (fieldD_wordSrcD rfl gs d)

theorem xop (gs : Operand) (d : BitVec 4) : Statement (Instr.xop gs d) :=
  of_row 54 _ rfl (wordSrcD_FC00 rfl gs d) (wordSrcD_FC00 rfl gs d) rfl <| fun h => congrArg₂ Instr.xop (fieldSrc_wordSrcD rfl rfl (by simpa [Instr.wellFormed, Instr.operands] using h) d)
    (fieldD_wordSrcD rfl gs d)

theorem ldcr (gs : Operand) (d : BitVec 4) : Statement (Instr.ldcr gs d) :=
  of_row 52 _ rfl (wordSrcD_FC00 rfl gs d) (wordSrcD_FC00 rfl gs d) rfl <| fun h => congrArg₂ Instr.ldcr (fieldSrc_wordSrcD rfl rfl (by simpa [Instr.wellFormed, Instr.operands] using h) d)
    (fieldD_wordSrcD rfl gs d)

theorem stcr (gs : Operand) (d : BitVec 4) : Statement (Instr.stcr gs d) :=
  of_row 53 _ rfl (wordSrcD_FC00 rfl gs d) (wordSrcD_FC00 rfl gs d) rfl <| fun h => congrArg₂ Instr.stcr (fieldSrc_wordSrcD rfl rfl (by simpa [Instr.wellFormed, Instr.operands] using h) d)
    (fieldD_wordSrcD rfl gs d)

theorem mpy (gs : Operand) (d : BitVec 4) : Statement (Instr.mpy gs d) :=
  of_row 55 _ rfl (wordSrcD_FC00 rfl gs d) (wordSrcD_FC00 rfl gs d) rfl <| fun h => congrArg₂ Instr.mpy (fieldSrc_wordSrcD rfl rfl (by simpa [Instr.wellFormed, Instr.operands] using h) d)
    (fieldD_wordSrcD rfl gs d)

theorem div (gs : Operand) (d : BitVec 4) : Statement (Instr.div gs d) :=
  of_row 56 _ rfl (wordSrcD_FC00 rfl gs d) (wordSrcD_FC00 rfl gs d) rfl <| fun h => congrArg₂ Instr.div (fieldSrc_wordSrcD rfl rfl (by simpa [Instr.wellFormed, Instr.operands] using h) d)
    (fieldD_wordSrcD rfl gs d)

theorem szc (gs gd : Operand) : Statement (Instr.szc gs gd) :=
  of_row 57 _ rfl (wordSrcDst_F000 rfl gs gd) (wordSrcDst_F000 rfl gs gd) rfl <| fun h => congrArg₂ Instr.szc
    (fieldSrc_wordSrcDst rfl rfl (by simp [Instr.wellFormed, Instr.operands] at h; exact h.1) gd)
    (fieldDst_wordSrcDst rfl rfl (by simp [Instr.wellFormed, Instr.operands] at h; exact h.2) gs)

theorem szcb (gs gd : Operand) : Statement (Instr.szcb gs gd) :=
  of_row 58 _ rfl (wordSrcDst_F000 rfl gs gd) (wordSrcDst_F000 rfl gs gd) rfl <| fun h => congrArg₂ Instr.szcb
    (fieldSrc_wordSrcDst rfl rfl (by simp [Instr.wellFormed, Instr.operands] at h; exact h.1) gd)
    (fieldDst_wordSrcDst rfl rfl (by simp [Instr.wellFormed, Instr.operands] at h; exact h.2) gs)

theorem s (gs gd : Operand) : Statement (Instr.s gs gd) :=
  of_row 59 _ rfl (wordSrcDst_F000 rfl gs gd) (wordSrcDst_F000 rfl gs gd) rfl <| fun h => congrArg₂ Instr.s
    (fieldSrc_wordSrcDst rfl rfl (by simp [Instr.wellFormed, Instr.operands] at h; exact h.1) gd)
    (fieldDst_wordSrcDst rfl rfl (by simp [Instr.wellFormed, Instr.operands] at h; exact h.2) gs)

theorem sb (gs gd : Operand) : Statement (Instr.sb gs gd) :=
  of_row 60 _ rfl (wordSrcDst_F000 rfl gs gd) (wordSrcDst_F000 rfl gs gd) rfl <| fun h => congrArg₂ Instr.sb
    (fieldSrc_wordSrcDst rfl rfl (by simp [Instr.wellFormed, Instr.operands] at h; exact h.1) gd)
    (fieldDst_wordSrcDst rfl rfl (by simp [Instr.wellFormed, Instr.operands] at h; exact h.2) gs)

theorem c (gs gd : Operand) : Statement (Instr.c gs gd) :=
  of_row 61 _ rfl (wordSrcDst_F000 rfl gs gd) (wordSrcDst_F000 rfl gs gd) rfl <| fun h => congrArg₂ Instr.c
    (fieldSrc_wordSrcDst rfl rfl (by simp [Instr.wellFormed, Instr.operands] at h; exact h.1) gd)
    (fieldDst_wordSrcDst rfl rfl (by simp [Instr.wellFormed, Instr.operands] at h; exact h.2) gs)

theorem cb (gs gd : Operand) : Statement (Instr.cb gs gd) :=
  of_row 62 _ rfl (wordSrcDst_F000 rfl gs gd) (wordSrcDst_F000 rfl gs gd) rfl <| fun h => congrArg₂ Instr.cb
    (fieldSrc_wordSrcDst rfl rfl (by simp [Instr.wellFormed, Instr.operands] at h; exact h.1) gd)
    (fieldDst_wordSrcDst rfl rfl (by simp [Instr.wellFormed, Instr.operands] at h; exact h.2) gs)

theorem a (gs gd : Operand) : Statement (Instr.a gs gd) :=
  of_row 63 _ rfl (wordSrcDst_F000 rfl gs gd) (wordSrcDst_F000 rfl gs gd) rfl <| fun h => congrArg₂ Instr.a
    (fieldSrc_wordSrcDst rfl rfl (by simp [Instr.wellFormed, Instr.operands] at h; exact h.1) gd)
    (fieldDst_wordSrcDst rfl rfl (by simp [Instr.wellFormed, Instr.operands] at h; exact h.2) gs)

theorem ab (gs gd : Operand) : Statement (Instr.ab gs gd) :=
  of_row 64 _ rfl (wordSrcDst_F000 rfl gs gd) (wordSrcDst_F000 rfl gs gd) rfl <| fun h => congrArg₂ Instr.ab
    (fieldSrc_wordSrcDst rfl rfl (by simp [Instr.wellFormed, Instr.operands] at h; exact h.1) gd)
    (fieldDst_wordSrcDst rfl rfl (by simp [Instr.wellFormed, Instr.operands] at h; exact h.2) gs)

theorem mov (gs gd : Operand) : Statement (Instr.mov gs gd) :=
  of_row 65 _ rfl (wordSrcDst_F000 rfl gs gd) (wordSrcDst_F000 rfl gs gd) rfl <| fun h => congrArg₂ Instr.mov
    (fieldSrc_wordSrcDst rfl rfl (by simp [Instr.wellFormed, Instr.operands] at h; exact h.1) gd)
    (fieldDst_wordSrcDst rfl rfl (by simp [Instr.wellFormed, Instr.operands] at h; exact h.2) gs)

theorem movb (gs gd : Operand) : Statement (Instr.movb gs gd) :=
  of_row 66 _ rfl (wordSrcDst_F000 rfl gs gd) (wordSrcDst_F000 rfl gs gd) rfl <| fun h => congrArg₂ Instr.movb
    (fieldSrc_wordSrcDst rfl rfl (by simp [Instr.wellFormed, Instr.operands] at h; exact h.1) gd)
    (fieldDst_wordSrcDst rfl rfl (by simp [Instr.wellFormed, Instr.operands] at h; exact h.2) gs)

theorem soc (gs gd : Operand) : Statement (Instr.soc gs gd) :=
  of_row 67 _ rfl (wordSrcDst_F000 rfl gs gd) (wordSrcDst_F000 rfl gs gd) rfl <| fun h => congrArg₂ Instr.soc
    (fieldSrc_wordSrcDst rfl rfl (by simp [Instr.wellFormed, Instr.operands] at h; exact h.1) gd)
    (fieldDst_wordSrcDst rfl rfl (by simp [Instr.wellFormed, Instr.operands] at h; exact h.2) gs)

theorem socb (gs gd : Operand) : Statement (Instr.socb gs gd) :=
  of_row 68 _ rfl (wordSrcDst_F000 rfl gs gd) (wordSrcDst_F000 rfl gs gd) rfl <| fun h => congrArg₂ Instr.socb
    (fieldSrc_wordSrcDst rfl rfl (by simp [Instr.wellFormed, Instr.operands] at h; exact h.1) gd)
    (fieldDst_wordSrcDst rfl rfl (by simp [Instr.wellFormed, Instr.operands] at h; exact h.2) gs)

end Sys2Proof.Laws.SelectsItsRow
end

