-- ==== Sys2Proof/Tests/Slice0.lean ====
section
/-! SUPPORT. Tests: decoding, the spec's vectors (95_test_vectors.md, two at most for an instruction), the
well-formedness smoke test, and a witness for every statement with hypotheses. Expected values are the spec's. -/

namespace Sys2Proof.Tests

open Sys2Proof Sys2Proof.Machine

set_option Elab.async false

/-! ## Helpers -/

/-- The vectors' common start (95_test_vectors.md, Conventions) with a status and the words of memory named. -/
def start (st : Nat) (words : List (Nat × Nat)) : State :=
  { State.reset with
    wp := 0x8300#16
    pc := 0x0100#16
    st := BitVec.ofNat 16 st
    intSamples := [false]
    mem := words.foldl (fun m w => m.setWord (BitVec.ofNat 16 w.1) (BitVec.ofNat 16 w.2)) [] }

/-- The words at some addresses of a state. -/
def watched (t : State) (watch : List Nat) : List Nat := watch.map fun a => (t.wordAt (BitVec.ofNat 16 a)).toNat

/-- After one step: the words watched, WP, PC, ST and the cycles. -/
def after (s : State) (watch : List Nat) : Option (List Nat × Nat × Nat × Nat × Nat) :=
  match step s with
  | .next t => some (watched t watch, t.wp.toNat, t.pc.toNat, t.st.toNat, t.cycles)
  | .fault _ => none
  | .refused _ => none

/-- The calls an outside observer of a vector sees: CRU writes and pulses. -/
def isEvent : PortCall → Bool
  | .writeBit _ _ | .pulse _ => true
  | .readWord _ _ | .writeWord _ _ | .readBit _ _ => false

/-- After one step: the events in order, PC and ST. -/
def events (s : State) : Option (List PortCall × Nat × Nat) :=
  match step s with
  | .next t => some ((t.calls.filter isEvent).reverse, t.pc.toNat, t.st.toNat)
  | .fault _ => none
  | .refused _ => none

/-- After one step: the illegal words counted and `idle`. -/
def counts (s : State) : Option (Nat × Bool) :=
  match step s with
  | .next t => some (t.illegalCount, t.idle)
  | .fault _ => none
  | .refused _ => none

/-- The words watched after one instruction's meaning. -/
def results (i : Instr) (s : State) (watch : List Nat) : Option (List Nat) :=
  match exec i s with
  | .next t => some (watched t watch)
  | .fault _ => none
  | .refused _ => none

/-- R1 pointing at two words, and the address word 4 at PC. -/
def twoWords : State := start 0x0000 [(0x0100, 0x0004), (0x2000, 0xBEEF), (0x2002, 0x0001), (0x8302, 0x2000)]

/-- What the bytes at PC decode to. -/
def decodesTo (s : State) : Option Instr :=
  match decode s.params.unusedBitsAlias
      (bytesOfWord (s.answerAt s.pc) ++ bytesOfWord ((s.readWord s.pc).2.answerAt (s.fetchNext s.pc))) with
  | .ok (i, _) => some i
  | .error _ => none

/-- A state whose next reads hooks answer (00_scope.md R7). -/
def hooked (answers : List (Option Word)) (s : State) : State := hostDriveReads answers s

/-- Two INC R1, R1 being 0. -/
def twoIncs : State := start 0x0000 [(0x0100, 0x0581), (0x0102, 0x0581), (0x8302, 0x0000)]

/-- The suspend changes still to come after a step. -/
def changesLeft : StepOutcome → Option (List (Option Bool))
  | .next t => some t.suspendChanges
  | .fault _ => none
  | .refused _ => none

/-- A run of 1000 cycles over two INC R1 with what collaborators do to `suspended`: the flag, R1 and the cycles. -/
def suspendAfter (changes : List (Option Bool)) : Option (List Bool × List Nat × Nat) :=
  match hostRun 1000 (hostDriveSuspend changes twoIncs) with
  | .next (n, t) => some ([t.suspended], watched t [0x8302], n)
  | .fault _ => none
  | .refused _ => none

/-- The cycles a run consumes and whether it leaves the machine idle. -/
def consumed (budget : Nat) (s : State) : Option (Nat × Bool) :=
  match hostRun budget s with
  | .next (n, t) => some (n, t.idle)
  | .fault _ => none
  | .refused _ => none

/-! ## Decoding: one word for every instruction, written bit by bit from the formats of 30_encoding.md -/

/-- Format VIII (R91): `0000001ooooo wwww`-shaped words, opcode column of R94, then the immediate. -/
theorem test_decode_formatVIII :
    [0b0000001000000011#16, 0b0000001000100001#16, 0b0000001001001111#16, 0b0000001001100000#16,
      0b0000001010001010#16, 0b0000001010100101#16, 0b0000001011000000#16, 0b0000001011100111#16,
      0b0000001100000000#16].map (decodeWords false · 0xFFF5#16) =
    [some (.li 3#4 0xFFF5#16), some (.ai 1#4 0xFFF5#16), some (.andi 15#4 0xFFF5#16), some (.ori 0#4 0xFFF5#16),
      some (.ci 10#4 0xFFF5#16), some (.stwp 5#4), some (.stst 0#4), some (.lwpi 0xFFF5#16),
      some (.limi 0xFFF5#16)] := by
  decide

/-- Format VII (R90). -/
theorem test_decode_formatVII :
    [0b0000001101000000#16, 0b0000001101100000#16, 0b0000001110000000#16, 0b0000001110100000#16,
      0b0000001111000000#16, 0b0000001111100000#16].map (decodeWords false · 0#16) =
    [some .idle, some .rset, some .rtwp, some .ckon, some .ckof, some .lrex] := by
  decide

/-- Format VI (R89): opcode in bits 15 to 6, Ts in 5 to 4, S in 3 to 0. -/
theorem test_decode_formatVI :
    [0b0000010000110001#16, 0b0000010001010001#16, 0b0000010010000001#16, 0b0000010011111111#16,
      0b0000010100100000#16, 0b0000010101000001#16, 0b0000010110110001#16].map (decodeWords false · 0#16) =
    [some (.blwp (.inc 1#4)), some (.b (.ind 1#4)), some (.x (.reg 1#4)), some (.clr (.inc 15#4)),
      some (.neg .sym), some (.inv (.reg 1#4)), some (.inc (.inc 1#4))] ∧
    [0b0000010111101111#16, 0b0000011000000000#16, 0b0000011001000001#16, 0b0000011010111011#16,
      0b0000011011100000#16, 0b0000011100010001#16, 0b0000011101110001#16].map (decodeWords false · 0#16) =
    [some (.inct (.idx 15#4)), some (.dec (.reg 0#4)), some (.dect (.reg 1#4)), some (.bl (.inc 11#4)),
      some (.swpb .sym), some (.seto (.ind 1#4)), some (.abs (.inc 1#4))] := by
  decide

/-- Format V (R88): count in bits 7 to 4, register in 3 to 0. -/
theorem test_decode_formatV :
    [0b0000100011110001#16, 0b0000100100011110#16, 0b0000101000001000#16, 0b0000101110000001#16].map
      (decodeWords false · 0#16) =
    [some (.sra 15#4 1#4), some (.srl 1#4 14#4), some (.sla 0#4 8#4), some (.src 8#4 1#4)] := by
  decide

/-- Format II (R85): the displacement in bits 7 to 0. -/
theorem test_decode_formatII :
    [0b0001000011111111#16, 0b0001000100000101#16, 0b0001001010000000#16, 0b0001001101111111#16,
      0b0001010000000000#16, 0b0001010111111110#16, 0b0001011000000001#16, 0b0001011100000010#16].map
      (decodeWords false · 0#16) =
    [some (.jmp 0xFF#8), some (.jlt 5#8), some (.jle 0x80#8), some (.jeq 0x7F#8),
      some (.jhe 0#8), some (.jgt 0xFE#8), some (.jne 1#8), some (.jnc 2#8)] ∧
    [0b0001100000000011#16, 0b0001100100000100#16, 0b0001101000000101#16, 0b0001101100000110#16,
      0b0001110000000111#16, 0b0001110111111111#16, 0b0001111001111111#16, 0b0001111100000010#16].map
      (decodeWords false · 0#16) =
    [some (.joc 3#8), some (.jno 4#8), some (.jl 5#8), some (.jh 6#8),
      some (.jop 7#8), some (.sbo 0xFF#8), some (.sbz 0x7F#8), some (.tb 2#8)] := by
  decide

/-- Formats III, IV and IX (R86, R87, R92): D, the count or the number in bits 9 to 6, Ts in 5 to 4, S in 3 to 0. -/
theorem test_decode_formatsIII_IV_IX :
    [0b0010000010110001#16, 0b0010010010000001#16, 0b0010100010100011#16, 0b0010111111110001#16,
      0b0011001000100000#16, 0b0011010011110001#16, 0b0011101111000001#16, 0b0011110011000100#16].map
      (decodeWords false · 0#16) =
    [some (.coc (.inc 1#4) 2#4), some (.czc (.reg 1#4) 2#4), some (.xor (.idx 3#4) 2#4), some (.xop (.inc 1#4) 15#4),
      some (.ldcr .sym 8#4), some (.stcr (.inc 1#4) 3#4), some (.mpy (.reg 1#4) 15#4),
      some (.div (.reg 4#4) 3#4)] := by
  decide

/-- Format I (R84): Td in bits 11 to 10, D in 9 to 6, Ts in 5 to 4, S in 3 to 0. -/
theorem test_decode_formatI :
    [0b0100000001000001#16, 0b0101000010000001#16, 0b0110000010000001#16, 0b0111000010110001#16,
      0b1000110001110001#16, 0b1001100000100000#16].map (decodeWords false · 0#16) =
    [some (.szc (.reg 1#4) (.reg 1#4)), some (.szcb (.reg 1#4) (.reg 2#4)), some (.s (.reg 1#4) (.reg 2#4)),
      some (.sb (.inc 1#4) (.reg 2#4)), some (.c (.inc 1#4) (.inc 1#4)), some (.cb .sym .sym)] ∧
    [0b1010100010110001#16, 0b1011000010000001#16, 0b1100010001100001#16, 0b1101100001000001#16,
      0b1110111111011110#16, 0b1111000010000001#16].map (decodeWords false · 0#16) =
    [some (.a (.inc 1#4) (.idx 2#4)), some (.ab (.reg 1#4) (.reg 2#4)), some (.mov (.idx 1#4) (.ind 1#4)),
      some (.movb (.reg 1#4) (.idx 1#4)), some (.soc (.ind 14#4) (.inc 15#4)),
      some (.socb (.reg 1#4) (.reg 2#4))] := by
  decide

/-- The edges of the illegal ranges (R97), under both settings of UNUSED_BITS_ALIAS. -/
theorem test_illegal_edges :
    [0x0000#16, 0x01FF#16, 0x0320#16, 0x033F#16, 0x0780#16, 0x07FF#16, 0x0C00#16, 0x0FFF#16].all
      (fun w => (findRow false w).isNone && (findRow true w).isNone) = true ∧
    [0x0200#16, 0x0300#16, 0x0340#16, 0x077F#16, 0x0800#16, 0x0BFF#16, 0x1000#16, 0xFFFF#16].all
      (fun w => (findRow false w).isSome && (findRow true w).isSome) = true ∧
    [0x0210#16, 0x031F#16, 0x0341#16, 0x03FF#16].all
      (fun w => (findRow false w).isNone && (findRow true w).isSome) = true := by
  decide

/-- The host's question about LI R3,0x1234: the second word is bits 31 to 16. -/
theorem test_decodeTableWord :
    decodeTableWord 32 0x12340203 = some (.li 3#4 0x1234#16) ∧ decodeTableWord 16 0x0203 = some (.li 3#4 0#16) ∧
    decodeTableWord 16 0x0000 = none := by
  decide

/-! ## Well-formedness: register 0 is no index register (R93, R118) -/

/-- The check refuses `@a(R0)` as a source, as a destination and as a single operand, and accepts its neighbours. -/
theorem test_wellFormed_refuses_index_zero :
    Instr.wellFormed (.mov (.idx 0#4) (.reg 1#4)) = false ∧ Instr.wellFormed (.mov (.reg 1#4) (.idx 0#4)) = false ∧
    Instr.wellFormed (.clr (.idx 0#4)) = false ∧ Instr.wellFormed (.xop (.idx 0#4) 3#4) = false ∧
    Instr.wellFormed (.mov (.idx 1#4) .sym) = true := by
  decide

/-! ## The spec's vectors, each one step -/

/-- V1: `LI R3,0`. -/
theorem test_li_V1 : after (start 0xDC0F [(0x0100, 0x0203), (0x0102, 0x0000), (0x8306, 0x5555)]) [0x8306] =
    some ([0x0000], 0x8300, 0x0104, 0x3C0F, 12) := by
  decide

/-- V2: `LI R3,0x8000`. -/
theorem test_li_V2 : after (start 0x2000 [(0x0100, 0x0203), (0x0102, 0x8000)]) [0x8306] =
    some ([0x8000], 0x8300, 0x0104, 0x8000, 12) := by
  decide

/-- V4: `AI R1,1`. -/
theorem test_ai_V4 : after (start 0x0000 [(0x0100, 0x0221), (0x0102, 0x0001), (0x8302, 0x7FFF)]) [0x8302] =
    some ([0x8000], 0x8300, 0x0104, 0x8800, 14) := by
  decide

/-- V5: `AI R1,0x8000`. -/
theorem test_ai_V5 : after (start 0x0000 [(0x0100, 0x0221), (0x0102, 0x8000), (0x8302, 0x8000)]) [0x8302] =
    some ([0x0000], 0x8300, 0x0104, 0x3800, 14) := by
  decide

/-- V9: `ANDI R1,0`. -/
theorem test_andi_V9 : after (start 0xC000 [(0x0100, 0x0241), (0x0102, 0x0000), (0x8302, 0xFFFF)]) [0x8302] =
    some ([0x0000], 0x8300, 0x0104, 0x2000, 14) := by
  decide

/-- V10: `ORI R1,0`. -/
theorem test_ori_V10 : after (start 0xC000 [(0x0100, 0x0261), (0x0102, 0x0000), (0x8302, 0x0000)]) [] =
    some ([], 0x8300, 0x0104, 0x2000, 14) := by
  decide

/-- V11: `CI R1,1`. -/
theorem test_ci_V11 : after (start 0x0000 [(0x0100, 0x0281), (0x0102, 0x0001), (0x8302, 0x8000)]) [] =
    some ([], 0x8300, 0x0104, 0x8000, 14) := by
  decide

/-- V12: `CI R1,0x8000`. -/
theorem test_ci_V12 : after (start 0x0000 [(0x0100, 0x0281), (0x0102, 0x8000), (0x8302, 0x0001)]) [] =
    some ([], 0x8300, 0x0104, 0x4000, 14) := by
  decide

/-- V14: `STWP R5`. -/
theorem test_stwp_V14 : after { start 0x0000 [(0x0100, 0x02A5)] with wp := 0x8301#16 } [0x830A] =
    some ([0x8301], 0x8301, 0x0102, 0x0000, 8) := by
  decide

/-- V15: `STST R0`. -/
theorem test_stst_V15 : after (start 0xC3F2 [(0x0100, 0x02C0)]) [0x8300] =
    some ([0xC3F2], 0x8300, 0x0102, 0xC3F2, 8) := by
  decide

/-- V16: `LWPI 0x8321`. -/
theorem test_lwpi_V16 : after (start 0x0000 [(0x0100, 0x02E0), (0x0102, 0x8321)]) [] =
    some ([], 0x8321, 0x0104, 0x0000, 10) := by
  decide

/-- V17: `LWPI 0x8320`. -/
theorem test_lwpi_V17 : after (start 0x0000 [(0x0100, 0x02E7), (0x0102, 0x8320)]) [] =
    some ([], 0x8320, 0x0104, 0x0000, 10) := by
  decide

/-- V18: `LIMI 0xFFF5`. -/
theorem test_limi_V18 : after (start 0xFE0A [(0x0100, 0x0300), (0x0102, 0xFFF5)]) [] =
    some ([], 0x8300, 0x0104, 0xFE05, 16) := by
  decide

/-- V192: `LIMI 2`. -/
theorem test_limi_V192 : after { start 0xC000 [(0x0004, 0x83C0), (0x0006, 0x0500), (0x0100, 0x0300),
      (0x0102, 0x0002)] with intSamples := [true] } [0x83DA, 0x83DC, 0x83DE] =
    some ([0x8300, 0x0104, 0xC002], 0x83C0, 0x0500, 0xC000, 38) := by
  decide

/-- V21: `A *R1+,@4(R2)`. -/
theorem test_a_V21 : after (start 0x0000 [(0x0100, 0xA8B1), (0x0102, 0x0004), (0x2000, 0x0001),
      (0x2104, 0x00FF), (0x8302, 0x2000), (0x8304, 0x2100)]) [0x2104, 0x8302] =
    some ([0x0100, 0x2002], 0x8300, 0x0104, 0xC000, 30) := by
  decide

/-- V23: `A @0x2001,R2`. -/
theorem test_a_V23 : after (start 0x0000 [(0x0100, 0xA0A0), (0x0102, 0x2001), (0x2000, 0x7FFF),
      (0x8304, 0x0001)]) [0x8304] =
    some ([0x8000], 0x8300, 0x0104, 0x8800, 22) := by
  decide

/-- V24: `AB R1,R2`. -/
theorem test_ab_V24 : after (start 0x0000 [(0x0100, 0xB081), (0x8302, 0xFF00), (0x8304, 0x01AA)]) [0x8304] =
    some ([0x00AA], 0x8300, 0x0102, 0x3000, 14) := by
  decide

/-- V26: `AB @0x2001,@0x2003`. -/
theorem test_ab_V26 : after (start 0x0000 [(0x0100, 0xB820), (0x0102, 0x2001), (0x0104, 0x2003),
      (0x2000, 0xAA03), (0x2002, 0xBB04)]) [0x2002] =
    some ([0xBB07], 0x8300, 0x0106, 0xC400, 30) := by
  decide

/-- V28: `S R1,R2`. -/
theorem test_s_V28 : after (start 0x0000 [(0x0100, 0x6081), (0x8302, 0x0001), (0x8304, 0x8000)]) [0x8304] =
    some ([0x7FFF], 0x8300, 0x0102, 0xD800, 14) := by
  decide

/-- V29: `S R1,R2`. -/
theorem test_s_V29 : after (start 0x0000 [(0x0100, 0x6081), (0x8302, 0x8000), (0x8304, 0x0000)]) [0x8304] =
    some ([0x8000], 0x8300, 0x0102, 0x8800, 14) := by
  decide

/-- V31: `SB *R1+,R2`. -/
theorem test_sb_V31 : after (start 0x0000 [(0x0100, 0x70B1), (0x2000, 0x0006), (0x8302, 0x2001),
      (0x8304, 0x0500)]) [0x8302, 0x8304] =
    some ([0x2002, 0xFF00], 0x8300, 0x0102, 0x8000, 20) := by
  decide

/-- V32: `C *R1+,*R1+`. -/
theorem test_c_V32 : after (start 0x0000 [(0x0100, 0x8C71), (0x2000, 0x0005), (0x2002, 0x0005),
      (0x8302, 0x2000)]) [0x8302] =
    some ([0x2004], 0x8300, 0x0102, 0x2000, 30) := by
  decide

/-- V33: `C R1,R2`. -/
theorem test_c_V33 : after (start 0x0000 [(0x0100, 0x8081), (0x8302, 0x7FFF), (0x8304, 0x8000)]) [] =
    some ([], 0x8300, 0x0102, 0x4000, 14) := by
  decide

/-- V34: `CB R1,R2`. -/
theorem test_cb_V34 : after (start 0x0000 [(0x0100, 0x9081), (0x8302, 0x8000), (0x8304, 0x8000)]) [] =
    some ([], 0x8300, 0x0102, 0x2400, 14) := by
  decide

/-- V35: `CB @0x2000,@0x2001`. -/
theorem test_cb_V35 : after (start 0x0000 [(0x0100, 0x9820), (0x0102, 0x2000), (0x0104, 0x2001),
      (0x2000, 0x03FF)]) [] =
    some ([], 0x8300, 0x0106, 0x4000, 30) := by
  decide

/-- V38: `MOV *R1+,R1`. -/
theorem test_mov_V38 : after (start 0x0000 [(0x0100, 0xC071), (0x2000, 0x1234), (0x8302, 0x2000)]) [0x8302] =
    some ([0x1234], 0x8300, 0x0102, 0xC000, 22) := by
  decide

/-- V40: `MOV *R1+,@4(R1)`. -/
theorem test_mov_V40 : after (start 0x0000 [(0x0100, 0xC871), (0x0102, 0x0004), (0x2000, 0x00AA),
      (0x2004, 0x0000), (0x8302, 0x2000)]) [0x2006, 0x8302] =
    some ([0x00AA, 0x2002], 0x8300, 0x0104, 0xC000, 30) := by
  decide

/-- V42: `MOVB *R1+,*R1+`. -/
theorem test_movb_V42 : after (start 0x0000 [(0x0100, 0xDC71), (0x2000, 0x12CD), (0x8302, 0x2000)])
      [0x2000, 0x8302] =
    some ([0x1212, 0x2002], 0x8300, 0x0102, 0xC000, 26) := by
  decide

/-- V44: `MOVB R1,@0x2001`. -/
theorem test_movb_V44 : after (start 0x0000 [(0x0100, 0xD801), (0x0102, 0x2001), (0x2000, 0xAAAA),
      (0x8302, 0x7F00)]) [0x2000] =
    some ([0xAA7F], 0x8300, 0x0104, 0xC400, 22) := by
  decide

/-- V46: `SOC R1,R2`. -/
theorem test_soc_V46 : after (start 0xC000 [(0x0100, 0xE081), (0x8302, 0x0000), (0x8304, 0x0000)]) [] =
    some ([], 0x8300, 0x0102, 0x2000, 14) := by
  decide

/-- V47: `SOCB R1,R2`. -/
theorem test_socb_V47 : after (start 0x0000 [(0x0100, 0xF081), (0x8302, 0x0100), (0x8304, 0x0200)]) [0x8304] =
    some ([0x0300], 0x8300, 0x0102, 0xC000, 14) := by
  decide

/-- V48: `SZC R1,R1`. -/
theorem test_szc_V48 : after (start 0x0000 [(0x0100, 0x4041), (0x8302, 0xFFFF)]) [0x8302] =
    some ([0x0000], 0x8300, 0x0102, 0x2000, 14) := by
  decide

/-- V49: `SZCB R1,R2`. -/
theorem test_szcb_V49 : after (start 0x0000 [(0x0100, 0x5081), (0x8302, 0xFF00), (0x8304, 0xFF12)]) [0x8304] =
    some ([0x0012], 0x8300, 0x0102, 0x2000, 14) := by
  decide

/-- V50: `COC R1,R2`. -/
theorem test_coc_V50 : after (start 0xD800 [(0x0100, 0x2081), (0x8302, 0x0000), (0x8304, 0x0000)]) [] =
    some ([], 0x8300, 0x0102, 0xF800, 14) := by
  decide

/-- V51: `COC *R1+,R2`. -/
theorem test_coc_V51 : after (start 0x0000 [(0x0100, 0x20B1), (0x2000, 0x0100), (0x8302, 0x2000),
      (0x8304, 0x00FF)]) [0x8302] =
    some ([0x2002], 0x8300, 0x0102, 0x0000, 22) := by
  decide

/-- V52: `CZC R1,R2`. -/
theorem test_czc_V52 : after (start 0x0000 [(0x0100, 0x2481), (0x8302, 0xFFFF), (0x8304, 0x0000)]) [] =
    some ([], 0x8300, 0x0102, 0x2000, 14) := by
  decide

/-- V53: `XOR R1,R1`. -/
theorem test_xor_V53 : after (start 0x0000 [(0x0100, 0x2841), (0x8302, 0x1234)]) [0x8302] =
    some ([0x0000], 0x8300, 0x0102, 0x2000, 14) := by
  decide

/-- V54: `XOR @2(R3),R2`. -/
theorem test_xor_V54 : after (start 0x0000 [(0x0100, 0x28A3), (0x0102, 0x0002), (0x2002, 0x0F0F),
      (0x8304, 0x00FF), (0x8306, 0x2000)]) [0x8304] =
    some ([0x0FF0], 0x8300, 0x0104, 0xC000, 22) := by
  decide

/-- V55: `CLR R1`. -/
theorem test_clr_V55 : after (start 0xFC00 [(0x0100, 0x04C1), (0x8302, 0x1234)]) [0x8302] =
    some ([0x0000], 0x8300, 0x0102, 0xFC00, 10) := by
  decide

/-- V56: `CLR *R1+ (R1 points at itself)`. -/
theorem test_clr_V56 : after (start 0x0000 [(0x0100, 0x04F1), (0x8302, 0x8302)]) [0x8302] =
    some ([0x0002], 0x8300, 0x0102, 0x0000, 18) := by
  decide

/-- V57: `INC *R1+ (R1 points at itself)`. -/
theorem test_inc_V57 : after (start 0x0000 [(0x0100, 0x05B1), (0x8302, 0x8302)]) [0x8302] =
    some ([0x8305], 0x8300, 0x0102, 0x8000, 18) := by
  decide

/-- V62: `INC R1`. -/
theorem test_inc_V62 : after (start 0x0000 [(0x0100, 0x0581), (0x8302, 0x7FFF)]) [0x8302] =
    some ([0x8000], 0x8300, 0x0102, 0x8800, 10) := by
  decide

/-- V58: `NEG R1`. -/
theorem test_neg_V58 : after (start 0x0000 [(0x0100, 0x0501), (0x8302, 0x0000)]) [] =
    some ([], 0x8300, 0x0102, 0x3000, 12) := by
  decide

/-- V59: `NEG R1`. -/
theorem test_neg_V59 : after (start 0x0000 [(0x0100, 0x0501), (0x8302, 0x8000)]) [] =
    some ([], 0x8300, 0x0102, 0x8800, 12) := by
  decide

/-- V61: `INV R1`. -/
theorem test_inv_V61 : after (start 0x1800 [(0x0100, 0x0541), (0x8302, 0x00FF)]) [0x8302] =
    some ([0xFF00], 0x8300, 0x0102, 0x9800, 10) := by
  decide

/-- V64: `INCT R1`. -/
theorem test_inct_V64 : after (start 0x0000 [(0x0100, 0x05C1), (0x8302, 0x7FFF)]) [0x8302] =
    some ([0x8001], 0x8300, 0x0102, 0x8800, 10) := by
  decide

/-- V66: `INCT R1`. -/
theorem test_inct_V66 : after (start 0x0000 [(0x0100, 0x05C1), (0x8302, 0xFFFF)]) [0x8302] =
    some ([0x0001], 0x8300, 0x0102, 0xD000, 10) := by
  decide

/-- V67: `DEC R1`. -/
theorem test_dec_V67 : after (start 0x0000 [(0x0100, 0x0601), (0x8302, 0x8000)]) [0x8302] =
    some ([0x7FFF], 0x8300, 0x0102, 0xD800, 10) := by
  decide

/-- V68: `DEC R1`. -/
theorem test_dec_V68 : after (start 0x0000 [(0x0100, 0x0601), (0x8302, 0x0001)]) [0x8302] =
    some ([0x0000], 0x8300, 0x0102, 0x3000, 10) := by
  decide

/-- V69: `DECT R1`. -/
theorem test_dect_V69 : after (start 0x0000 [(0x0100, 0x0641), (0x8302, 0x0000)]) [0x8302] =
    some ([0xFFFE], 0x8300, 0x0102, 0x8000, 10) := by
  decide

/-- V70: `DECT R1`. -/
theorem test_dect_V70 : after (start 0x0000 [(0x0100, 0x0641), (0x8302, 0x8001)]) [0x8302] =
    some ([0x7FFF], 0x8300, 0x0102, 0xD800, 10) := by
  decide

/-- V72: `SWPB @0x2000`. -/
theorem test_swpb_V72 : after (start 0x2000 [(0x0100, 0x06E0), (0x0102, 0x2000), (0x2000, 0x00FF)]) [0x2000] =
    some ([0xFF00], 0x8300, 0x0104, 0x2000, 18) := by
  decide

/-- V73: `SETO *R1`. -/
theorem test_seto_V73 : after (start 0x0000 [(0x0100, 0x0711), (0x2000, 0x0000), (0x8302, 0x2000)]) [0x2000] =
    some ([0xFFFF], 0x8300, 0x0102, 0x0000, 14) := by
  decide

/-- V74: `ABS R1`. -/
theorem test_abs_V74 : after (start 0x1000 [(0x0100, 0x0741), (0x8302, 0x8000)]) [] =
    some ([], 0x8300, 0x0102, 0x8800, 14) := by
  decide

/-- V77: `ABS *R1+`. -/
theorem test_abs_V77 : after (start 0x0000 [(0x0100, 0x0771), (0x2000, 0xFFFF), (0x8302, 0x2000)])
      [0x2000, 0x8302] =
    some ([0x0001, 0x2002], 0x8300, 0x0102, 0x8000, 22) := by
  decide

/-- V79: `SRA R1,0`. -/
theorem test_sra_V79 : after (start 0x0000 [(0x0100, 0x0801), (0x8300, 0xFFF3), (0x8302, 0x7FFF)]) [0x8302] =
    some ([0x0FFF], 0x8300, 0x0102, 0xD000, 26) := by
  decide

/-- V90: `SRA R0,0`. -/
theorem test_sra_V90 : after (start 0x0000 [(0x0100, 0x0800), (0x8300, 0x8004)]) [0x8300] =
    some ([0xF800], 0x8300, 0x0102, 0x8000, 28) := by
  decide

/-- V81: `SRL R1,0`. -/
theorem test_srl_V81 : after (start 0x0000 [(0x0100, 0x0901), (0x8300, 0x0010), (0x8302, 0x8000)]) [0x8302] =
    some ([0x0000], 0x8300, 0x0102, 0x3000, 52) := by
  decide

/-- V82: `SRL R1,1`. -/
theorem test_srl_V82 : after (start 0x0800 [(0x0100, 0x0911), (0x8302, 0x0001)]) [0x8302] =
    some ([0x0000], 0x8300, 0x0102, 0x3800, 14) := by
  decide

/-- V84: `SLA R1,4`. -/
theorem test_sla_V84 : after (start 0x0000 [(0x0100, 0x0A41), (0x8302, 0xF800)]) [0x8302] =
    some ([0x8000], 0x8300, 0x0102, 0x9000, 20) := by
  decide

/-- V85: `SLA R1,2`. -/
theorem test_sla_V85 : after (start 0x0000 [(0x0100, 0x0A21), (0x8302, 0xA000)]) [0x8302] =
    some ([0x8000], 0x8300, 0x0102, 0x8800, 16) := by
  decide

/-- V87: `SRC R1,0`. -/
theorem test_src_V87 : after (start 0x0000 [(0x0100, 0x0B01), (0x8300, 0x0000), (0x8302, 0x8001)]) [] =
    some ([], 0x8300, 0x0102, 0x9000, 52) := by
  decide

/-- V89: `SRC R1,8`. -/
theorem test_src_V89 : after (start 0x0000 [(0x0100, 0x0B81), (0x8302, 0x12FF)]) [0x8302] =
    some ([0xFF12], 0x8300, 0x0102, 0x9000, 28) := by
  decide

/-- V93: `JMP -128 words`. -/
theorem test_jmp_V93 : after (start 0x0000 [(0x0100, 0x1080)]) [] = some ([], 0x8300, 0x0002, 0x0000, 10) := by
  decide

/-- V95: `JMP +1 at FFFE`. -/
theorem test_jmp_V95 : after { start 0x0000 [(0xFFFE, 0x1001)] with pc := 0xFFFE#16 } [] =
    some ([], 0x8300, 0x0002, 0x0000, 10) := by
  decide

/-- V96: `JLT`. -/
theorem test_jlt_V96 : after (start 0x8000 [(0x0100, 0x1105)]) [] = some ([], 0x8300, 0x010C, 0x8000, 10) := by
  decide

/-- V97: `JLT`. -/
theorem test_jlt_V97 : after (start 0x2000 [(0x0100, 0x1105)]) [] = some ([], 0x8300, 0x0102, 0x2000, 8) := by
  decide

/-- V98: `JLE`. -/
theorem test_jle_V98 : after (start 0xA000 [(0x0100, 0x1205)]) [] = some ([], 0x8300, 0x010C, 0xA000, 10) := by
  decide

/-- V99: `JLE`. -/
theorem test_jle_V99 : after (start 0x8000 [(0x0100, 0x1205)]) [] = some ([], 0x8300, 0x0102, 0x8000, 8) := by
  decide

/-- V100: `JEQ`. -/
theorem test_jeq_V100 : after (start 0x2000 [(0x0100, 0x1305)]) [] = some ([], 0x8300, 0x010C, 0x2000, 10) := by
  decide

/-- V101: `JEQ`. -/
theorem test_jeq_V101 : after (start 0xDC00 [(0x0100, 0x1305)]) [] = some ([], 0x8300, 0x0102, 0xDC00, 8) := by
  decide

/-- V102: `JHE`. -/
theorem test_jhe_V102 : after (start 0x4000 [(0x0100, 0x1405)]) [] = some ([], 0x8300, 0x0102, 0x4000, 8) := by
  decide

/-- V103: `JHE`. -/
theorem test_jhe_V103 : after (start 0x8000 [(0x0100, 0x1405)]) [] = some ([], 0x8300, 0x010C, 0x8000, 10) := by
  decide

/-- V104: `JGT`. -/
theorem test_jgt_V104 : after (start 0x4000 [(0x0100, 0x1505)]) [] = some ([], 0x8300, 0x010C, 0x4000, 10) := by
  decide

/-- V105: `JGT`. -/
theorem test_jgt_V105 : after (start 0x8000 [(0x0100, 0x1505)]) [] = some ([], 0x8300, 0x0102, 0x8000, 8) := by
  decide

/-- V106: `JNE`. -/
theorem test_jne_V106 : after (start 0x0000 [(0x0100, 0x1605)]) [] = some ([], 0x8300, 0x010C, 0x0000, 10) := by
  decide

/-- V107: `JNE`. -/
theorem test_jne_V107 : after (start 0x2000 [(0x0100, 0x1605)]) [] = some ([], 0x8300, 0x0102, 0x2000, 8) := by
  decide

/-- V108: `JNC`. -/
theorem test_jnc_V108 : after (start 0x1000 [(0x0100, 0x1705)]) [] = some ([], 0x8300, 0x0102, 0x1000, 8) := by
  decide

/-- V109: `JNC`. -/
theorem test_jnc_V109 : after (start 0xE000 [(0x0100, 0x1705)]) [] = some ([], 0x8300, 0x010C, 0xE000, 10) := by
  decide

/-- V110: `JOC`. -/
theorem test_joc_V110 : after (start 0x1000 [(0x0100, 0x1805)]) [] = some ([], 0x8300, 0x010C, 0x1000, 10) := by
  decide

/-- V111: `JOC`. -/
theorem test_joc_V111 : after (start 0x0000 [(0x0100, 0x1805)]) [] = some ([], 0x8300, 0x0102, 0x0000, 8) := by
  decide

/-- V112: `JNO`. -/
theorem test_jno_V112 : after (start 0x0800 [(0x0100, 0x1905)]) [] = some ([], 0x8300, 0x0102, 0x0800, 8) := by
  decide

/-- V113: `JNO`. -/
theorem test_jno_V113 : after (start 0x0000 [(0x0100, 0x1905)]) [] = some ([], 0x8300, 0x010C, 0x0000, 10) := by
  decide

/-- V114: `JL`. -/
theorem test_jl_V114 : after (start 0x4000 [(0x0100, 0x1A05)]) [] = some ([], 0x8300, 0x010C, 0x4000, 10) := by
  decide

/-- V115: `JL`. -/
theorem test_jl_V115 : after (start 0x2000 [(0x0100, 0x1A05)]) [] = some ([], 0x8300, 0x0102, 0x2000, 8) := by
  decide

/-- V116: `JH`. -/
theorem test_jh_V116 : after (start 0x8000 [(0x0100, 0x1B05)]) [] = some ([], 0x8300, 0x010C, 0x8000, 10) := by
  decide

/-- V117: `JH`. -/
theorem test_jh_V117 : after (start 0xA000 [(0x0100, 0x1B05)]) [] = some ([], 0x8300, 0x0102, 0xA000, 8) := by
  decide

/-- V118: `JOP`. -/
theorem test_jop_V118 : after (start 0x0400 [(0x0100, 0x1C05)]) [] = some ([], 0x8300, 0x010C, 0x0400, 10) := by
  decide

/-- V119: `JOP`. -/
theorem test_jop_V119 : after (start 0xFBFF [(0x0100, 0x1C05)]) [] = some ([], 0x8300, 0x0102, 0xFBFF, 8) := by
  decide

/-- V121: `B *R1`. -/
theorem test_b_V121 : after (start 0x0000 [(0x0100, 0x0451), (0x8302, 0x2001)]) [] =
    some ([], 0x8300, 0x2000, 0x0000, 12) := by
  decide

/-- V122: `B *R1+`. -/
theorem test_b_V122 : after (start 0x0000 [(0x0100, 0x0471), (0x8302, 0x2000)]) [0x8302] =
    some ([0x2002], 0x8300, 0x2000, 0x0000, 16) := by
  decide

/-- V124: `BL *R11+`. -/
theorem test_bl_V124 : after (start 0x0000 [(0x0100, 0x06BB), (0x8316, 0x2000)]) [0x8316] =
    some ([0x0102], 0x8300, 0x2000, 0x0000, 20) := by
  decide

/-- V133: `X R1 (BL @0x3000)`. -/
theorem test_bl_V133 : after (start 0x0000 [(0x0100, 0x0481), (0x0102, 0x3000), (0x8302, 0x06A0)]) [0x8316] =
    some ([0x0104], 0x8300, 0x3000, 0x0000, 24) := by
  decide

/-- V128: `X @0x2000 (LI R2,imm)`. -/
theorem test_x_V128 : after (start 0x0000 [(0x0100, 0x04A0), (0x0102, 0x2000), (0x0104, 0xBEEF),
      (0x2000, 0x0202)]) [0x8304] =
    some ([0xBEEF], 0x8300, 0x0106, 0x8000, 24) := by
  decide

/-- V131: `X R1 (X R2 (INC R3))`. -/
theorem test_x_V131 : after (start 0x0000 [(0x0100, 0x0481), (0x8302, 0x0482), (0x8304, 0x0583),
      (0x8306, 0x0009)]) [0x8306] =
    some ([0x000A], 0x8300, 0x0102, 0xC000, 18) := by
  decide

/-- V134: `SBO -1`. -/
theorem test_sbo_V134 : events (start 0x0000 [(0x0100, 0x1DFF), (0x8318, 0x0000)]) =
    some ([.writeBit 0xFFF#12 true], 0x0102, 0x0000) := by
  decide

/-- V135: `SBZ 127`. -/
theorem test_sbz_V135 : events (start 0x0000 [(0x0100, 0x1E7F), (0x8318, 0x1FFE)]) =
    some ([.writeBit 0x07E#12 false], 0x0102, 0x0000) := by
  decide

/-- V137: `TB 2`. -/
theorem test_tb_V137 : after { start 0xDC00 [(0x0100, 0x1F02), (0x8318, 0x0020)] with cruAnswers := [true] } [] =
    some ([], 0x8300, 0x0102, 0xFC00, 12) := by
  decide

/-- V138: `TB 2`. -/
theorem test_tb_V138 : after { start 0xFC00 [(0x0100, 0x1F02), (0x8318, 0x0020)] with cruAnswers := [false] } [] =
    some ([], 0x8300, 0x0102, 0xDC00, 12) := by
  decide

/-- V140: `LDCR @0x2001,8`. -/
theorem test_ldcr_V140 : events (start 0x0000 [(0x0100, 0x3220), (0x0102, 0x2001), (0x2000, 0xFF81),
      (0x8318, 0x0000)]) =
    some ([.writeBit 0x000#12 true, .writeBit 0x001#12 false, .writeBit 0x002#12 false,
      .writeBit 0x003#12 false, .writeBit 0x004#12 false, .writeBit 0x005#12 false,
      .writeBit 0x006#12 false, .writeBit 0x007#12 true], 0x0104, 0x8000) := by
  decide

/-- V141: `LDCR *R12+,8`. -/
theorem test_ldcr_V141 : events (start 0x0000 [(0x0100, 0x323C), (0x2000, 0x0100), (0x8318, 0x2000)]) =
    some ([.writeBit 0x000#12 true, .writeBit 0x001#12 false, .writeBit 0x002#12 false,
      .writeBit 0x003#12 false, .writeBit 0x004#12 false, .writeBit 0x005#12 false,
      .writeBit 0x006#12 false, .writeBit 0x007#12 false], 0x0102, 0xC400) := by
  decide

/-- V145: `STCR *R1+,3`. -/
theorem test_stcr_V145 : after { start 0x0000 [(0x0100, 0x34F1), (0x2000, 0xAAAA), (0x8302, 0x2001),
      (0x8318, 0x0000)] with cruAnswers := [true, true, true] } [0x2000, 0x8302] =
    some ([0xAA07, 0x2002], 0x8300, 0x0102, 0xC400, 48) := by
  decide

/-- V146: `STCR R2,9`. -/
theorem test_stcr_V146 : after { start 0x0000 [(0x0100, 0x3642), (0x8304, 0xFFFF), (0x8318, 0x0000)]
      with cruAnswers := [false, false, false, false, false, false, false, false, true] } [0x8304] =
    some ([0x0100], 0x8300, 0x0102, 0xC000, 58) := by
  decide

/-- V152: `MPY R1,R15`. -/
theorem test_mpy_V152 : after (start 0x0000 [(0x0100, 0x3BC1), (0x8302, 0x0002), (0x831E, 0x8001),
      (0x8320, 0x0000)]) [0x831E, 0x8320] =
    some ([0x0001, 0x0002], 0x8300, 0x0102, 0x0000, 52) := by
  decide

/-- V148: `MPY R1,R2`. -/
theorem test_mpy_V148 : after (start 0xFC00 [(0x0100, 0x3881), (0x8302, 0xFFFF), (0x8304, 0xFFFF),
      (0x8306, 0x1234)]) [0x8304, 0x8306] =
    some ([0xFFFE, 0x0001], 0x8300, 0x0102, 0xFC00, 52) := by
  decide

/-- V155: `DIV R1,R3`. -/
theorem test_div_V155 : after (start 0x0000 [(0x0100, 0x3CC1), (0x8302, 0x0005), (0x8306, 0x0005),
      (0x8308, 0x0000)]) [] =
    some ([], 0x8300, 0x0102, 0x0800, 16) := by
  decide

/-- V156: `DIV R1,R3`. -/
theorem test_div_V156 : after (start 0x0800 [(0x0100, 0x3CC1), (0x8302, 0xFFFF), (0x8306, 0xFFFE),
      (0x8308, 0xFFFF)]) [0x8306, 0x8308] =
    some ([0xFFFF, 0xFFFE], 0x8300, 0x0102, 0x0000, 92) := by
  decide

/-- V162: `BLWP *R1+`. -/
theorem test_blwp_V162 : after (start 0x1234 [(0x0100, 0x0431), (0x2000, 0x8320), (0x2002, 0x0300),
      (0x8302, 0x2000)]) [0x8302, 0x833A, 0x833C, 0x833E] =
    some ([0x2002, 0x8300, 0x0102, 0x1234], 0x8320, 0x0300, 0x1234, 34) := by
  decide

/-- V164: `BLWP @0x2000`. -/
theorem test_blwp_V164 : after (start 0xAAAA [(0x0100, 0x0420), (0x0102, 0x2000), (0x2000, 0x1FE4),
      (0x2002, 0x0300)]) [0x1FFE, 0x2000, 0x2002] =
    some ([0x8300, 0x0104, 0xAAAA], 0x1FE4, 0xAAAA, 0xAAAA, 34) := by
  decide

/-- V167: `RTWP`. -/
theorem test_rtwp_V167 : after (start 0x0000 [(0x0100, 0x0380), (0x831A, 0x8320), (0x831C, 0x0201),
      (0x831E, 0xFFFF)]) [] =
    some ([], 0x8320, 0x0200, 0xFFFF, 14) := by
  decide

/-- V170: `XOP *R1+,15`. -/
theorem test_xop_V170 : after (start 0x0200 [(0x007C, 0x83A0), (0x007E, 0x0400), (0x0100, 0x2FF1),
      (0x8302, 0x2000)]) [0x8302, 0x83B6, 0x83BA, 0x83BC, 0x83BE] =
    some ([0x2002, 0x2000, 0x8300, 0x0102, 0x0200], 0x83A0, 0x0400, 0x0200, 44) := by
  decide

/-- V171: `XOP @2(R1),2`. -/
theorem test_xop_V171 : after (start 0x0000 [(0x0048, 0x83A0), (0x004A, 0x0401), (0x0100, 0x2CA1),
      (0x0102, 0x0002), (0x8302, 0x2001)]) [0x83B6, 0x83BA, 0x83BC, 0x83BE] =
    some ([0x2003, 0x8300, 0x0104, 0x0000], 0x83A0, 0x0400, 0x0200, 44) := by
  decide

/-- V172: `IDLE`. -/
theorem test_idle_V172 : events (start 0x0002 [(0x0100, 0x0340)]) = some ([.pulse .idle], 0x0102, 0x0002) := by
  decide

/-- V200: `IDLE`. -/
theorem test_idle_V200 : events { start 0x0002 [(0x0004, 0x83C0), (0x0006, 0x0500), (0x0100, 0x0340)]
      with intSamples := [true] } =
    some ([.pulse .idle], 0x0500, 0x0000) := by
  decide

/-- V173: `RSET`. -/
theorem test_rset_V173 : events (start 0xFFFF [(0x0100, 0x0360)]) = some ([.pulse .rset], 0x0102, 0xFFF0) := by
  decide

/-- V174: `RSET`. -/
theorem test_rset_V174 : events { start 0xFFFF [(0x0100, 0x0360)] with params := { rsetClearsMask := false } } =
    some ([.pulse .rset], 0x0102, 0xFFFF) := by
  decide

/-- V175: `CKON`. -/
theorem test_ckon_V175 : events (start 0xFFFF [(0x0100, 0x03A0)]) = some ([.pulse .ckon], 0x0102, 0xFFFF) := by
  decide

/-- V176: `CKOF`. -/
theorem test_ckof_V176 : events (start 0x0000 [(0x0100, 0x03C0)]) = some ([.pulse .ckof], 0x0102, 0x0000) := by
  decide

/-- V177: `LREX`. -/
theorem test_lrex_V177 : events (start 0x0000 [(0x0100, 0x03E0)]) = some ([.pulse .lrex], 0x0102, 0x0000) := by
  decide

/-- V178: `data 0000`. -/
theorem test_illegal_V178 : (counts (start 0xFC0F [(0x0100, 0x0000)]), after (start 0xFC0F [(0x0100,
      0x0000)]) []) = (some (1, false), some ([], 0x8300, 0x0102, 0xFC0F, 10)) := by
  decide

/-- V191: `data 0210 1234`. -/
theorem test_illegal_V191 : after { start 0x0000 [(0x0100, 0x0210), (0x0102, 0x1234)]
      with params := { unusedBitsAlias := true } } [0x8300] =
    some ([0x1234], 0x8300, 0x0104, 0xC000, 12) := by
  decide

/-- V195: `INC R1`. -/
theorem test_int_V195 : after { start 0x0001 [(0x0004, 0x83C0), (0x0006, 0x0500), (0x0100, 0x0581),
      (0x8302, 0xFFFF)] with intSamples := [true] } [0x8302, 0x83DA, 0x83DC, 0x83DE] =
    some ([0x0000, 0x8300, 0x0102, 0x3001], 0x83C0, 0x0500, 0x3000, 32) := by
  decide

/-- V197: `JMP +5`. -/
theorem test_int_V197 : after { start 0x0002 [(0x0004, 0x83C0), (0x0006, 0x0500), (0x0100, 0x1005)]
      with intSamples := [true] } [0x83DA, 0x83DC, 0x83DE] =
    some ([0x8300, 0x010C, 0x0002], 0x83C0, 0x0500, 0x0000, 32) := by
  decide

/-! ## Witnesses: for every statement with hypotheses, a state and operands that meet them -/

/-- A state an instruction can start in with no hook waiting, for every statement with `Ready` or `RamPort` as its one
premise: SourceOperandRead, ImmediateArithmetic, OperandInPlaceResults, ShiftResults, BranchAndLink,
WordSourceAndDestination, ByteSourceToDestination, MoveWord, MoveByte, SourceAndRegisterResults,
LoadCommunicationRegister, Multiply, BranchAndLoadWorkspace, ExtendedOperation, ResetTwiceIsResetOnce,
ReturnWithWorkspace, RegisterSnapshot and ByteAccess; and with parameters within R9's constraints, for HostResetEffect. -/
theorem witness_ready : (start 0x0000 []).Ready ∧ (start 0x0000 []).Running ∧ (start 0x0000 []).Inv := by
  decide

/-- The three ways the port answers: a hook's word, no hook for this read, none at all. -/
theorem witness_WordAccess :
    (hooked [some 0xABCD#16, none] (start 0x0000 [])).readAnswers = some 0xABCD#16 :: [none] ∧
    (hooked [none, some 0xABCD#16] (start 0x0000 [])).readAnswers = none :: [some 0xABCD#16] ∧
    (start 0x0000 []).readAnswers = [] ∧
    ((hooked [some 0xABCD#16] (start 0x0000 [(0x2000, 0x1234)])).readWord 0x2001#16).1 = 0xABCD#16 ∧
    ((hooked [none] (start 0x0000 [(0x2000, 0x1234)])).readWord 0x2001#16).1 = 0x1234#16 := by
  decide

/-- For `EveryStepKeepsInvariant`, `RunOneIsOneStep` and the statements about `exec … = .next t`. -/
theorem witness_EveryStepKeepsInvariant :
    (start 0x0000 [(0x0100, 0x1000)]).Inv ∧ (after (start 0x0000 [(0x0100, 0x1000)]) []).isSome = true ∧
    ∃ t, exec (.jmp 0#8) (start 0x0000 []) = .next t := by
  refine ⟨by decide, by decide, ⟨_, rfl⟩⟩

/-- With an immediate, without one, and the same where a hook answers the fetch. -/
theorem witness_StepRunsDecodedInstruction :
    (start 0x0000 [(0x0100, 0x0203), (0x0102, 0x1234)]).Running ∧
    decodesTo (start 0x0000 [(0x0100, 0x0203), (0x0102, 0x1234)]) = some (.li 3#4 0x1234#16) ∧
    decodesTo (start 0x0000 [(0x0100, 0x0581), (0x0102, 0x0000)]) = some (.inc (.reg 1#4)) ∧
    (hooked [some 0x0203#16, some 0x4321#16] (start 0x0000 [])).Running ∧
    decodesTo (hooked [some 0x0203#16, some 0x4321#16] (start 0x0000 [])) = some (.li 3#4 0x4321#16) := by
  decide

theorem witness_IllegalWordStep :
    (start 0x0000 [(0x0100, 0x0000)]).Running ∧
    (findRow false ((start 0x0000 [(0x0100, 0x0000)]).answerAt 0x0100#16)).isNone = true := by
  decide

/-- `MOV @>2000,R2`: a hook answers the operand's read, the third of the step, and RAM keeps its own word; without
the hook R2 takes that word (00_scope.md R7, 20_memory.md R61). -/
theorem test_hooked_read_inside_an_instruction :
    (let s := start 0x0000 [(0x0100, 0xC0A0), (0x0102, 0x2000), (0x2000, 0x1234)]
     after (hooked [none, none, some 0xBEEF#16] s) [0x8304, 0x2000] =
       some ([0xBEEF, 0x1234], 0x8300, 0x0104, 0x8000, 22) ∧
     after s [0x8304, 0x2000] = some ([0x1234, 0x1234], 0x8300, 0x0104, 0xC000, 22)) := by
  decide

theorem witness_DecodeOfEncode :
    Instr.wellFormed (.mov (.idx 15#4) .sym) = true ∧ Instr.wellFormed (.limi 0xFFFF#16) = true := by
  decide

/-- A word with a register field that is dropped, and one with none. -/
theorem witness_EncodeOfDecode :
    decodeWords false 0x02E7#16 0x8320#16 = some (.lwpi 0x8320#16) ∧
    decodeWords false 0xFFFF#16 0#16 = some (.socb (.inc 15#4) (.inc 15#4)) := by
  decide

/-- Two, one and no address word. -/
theorem witness_PcAdvancesPastAddressWords :
    transfersControl (.mov .sym (.idx 1#4)) = false ∧ transfersControl (.clr .sym) = false ∧
    transfersControl .idle = false ∧ (start 0x0000 []).params.pcRemap = [] ∧
    (start 0x0000 []).pc &&& 1#16 = 0#16 ∧ (∃ t, exec (.mov .sym (.idx 1#4)) (start 0x0000 []) = .next t) := by
  refine ⟨by decide, by decide, by decide, by decide, by decide, ⟨_, rfl⟩⟩

theorem witness_WorkspaceRegistersAreMemory : State.wp { start 0x0000 [] with wp := 0x8301#16 } &&& 1#16 = 1#16 := by
  decide

theorem witness_PostIncrement :
    (start 0x0000 []).pending .src = none ∧
    State.pending { start 0x0000 [] with pendingDst := some ⟨0xFFFF#16, .byte⟩ } .dst = some ⟨0xFFFF#16, .byte⟩ := by
  decide

/-- Every row of `SameRegisterInBothOperands` on R1 = 0x2000, the row of INC on R1 pointing at itself, each with
its result (the vectors V37, V32, V38, V39, V42, V40, V57). -/
theorem witness_SameRegisterInBothOperands :
    twoWords.Ready ∧ (1#4 : Reg) ≠ 0#4 ∧
    evenAddr 0x8302#16 ≠ evenAddr (0x2000#16 + 2#16) ∧ evenAddr 0x8302#16 ≠ evenAddr 0x2000#16 ∧
    evenAddr 0x8302#16 ≠ evenAddr (0x2000#16 + 1#16) ∧ evenAddr 0x8302#16 ≠ evenAddr 0x0100#16 ∧
    (start 0x0000 [(0x0100, 0x0004), (0x8302, 0x2000)]).wordAt 0x0100#16 = 4#16 ∧
    (start 0x0000 [(0x8302, 0x8302)]).regAt 1#4 = (start 0x0000 [(0x8302, 0x8302)]).regAddr 1#4 ∧
    results (.mov (.inc 1#4) (.inc 1#4)) twoWords [0x2002, 0x8302] = some [0xBEEF, 0x2004] ∧
    results (.a (.inc 1#4) (.inc 1#4)) twoWords [0x2002, 0x8302] = some [0xBEF0, 0x2004] ∧
    results (.mov (.inc 1#4) (.reg 1#4)) twoWords [0x8302] = some [0xBEEF] ∧
    results (.mov (.reg 1#4) (.inc 1#4)) twoWords [0x2000, 0x8302] = some [0x2000, 0x2002] ∧
    results (.movb (.inc 1#4) (.inc 1#4)) twoWords [0x2000, 0x8302] = some [0xBEBE, 0x2002] ∧
    results (.mov (.inc 1#4) (.idx 1#4)) twoWords [0x2006, 0x8302] = some [0xBEEF, 0x2002] ∧
    results (.inc (.inc 1#4)) (start 0x0000 [(0x8302, 0x8302)]) [0x8302] = some [0x8305] := by
  decide

theorem witness_OperandFill :
    (start 0x0000 []).Ready ∧ ((Instr.clr (.reg 1#4) = .clr (.reg 1#4) ∧ (0x0000#16 : Word) = 0x0000#16) ∨
      (Instr.clr (.reg 1#4) = .seto (.reg 1#4) ∧ (0x0000#16 : Word) = 0xFFFF#16)) := by
  decide

/-- The four ways a count is found: the field, the nibble of R0, that nibble 0, and the field's largest value. -/
theorem witness_ShiftCountRule :
    (shiftCount 1#4 (start 0x0000 [(0x8300, 0xFFF0)])).1 = 1 ∧ (shiftCount 15#4 (start 0x0000 [(0x8300, 0xFFF0)])).1 = 15 ∧
    (shiftCount 0#4 (start 0x0000 [(0x8300, 0xFFF0)])).1 = 16 ∧
    (shiftCount 0#4 (start 0x0000 [(0x8300, 0xFFFF)])).1 = 15 := by
  decide

/-- Every jump condition is met by some status and not met by another. -/
theorem witness_JumpRules :
    (0x8000#16 &&& 0x4000#16 = 0#16 ∧ 0x8000#16 &&& 0x2000#16 = 0#16) ∧
    ¬ (0x2000#16 &&& 0x4000#16 = 0#16 ∧ 0x2000#16 &&& 0x2000#16 = 0#16) ∧
    (0x0000#16 &&& 0x8000#16 = 0#16 ∨ 0x0000#16 &&& 0x2000#16 ≠ 0#16) ∧
    ¬ (0x8000#16 &&& 0x8000#16 = 0#16 ∨ 0x8000#16 &&& 0x2000#16 ≠ 0#16) ∧
    0x2000#16 &&& 0x2000#16 ≠ 0#16 ∧ 0xDFFF#16 &&& 0x2000#16 = 0#16 ∧ 0x4000#16 &&& 0x4000#16 ≠ 0#16 ∧
    0x1000#16 &&& 0x1000#16 ≠ 0#16 ∧ 0x0800#16 &&& 0x0800#16 ≠ 0#16 ∧ 0x0400#16 &&& 0x0400#16 ≠ 0#16 := by
  decide

/-- An illegal word, an instruction with an immediate, and one more X below the depth limit. -/
theorem witness_ExecuteRunsItsOperand :
    (findRow false (readSource (.reg 1#4) (start 0x0000 [(0x8302, 0x0000)])).1).isNone = true ∧
    ((start 0x0000 [(0x0100, 0xBEEF)]).decodeFetched 0x0202#16).map (·.1) = some (.li 2#4 0xBEEF#16) ∧
    isX (.li 2#4 0xBEEF#16) = false ∧
    ((start 0x0000 []).decodeFetched 0x0482#16).map (·.1) = some (.x (.reg 2#4)) ∧
    (start 0x0000 []).xDepth + 1 < (start 0x0000 []).params.xDepthMax ∧
    results (.x (.reg 1#4)) (start 0x0000 [(0x8302, 0x0482), (0x8304, 0x0583), (0x8306, 0x0009)]) [0x8306] =
      some [0x000A] := by
  decide

/-- The endless chain, and that it is refused (with X_DEPTH_MAX 2). -/
theorem witness_EndlessExecuteChainRefused :
    (start 0x0000 [(0x8302, 0x0481)]).Ready ∧ (start 0x0000 [(0x8302, 0x0481)]).regAt 1#4 = 0x0481#16 ∧
    results (.x (.reg 1#4)) { start 0x0000 [(0x8302, 0x0481)] with params := { xDepthMax := 2 } } [] = none := by
  decide

/-- Both ends of both ranges of the count: 1, 8, 9 and 16. -/
theorem witness_LoadCommunicationRegister :
    cruCount 1#4 = 1 ∧ cruCount 8#4 = 8 ∧ cruCount 9#4 = 9 ∧ cruCount 0#4 = 16 := by
  decide

/-- Answers for 8, for 9 and for 16 bits, with one more left over. -/
theorem witness_StoreCommunicationRegister :
    [8#4, 9#4, 0#4].all (fun count =>
      let bits := List.replicate (cruCount count) true
      decide (start 0x0000 []).Ready &&
        State.cruAnswers { start 0x0000 [] with cruAnswers := bits ++ [false] } == bits ++ [false] &&
        bits.length == (if count = 0#4 then 16 else count.toNat)) = true := by
  decide

theorem witness_SingleBitCru :
    State.cruAnswers { start 0x0000 [(0x8318, 0x0020)] with cruAnswers := [true, false] } = true :: [false] := by
  decide

/-- The divisor above the high word, and at it. -/
theorem witness_Divide :
    (let s := start 0x0000 [(0x8302, 0x0005), (0x8306, 0x0004), (0x8308, 0x0000)]
     (s.regAt 3#4).toNat < (readSource (.reg 1#4) s).1.toNat) ∧
    (let s := start 0x0000 [(0x8302, 0x0005), (0x8306, 0x0005)]
     (readSource (.reg 1#4) s).1.toNat ≤ (s.regAt 3#4).toNat) := by
  decide

/-- R1 pointing at a vector. -/
def switcher : State := start 0xD40F [(0x2000, 0x8320), (0x8302, 0x2000)]

/-- For `SwitchThenReturn`, and for BLWP with mode 3: its register is away from the three words saved. -/
theorem witness_SwitchThenReturn :
    switcher.Ready ∧
    remapPc switcher.params (evenAddr (pcAfterOperand switcher (.inc 1#4))) = pcAfterOperand switcher (.inc 1#4) ∧
    switcher.pc &&& 1#16 = 0#16 ∧ remapPc switcher.params switcher.pc = switcher.pc := by
  decide

theorem switcher_register : switcher.regAt 1#4 = 0x2000#16 ∧ switcher.regAddr 1#4 = 0x8302#16 := by decide

theorem switcher_vector : switcher.wordAt 0x2000#16 = 0x8320#16 := by decide

theorem witness_SwitchThenReturn_apart :
    ∀ p ∈ incWords switcher (.inc 1#4),
      ∀ a ∈ savedWords (switcher.wordAt (effectiveAddr switcher (.inc 1#4))) none, evenAddr p ≠ evenAddr a := by
  simp [effectiveAddr, incWords, switcher_register, switcher_vector, savedWords, evenAddr]

/-- The mask 0 with a request, the mask 1 without, and the mask 1 with. -/
theorem witness_InterruptTestRule :
    (start 0x0001 []).RamPort ∧ State.intSamples { start 0xFFF0 [] with intSamples := [true] } = true :: [] ∧
    State.st { start 0xFFF0 [] with intSamples := [true] } &&& 0x000F#16 = 0#16 ∧
    (start 0x0001 []).intSamples = false :: [] ∧ (start 0x0001 []).st &&& 0x000F#16 ≠ 0#16 ∧
    State.intSamples { start 0x0001 [] with intSamples := [true] } = true :: [] := by
  decide

/-- Suspended; idle with the mask 0 and a request; idle with the mask 2; at the breakpoint. -/
theorem witness_SuspendedIdleAndBreakpointPasses :
    State.suspended { start 0x0000 [] with suspended := true } = true ∧
    (let s := { start 0x0000 [] with idle := true, intSamples := [true] }
     s.suspended = false ∧ s.idle = true ∧ s.intSamples = true :: [] ∧ s.st &&& 0x000F#16 = 0#16) ∧
    (let s := { start 0x0002 [] with idle := true, intSamples := [true] }
     s.suspended = false ∧ s.idle = true ∧ s.st &&& 0x000F#16 ≠ 0#16 ∧ s.intSamples = true :: []) ∧
    (let s := { start 0x0000 [] with breakpoint := some 0x0100#16 }
     s.suspended = false ∧ s.idle = false ∧ s.breakpoint = some s.pc ∧ s.bpLatch = false) := by
  decide

/-- A collaborator raises `suspended` during the first of two INC R1 (a run of 1000 cycles ends after 10), lets the
step be, or clears the flag (R353): the fourth clause of `SuspendedIdleAndBreakpointPasses`. -/
theorem witness_SuspendedIdleAndBreakpointPasses_during_a_step :
    (hostDriveSuspend [some true] twoIncs).Running ∧
    changesLeft (instructionStep { hostDriveSuspend [some true] twoIncs with bpLatch := false }) = some [some true] ∧
    suspendAfter [some true] = some ([true], [1], 10) ∧ suspendAfter [none, some true] = some ([true], [2], 20) ∧
    (hostDriveSuspend [some true] (start 0x0000 [])).noteSuspend.suspended = true ∧
    (hostSuspend (hostDriveSuspend [some false] (start 0x0000 []))).noteSuspend.suspended = false := by
  decide

/-- A run that reaches its budget, and one that stops early because IDLE ends it (scenario S4's first and last). -/
theorem witness_RunReachesItsBudget :
    consumed 1 (start 0x0000 [(0x0100, 0x0201), (0x0102, 0x0003)]) = some (12, false) ∧
    consumed 1000 (start 0x0000 [(0x0100, 0x0340)]) = some (12, true) := by
  decide

theorem witness_ResolverTable : (start 0x0000 []).RamPort ∧ Slot.dst ≠ Slot.src ∧ Slot.src ≠ Slot.dst := by decide

/-- The statements about what instructions leave alone: instructions that are not X, not IDLE, and write no WP. -/
theorem witness_StateEachInstructionLeavesAlone :
    writesWp (.inc (.reg 1#4)) = false ∧ isX (.inc (.reg 1#4)) = false ∧ Instr.inc (.reg 1#4) ≠ .idle ∧
    (∃ t, exec (.inc (.reg 1#4)) (start 0x0000 []) = .next t) := by
  refine ⟨by decide, by decide, by decide, ⟨_, rfl⟩⟩

theorem witness_AdderCarryAndOverflow : (16 = 16 ∨ 16 = 8) ∧ (8 = 16 ∨ 8 = 8) := by decide

end Sys2Proof.Tests
end

section
/-! SUPPORT. What one instruction can do to the state, said once for all 69 (`ExecEffect`), whatever the Memory
Port answers: the bits of ST it leaves alone, and the parts of the state it keeps. -/

namespace Sys2Proof.Machine

section Status

/-! ## The status bits a computation touches (40_flags_addressing_step.md R110 to R114) -/

/-- No bit of a status word lies outside a mask. -/
abbrev StatusIn (mask bits : Word) : Prop := bits &&& ~~~mask = 0#16

variable {n : Nat} {mask bits bits' : Word}

theorem or_and_word (a b c : Word) : (a ||| b) &&& c = (a &&& c) ||| (b &&& c) := by
  ext k hk
  simp [Bool.and_or_distrib_right]

theorem StatusIn.self (m : Word) : StatusIn m m := BitVec.and_not_self m

theorem StatusIn.or (h : StatusIn mask bits) (h' : StatusIn mask bits') : StatusIn mask (bits ||| bits') := by
  rw [StatusIn, or_and_word, h, h', BitVec.or_zero]

theorem StatusIn.and (a : Word) (h : StatusIn mask bits) : StatusIn mask (a &&& bits) := by
  rw [StatusIn, BitVec.and_assoc, h, BitVec.and_zero]

theorem StatusIn.flagIf (h : StatusIn mask bits) (c : Bool) : StatusIn mask (flagIf bits c) := by
  cases c
  · exact BitVec.zero_and
  · exact h

/-- The table bits of a mask, with C and OV as a rule says them. -/
theorem StatusIn.tableCarryOverflow {table : Word} (h : StatusIn mask bits) (hc : StatusIn mask flagC)
    (ho : StatusIn mask flagOV) (carry overflow : Bool) :
    StatusIn mask ((table &&& bits) ||| Machine.flagIf flagC carry ||| Machine.flagIf flagOV overflow) :=
  ((h.and table).or (hc.flagIf carry)).or (ho.flagIf overflow)

theorem compareStatus_in (hlgt : StatusIn mask flagLGT) (hagt : StatusIn mask flagAGT) (heq : StatusIn mask flagEQ)
    (a b : BitVec n) : StatusIn mask (compareStatus a b) :=
  ((hlgt.flagIf _).or (hagt.flagIf _)).or (heq.flagIf _)

/-- `SetST(clear, bits)`, the last status write of an instruction, changes no bit outside a mask that holds both. -/
theorem State.setSt_outside {s u : State} (hst : u.st = s.st) {clear : Word} (hc : StatusIn mask clear)
    (hb : StatusIn mask bits) (cycles : Nat) :
    ((u.setSt clear bits).addCycles cycles).st &&& ~~~mask = s.st &&& ~~~mask := by
  have hkeep : ~~~clear &&& ~~~mask = ~~~mask := by
    calc ~~~clear &&& ~~~mask = (~~~clear &&& ~~~mask) ||| (clear &&& ~~~mask) := by rw [hc, BitVec.or_zero]
      _ = ~~~mask := by rw [← or_and_word, BitVec.or_comm, BitVec.or_not_self, BitVec.allOnes_and]
  rw [State.addCycles_st, State.setSt_st, hst, or_and_word, hb, BitVec.or_zero, BitVec.and_assoc, hkeep]

/-- An effect clears and sets bits of a mask only. -/
structure Effect.Within (e : Effect n) (mask : Word) : Prop where
  clear : StatusIn mask e.clear
  bits : StatusIn mask e.bits

theorem Effect.Within.conclude_outside {e : Effect n} (h : e.Within mask) {s u : State} (hst : u.st = s.st) :
    (u.conclude e).st &&& ~~~mask = s.st &&& ~~~mask := State.setSt_outside hst h.clear h.bits _

theorem resultEffect_within (r : Word) (cycles : Nat) : (resultEffect r cycles).Within maskCompare :=
  ⟨.self _, .and _ (.self _)⟩

theorem byteResultEffect_within (r : Byte) : (byteResultEffect r).Within maskCompareOP :=
  ⟨.self _, .and _ (.self _)⟩

theorem sumEffect_within (r : Sum 16) (cycles : Nat) : (sumEffect r cycles).Within maskArith :=
  ⟨.self _, .tableCarryOverflow (by decide) (by decide) (by decide) _ _⟩

theorem byteSumEffect_within (r : Sum 8) : (byteSumEffect r).Within maskArithOP :=
  ⟨.self _, .tableCarryOverflow (by decide) (by decide) (by decide) _ _⟩

/-- NEG and INC take all five flags from the word table (R191, R193). -/
theorem tableEffect_within (write : Option Word) (v : Word) (cycles : Nat) :
    (Effect.mk write maskArith (wStatus v &&& maskArith) cycles).Within maskArith :=
  ⟨.self _, .and _ (.self _)⟩

/-- ABS takes them but for C (R199). -/
theorem absEffect_within (write : Option Word) (v : Word) (cycles : Nat) :
    (Effect.mk write maskArith (wStatus v &&& (maskCompare ||| flagOV)) cycles).Within maskArith :=
  ⟨.self _, .and _ (by decide)⟩

/-- SWPB touches no flag (R197). -/
theorem noStatus_within (write : Option Word) (cycles : Nat) :
    (Effect.mk write 0#16 0#16 cycles).Within 0#16 := ⟨BitVec.zero_and, BitVec.zero_and⟩

/-- C and CI only compare (R144, R164). -/
theorem compareEffect_within (a b : Word) :
    (Effect.mk (none : Option Word) maskCompare (compareStatus a b) 14).Within maskCompare :=
  ⟨.self _, compareStatus_in (by decide) (by decide) (by decide) a b⟩

/-- CB compares and has a parity (R165). -/
theorem byteCompareEffect_within (a b : Byte) :
    (Effect.mk (none : Option Byte) maskCompareOP (compareStatus a b ||| (bStatus a &&& flagOP)) 14).Within
      maskCompareOP :=
  ⟨.self _, (compareStatus_in (by decide) (by decide) (by decide) a b).or (.and _ (by decide))⟩

/-- COC and CZC write EQ (R180, R181). -/
theorem equalEffect_within (c : Bool) :
    (Effect.mk (none : Option Word) flagEQ (flagIf flagEQ c) 14).Within flagEQ := ⟨.self _, .flagIf (.self _) _⟩

theorem stepEffect_within (r : Word) (carry overflow : Bool) : (stepEffect r carry overflow).Within maskArith :=
  ⟨.self _, .tableCarryOverflow (by decide) (by decide) (by decide) _ _⟩

theorem shiftEffect_within (r : Word) (carry : Bool) (cnt : Nat) : (shiftEffect r carry cnt).Within maskCompareC :=
  ⟨.self _, (StatusIn.and _ (by decide)).or (.flagIf (by decide) _)⟩

theorem slaEffect_within (cnt : Nat) (v : Word) : (slaEffect cnt v).Within maskArith :=
  ⟨.self _, .tableCarryOverflow (by decide) (by decide) (by decide) _ _⟩

end Status

/-! ## What is kept of the state -/

/-- The rest without the inputs of the CRU port, which TB and STCR use up. -/
def Rest.dataPart (r : Rest) : Rest := { r with cruAnswers := [], freeIndex := 0 }

/-- The rest without WP, which the context switches and LWPI write. -/
def Rest.exceptWp (r : Rest) : Rest := { r with wp := 0#16 }

/-- What no instruction changes: the rest without WP, `illegalCount`, `idle` and the inputs of the CRU port. -/
def Rest.hostPart (r : Rest) : Rest := { r.dataPart with wp := 0#16, illegalCount := 0, idle := false }

/-- A part of the rest is as before, memory keeps its canonical form, the port's answers are taken in order and
calls are only added. -/
structure KeepsPart (part : Rest → Rest) (s t : State) : Prop where
  part : part t.rest = part s.rest
  mem : s.mem.wf = true → t.mem.wf = true
  answers : t.readAnswers <:+ s.readAnswers
  calls : ExtendsCalls s t

variable {s t u : State} {part smaller : Rest → Rest}

theorem KeepsPart.trans (h : KeepsPart part s t) (g : KeepsPart part t u) : KeepsPart part s u :=
  ⟨g.part.trans h.part, g.mem ∘ h.mem, g.answers.trans h.answers, h.calls.trans g.calls⟩

theorem Kept.keepsPart (h : Kept s t) : KeepsPart part s t := ⟨congrArg part h.rest, h.mem, h.answers, h.calls⟩

theorem Kept.params (h : Kept s t) : t.params = s.params := congrArg Rest.params h.rest

/-- A part of the part is kept. -/
theorem KeepsPart.mono (h : KeepsPart part s t) (hsub : ∀ r, smaller (part r) = smaller r) :
    KeepsPart smaller s t :=
  ⟨by rw [← hsub, h.part, hsub], h.mem, h.answers, h.calls⟩

/-- A CRU read uses up an input and adds a call. -/
theorem State.readBit_keepsPart (s : State) (a : CruAddr) : KeepsPart Rest.dataPart s (s.readBit a).2 := by
  unfold State.readBit
  split <;> exact ⟨rfl, id, List.suffix_rfl, (ExtendsCalls.refl s).cons rfl⟩

theorem readBits_keepsPart (base : CruAddr) (k : Nat) (s : State) :
    KeepsPart Rest.dataPart s (readBits base k s).2 := by
  induction k generalizing base s with
  | zero => exact (Kept.refl s).keepsPart
  | succ k ih => exact (s.readBit_keepsPart base).trans (ih _ _)

theorem writeBits_kept (base : CruAddr) (v : Word) (k : Nat) (s : State) : Kept s (writeBits base v k s) := by
  induction k generalizing base v s with
  | zero => exact .refl s
  | succ k ih => exact ((Kept.refl s).record _).trans (ih _ _ _)

theorem State.contextSwitch_keepsPart (s : State) (va : Word) (x : Option Word) :
    KeepsPart Rest.exceptWp s (s.contextSwitch va x) where
  part := by rw [State.contextSwitch_rest]; rfl
  mem h := by
    rw [State.contextSwitch_mem_answer]
    refine Memory.wf_setWord _ _ (Memory.wf_setWord _ _ (Memory.wf_setWord _ _ ?_))
    cases x
    · exact h
    · exact Memory.wf_setWord _ _ h
  answers := by
    rw [State.contextSwitch_readAnswers]
    exact (List.tail_suffix _).trans (List.tail_suffix _)
  calls := s.contextSwitch_calls va x

theorem State.contextReturn_keepsPart (s : State) : KeepsPart Rest.exceptWp s s.contextReturn where
  part := by simp [State.contextReturn, State.rest, Rest.exceptWp]
  mem := id
  answers := (List.tail_suffix _).trans ((List.tail_suffix _).trans (List.tail_suffix _))
  calls := ((((Kept.refl s).readReg 15#4).readReg 14#4).readReg 13#4).calls.same rfl

/-! ## The CRU transfers leave PC, ST and the pending slots alone -/

theorem writeBits_fields (base : CruAddr) (v : Word) (k : Nat) (s : State) :
    (writeBits base v k s).pc = s.pc ∧ (writeBits base v k s).st = s.st ∧
    (writeBits base v k s).pendingSrc = s.pendingSrc ∧ (writeBits base v k s).pendingDst = s.pendingDst := by
  induction k generalizing base v s with
  | zero => exact ⟨rfl, rfl, rfl, rfl⟩
  | succ k ih => exact ih _ _ _

theorem readBits_fields (base : CruAddr) (k : Nat) (s : State) :
    (readBits base k s).2.pc = s.pc ∧ (readBits base k s).2.st = s.st ∧
    (readBits base k s).2.pendingSrc = s.pendingSrc ∧ (readBits base k s).2.pendingDst = s.pendingDst := by
  induction k generalizing base s with
  | zero => exact ⟨rfl, rfl, rfl, rfl⟩
  | succ k ih =>
    obtain ⟨-, hpc, hst, -, -, hsrc, hdst, -⟩ := s.readBit_frame base
    obtain ⟨ipc, ist, isrc, idst⟩ := ih (base + 1#12) (s.readBit base).2
    exact ⟨ipc.trans hpc, ist.trans hst, isrc.trans hsrc, idst.trans hdst⟩

/-! ## PC stays even (10_state.md R25, R26) -/

/-- PC is even, and every value PcRemap gives will be. -/
def State.EvenPc (s : State) : Prop := s.params.wf = true ∧ s.pc &&& 1#16 = 0#16

theorem State.EvenPc.setPc (h : u.params.wf = true) (v : Word) : (u.setPc v).EvenPc := ⟨h, u.setPc_even h v⟩

/-- A state with the PC and the parameters of one whose PC is even. -/
theorem State.EvenPc.of_eq (h : s.EvenPc) (hp : t.params = s.params) (hpc : t.pc = s.pc) : t.EvenPc := by
  rw [State.EvenPc, hp, hpc]; exact h

/-- PC past an operand's address word. -/
theorem State.EvenPc.afterOperand (h : s.EvenPc) (o : Operand) (hp : t.params = s.params)
    (hpc : t.pc = pcAfterOperand s o) : t.EvenPc := by
  rw [State.EvenPc, hp, hpc]
  cases o
  case sym | idx => exact ⟨h.1, remapPc_even h.1 (evenAddr_and_one _)⟩
  case reg | ind | inc => exact h

theorem State.EvenPc.readSource (h : s.EvenPc) (o : Operand) : (readSource o s).2.EvenPc :=
  h.afterOperand o (readSource_params s o) (readSource_pc s o)

theorem State.EvenPc.readSourceByte (h : s.EvenPc) (o : Operand) : (readSourceByte o s).2.EvenPc :=
  h.afterOperand o (readSourceByte_params s o) (readSourceByte_pc s o)

/-! ## What every instruction keeps, X among them -/

/-- What belongs to the host is kept, nothing is left pending that was not, and PC stays even. -/
structure Fixed (s t : State) : Prop where
  host : KeepsPart Rest.hostPart s t
  pending : s.NoPending → t.NoPending
  pc : s.EvenPc → t.EvenPc

theorem Fixed.refl (s : State) : Fixed s s := ⟨(Kept.refl s).keepsPart, id, id⟩

theorem Fixed.trans (h : Fixed s t) (g : Fixed t u) : Fixed s u :=
  ⟨h.host.trans g.host, g.pending ∘ h.pending, g.pc ∘ h.pc⟩

theorem Fixed.suspended (h : Fixed s t) : t.suspended = s.suspended := congrArg Rest.suspended h.host.part
theorem Fixed.breakpoint (h : Fixed s t) : t.breakpoint = s.breakpoint := congrArg Rest.breakpoint h.host.part
theorem Fixed.bpLatch (h : Fixed s t) : t.bpLatch = s.bpLatch := congrArg Rest.bpLatch h.host.part
theorem Fixed.xDepth (h : Fixed s t) : t.xDepth = s.xDepth := congrArg Rest.xDepth h.host.part
theorem Fixed.intSamples (h : Fixed s t) : t.intSamples = s.intSamples := congrArg Rest.intSamples h.host.part
theorem Fixed.suspendChanges (h : Fixed s t) : t.suspendChanges = s.suspendChanges :=
  congrArg Rest.suspendChanges h.host.part
theorem Fixed.params (h : Fixed s t) : t.params = s.params := congrArg Rest.params h.host.part

/-- The invariant is kept by whatever keeps all this. -/
theorem Fixed.inv (h : Fixed s t) (hi : s.Inv) : t.Inv := by
  obtain ⟨hmem, hparams, hpc, hpending, hx⟩ := hi
  obtain ⟨hparams', hpc'⟩ := h.pc ⟨hparams, hpc⟩
  exact ⟨h.host.mem hmem, hparams', hpc', h.pending hpending, h.xDepth.trans hx⟩

/-! ## What one instruction does -/

/-- What the next state of one instruction is allowed to differ in. -/
structure ExecEffect (i : Instr) (s t : State) : Prop where
  status : t.st &&& ~~~statusWritten i = s.st &&& ~~~statusWritten i
  wp : writesWp i = false → t.wp = s.wp
  idle : isX i = false → i ≠ .idle → t.idle = s.idle
  illegalCount : isX i = false → t.illegalCount = s.illegalCount
  fixed : Fixed s t

variable {i : Instr} {m : Word}

/-- An instruction that keeps all of the rest but CRU inputs. -/
theorem ExecEffect.of_keepsPart (hm : statusWritten i = m) (hk : KeepsPart Rest.dataPart s t)
    (hst : t.st &&& ~~~m = s.st &&& ~~~m) (hp : s.NoPending → t.NoPending) (hpc : s.EvenPc → t.EvenPc) :
    ExecEffect i s t where
  status := hm ▸ hst
  wp _ := congrArg Rest.wp hk.part
  idle _ _ := congrArg Rest.idle hk.part
  illegalCount _ := congrArg Rest.illegalCount hk.part
  fixed := ⟨hk.mono fun _ => rfl, hp, hpc⟩

/-- An instruction that keeps the rest. -/
theorem ExecEffect.of_kept (hm : statusWritten i = m) (hk : Kept s t) (hst : t.st &&& ~~~m = s.st &&& ~~~m)
    (hp : s.NoPending → t.NoPending) (hpc : s.EvenPc → t.EvenPc) : ExecEffect i s t :=
  .of_keepsPart hm hk.keepsPart hst hp hpc

/-- An instruction that keeps the rest and leaves PC past its operand. -/
theorem ExecEffect.of_operand (hm : statusWritten i = m) (hk : Kept s t) (hst : t.st &&& ~~~m = s.st &&& ~~~m)
    (hp : s.NoPending → t.NoPending) (o : Operand) (hpc : t.pc = pcAfterOperand s o) : ExecEffect i s t :=
  .of_kept hm hk hst hp fun h => h.afterOperand o hk.params hpc

/-- An instruction that writes WP and keeps the others of the rest. -/
theorem ExecEffect.of_exceptWp (hm : statusWritten i = m) (hw : writesWp i = true) (hk : KeepsPart Rest.exceptWp s t)
    (hst : t.st &&& ~~~m = s.st &&& ~~~m) (hp : s.NoPending → t.NoPending) (hpc : s.EvenPc → t.EvenPc) :
    ExecEffect i s t where
  status := hm ▸ hst
  wp h := by rw [hw] at h; cases h
  idle _ _ := congrArg Rest.idle hk.part
  illegalCount _ := congrArg Rest.illegalCount hk.part
  fixed := ⟨hk.mono fun _ => rfl, hp, hpc⟩

/-! ## The sequences the families share -/

variable {gs gd : Operand} {d w : Reg}

theorem wordDual_effect {op : Word → Word → Effect 16} (hop : ∀ sv dv, (op sv dv).Within m)
    (hm : statusWritten i = m) : ExecEffect i s (wordDual op gs gd s) :=
  .of_kept hm (wordDual_kept s op gs gd) ((hop _ _).conclude_outside (by simp))
    (fun _ => wordDual_pending s op gs gd)
    fun h => (h.readSource gs).afterOperand gd ((wordDual_kept s op gs gd).params.trans (readSource_params s gs).symm)
      (wordDual_pc s op gs gd)

theorem byteDual_effect {op : Byte → Byte → Effect 8} (hop : ∀ sv dv, (op sv dv).Within m)
    (hm : statusWritten i = m) : ExecEffect i s (byteDual op gs gd s) :=
  .of_kept hm (byteDual_kept s op gs gd) ((hop _ _).conclude_outside (by simp))
    (fun _ => byteDual_pending s op gs gd)
    fun h => (h.readSourceByte gs).afterOperand gd
      ((byteDual_kept s op gs gd).params.trans (readSourceByte_params s gs).symm) (byteDual_pc s op gs gd)

theorem wordMove_effect {op : Word → Effect 16} (hop : ∀ sv, (op sv).Within m) (hm : statusWritten i = m) :
    ExecEffect i s (wordMove op gs gd s) :=
  .of_kept hm (wordMove_kept s op gs gd) ((hop _).conclude_outside (by simp))
    (fun _ => wordMove_pending s op gs gd)
    fun h => (h.readSource gs).afterOperand gd ((wordMove_kept s op gs gd).params.trans (readSource_params s gs).symm)
      (wordMove_pc s op gs gd)

theorem byteMove_effect {op : Byte → Effect 8} (hop : ∀ sv, (op sv).Within m) (hm : statusWritten i = m) :
    ExecEffect i s (byteMove op gs gd s) :=
  .of_kept hm (byteMove_kept s op gs gd) ((hop _).conclude_outside (by simp))
    (fun _ => byteMove_pending s op gs gd)
    fun h => (h.readSourceByte gs).afterOperand gd
      ((byteMove_kept s op gs gd).params.trans (readSourceByte_params s gs).symm) (byteMove_pc s op gs gd)

theorem regDual_effect {op : Word → Word → Effect 16} (hop : ∀ sv dv, (op sv dv).Within m)
    (hm : statusWritten i = m) : ExecEffect i s (regDual op gs d s) :=
  .of_operand hm (regDual_kept s op gs d) ((hop _ _).conclude_outside (by simp)) (fun h => regDual_pending h op gs d) gs
    (regDual_pc s op gs d)

theorem wordUnary_effect {op : Word → Effect 16} (hop : ∀ v, (op v).Within m) (hm : statusWritten i = m) :
    ExecEffect i s (wordUnary op gs s) :=
  .of_operand hm (wordUnary_kept s op gs) ((hop _).conclude_outside (by simp)) (fun h => wordUnary_pending h op gs) gs
    (wordUnary_pc s op gs)

theorem wordFill_effect {v : Word} (hm : statusWritten i = 0#16) : ExecEffect i s (wordFill v gs s) :=
  .of_operand hm (wordFill_kept s v gs) (by simp [wordFill]) (fun h => wordFill_pending h v gs) gs
    (wordFill_pc s v gs)

theorem regUnary_effect {op : Word → Effect 16} (hop : ∀ v, (op v).Within m) (hm : statusWritten i = m) :
    ExecEffect i s (regUnary op w s) :=
  .of_kept hm (regUnary_kept s op w) ((hop _).conclude_outside (by simp)) (fun h => regUnary_pending h op w)
    fun h => h.of_eq (regUnary_kept s op w).params (regUnary_pc s op w)

/-- The count of a shift costs at most one read of R0 (44_shift.md R210). -/
theorem shiftCount_kept (count : BitVec 4) (s : State) : Kept s (shiftCount count s).2 := by
  unfold shiftCount
  split
  · exact ((Kept.refl s).readReg _).addCycles _
  · exact .refl s

theorem shiftCount_fields (count : BitVec 4) (s : State) :
    (shiftCount count s).2.pc = s.pc ∧ (shiftCount count s).2.st = s.st ∧
    (shiftCount count s).2.pendingSrc = s.pendingSrc ∧ (shiftCount count s).2.pendingDst = s.pendingDst := by
  unfold shiftCount
  split <;> exact ⟨rfl, rfl, rfl, rfl⟩

theorem shiftRegister_effect {op : Nat → Word → Effect 16} (hop : ∀ cnt v, (op cnt v).Within m)
    {count : BitVec 4} (hm : statusWritten i = m) : ExecEffect i s (shiftRegister op count w s) := by
  obtain ⟨hpc, hst, hsrc, hdst⟩ := shiftCount_fields count s
  have hk : Kept s (shiftRegister op count w s) := (shiftCount_kept count s).trans (regUnary_kept _ _ w)
  exact .of_kept hm hk ((hop _ _).conclude_outside (by simp [hst]))
    (fun h => regUnary_pending ⟨hsrc.trans h.1, hdst.trans h.2⟩ _ w)
    fun h => h.of_eq hk.params ((regUnary_pc _ _ w).trans hpc)

theorem jumpIf_effect {cond : Bool} {disp : BitVec 8} (hm : statusWritten i = 0#16) :
    ExecEffect i s (jumpIf cond disp s) := by
  cases cond
  case false => exact .of_kept hm ((Kept.refl s).addCycles _) rfl id id
  case true => exact .of_kept hm (((Kept.refl s).setPc _).addCycles _) rfl id fun h => .setPc h.1 _

end Sys2Proof.Machine
end

section
/-! SUPPORT. The instructions with a meaning of their own, then all of them: `exec_effect`. -/

namespace Sys2Proof.Machine

variable {s t : State} {i : Instr} {m : Word}

/-! ## Registers, PC and the control pulses -/

theorem execLi_effect (w : Reg) (imm : Word) (s : State) (h : execLi w imm s = .next t) :
    ExecEffect (.li w imm) s t := by
  cases h
  exact .of_kept rfl (((Kept.refl s).writeReg w imm).conclude _)
    ((resultEffect_within imm 12).conclude_outside rfl) id id

/-- STWP and STST: a word of the machine's own stored in a register. -/
theorem writeReg_effect {w : Reg} {v : Word} {cycles : Nat} (hm : statusWritten i = 0#16) :
    ExecEffect i s ((s.writeReg w v).addCycles cycles) :=
  .of_kept hm (((Kept.refl s).writeReg w v).addCycles _) rfl id id

theorem execLwpi_effect (imm : Word) (s : State) (h : execLwpi imm s = .next t) : ExecEffect (.lwpi imm) s t := by
  cases h
  exact .of_exceptWp rfl rfl ⟨rfl, id, List.suffix_rfl, .refl s⟩ rfl id id

theorem execLimi_effect (imm : Word) (s : State) (h : execLimi imm s = .next t) : ExecEffect (.limi imm) s t := by
  cases h
  exact .of_kept rfl (((Kept.refl s).setSt _ _).addCycles _)
    (State.setSt_outside rfl (.self _) (.and _ (.self _)) _) id id

theorem execIdle_effect (s : State) (h : execIdle s = .next t) : ExecEffect .idle s t := by
  cases h
  exact ⟨rfl, fun _ => rfl, fun _ h => absurd rfl h, fun _ => rfl,
    ⟨⟨rfl, id, List.suffix_rfl, (ExtendsCalls.refl s).cons rfl⟩, id, id⟩⟩

theorem execRset_effect (s : State) (h : execRset s = .next t) : ExecEffect .rset s t := by
  cases h
  have hk : Kept s (s.pulse .rset) := (Kept.refl s).record _
  cases s.params.rsetClearsMask
  · exact .of_kept rfl (hk.addCycles _) rfl id id
  · exact .of_kept rfl ((hk.setSt _ _).addCycles _) (State.setSt_outside rfl (.self _) BitVec.zero_and _) id id

/-- CKON, CKOF and LREX. -/
theorem pulse_effect {p : Pulse} (hm : statusWritten i = 0#16) : ExecEffect i s ((s.pulse p).addCycles 12) :=
  .of_kept hm (((Kept.refl s).record _).addCycles _) rfl id id

theorem execB_effect (gs : Operand) (s : State) (h : execB gs s = .next t) : ExecEffect (.b gs) s t := by
  cases h
  refine .of_kept rfl (((branchTarget_kept s gs).setPc _).addCycles _) (by simp) (fun h => ?_) fun h => ?_
  · simp [State.NoPending, h.2]
  · exact .setPc (u := (branchTarget gs s).2) (by simp [h.1]) _

theorem execBl_effect (gs : Operand) (s : State) (h : execBl gs s = .next t) : ExecEffect (.bl gs) s t := by
  cases h
  refine .of_kept rfl ((((branchTarget_kept s gs).writeReg _ _).setPc _).addCycles _) (by simp) (fun h => ?_)
    fun h => ?_
  · simp [State.NoPending, h.2]
  · exact .setPc (u := (branchTarget gs s).2.writeReg 11#4 _) (by simp [h.1]) _

/-! ## The context switches (48_context_control.md) -/

theorem execBlwp_effect (gs : Operand) (s : State) (h : execBlwp gs s = .next t) : ExecEffect (.blwp gs) s t := by
  cases h
  have hr : Kept s (resolve .src gs .word s).2 := (Kept.refl s).resolve _ _ _
  have hk := (hr.keepsPart.trans (State.contextSwitch_keepsPart _ (resolve .src gs .word s).1 none)).trans
    (((Kept.refl _).postInc .src).addCycles 26).keepsPart
  refine .of_exceptWp rfl rfl hk (by simp) (fun h => ?_) fun h => ⟨?_, ?_⟩
  · simp [State.NoPending, h.2]
  · simpa using h.1
  · simpa using State.contextSwitch_pc_even _ (by simpa using h.1) _ _

theorem execRtwp_effect (s : State) (h : execRtwp s = .next t) : ExecEffect .rtwp s t := by
  cases h
  have hk := s.contextReturn_keepsPart.trans ((Kept.refl _).addCycles 14).keepsPart
  exact .of_exceptWp rfl rfl hk (by simp [statusWritten]) id fun h => .setPc (u := s) h.1 _

theorem execXop_effect (gs : Operand) (n : BitVec 4) (s : State) (h : execXop gs n s = .next t) :
    ExecEffect (.xop gs n) s t := by
  cases h
  have hk := ((branchTarget_kept s gs).keepsPart.trans
    (State.contextSwitch_keepsPart _ (xopVector n) (some (branchTarget gs s).1))).trans
    (((Kept.refl _).setSt flagX flagX).addCycles 36).keepsPart
  refine .of_exceptWp rfl rfl hk (State.setSt_outside (by simp) (.self _) (.self _) _) (fun h => ?_)
    fun h => ⟨?_, ?_⟩
  · simp [State.NoPending, h.2]
  · simpa using h.1
  · exact State.contextSwitch_pc_even _ (by simpa using h.1) _ _

/-! ## The CRU (46_cru.md) -/

theorem cruBase_kept (s : State) : Kept s (cruBase s).2 := (Kept.refl s).readReg _

/-- SBO and SBZ. -/
theorem setBit_effect {a : CruAddr} {v : Bool} (hm : statusWritten i = 0#16) :
    ExecEffect i s (((cruBase s).2.writeBit a v).addCycles 12) :=
  .of_kept hm (((cruBase_kept s).record _).addCycles _) rfl id id

theorem execTb_effect (disp : BitVec 8) (s : State) (h : execTb disp s = .next t) : ExecEffect (.tb disp) s t := by
  cases h
  obtain ⟨-, hpc, hst, -, -, hsrc, hdst, -, hparams, -⟩ :=
    (cruBase s).2.readBit_frame (cruBitAddr (cruBase s).1 disp)
  refine .of_keepsPart rfl (((cruBase_kept s).keepsPart.trans (State.readBit_keepsPart _ _)).trans
    (((Kept.refl _).setSt _ _).addCycles _).keepsPart)
    (State.setSt_outside hst (.self _) (.flagIf (.self _) _) _) (fun h => ?_) fun h => ?_
  · exact ⟨hsrc.trans h.1, hdst.trans h.2⟩
  · exact h.of_eq hparams hpc

/-- The flags of a transfer of a byte are those of a count of 1 to 8, the field 0 meaning 16 (46_cru.md R251). -/
theorem cruCount_le_eight (count : BitVec 4) : cruCount count ≤ 8 ↔ 1 ≤ count.toNat ∧ count.toNat ≤ 8 := by
  revert count; decide

/-- The end of LDCR: the bits of a value sent from the state `u` its operand left, then the flags (R255). -/
theorem sendBits_effect (hm : statusWritten i = m) {u : State} (hk : Kept s u) (hst : u.st = s.st)
    (hp : s.NoPending → u.NoPending) (hpc : s.EvenPc → u.EvenPc) (v bits : Word) (hb : StatusIn m bits)
    (cnt cycles : Nat) :
    ExecEffect i s (((writeBits (cruBase u).1 v cnt (cruBase u).2).setSt m bits).addCycles cycles) := by
  obtain ⟨wpc, wst, wsrc, wdst⟩ := writeBits_fields (cruBase u).1 v cnt (cruBase u).2
  have hw := (hk.trans (cruBase_kept u)).trans (writeBits_kept (cruBase u).1 v cnt _)
  refine .of_kept hm ((hw.setSt m bits).addCycles cycles) (State.setSt_outside (wst.trans hst) (.self m) hb _)
    (fun h => ?_) fun h => ?_
  · exact ⟨wsrc.trans (hp h).1, wdst.trans (hp h).2⟩
  · exact (hpc h).of_eq (writeBits_kept _ _ _ _).params wpc

theorem statusWritten_transfer_byte {count : BitVec 4} (hc : cruCount count ≤ 8) (gs : Operand) :
    statusWritten (.ldcr gs count) = maskCompareOP ∧ statusWritten (.stcr gs count) = maskCompareOP :=
  have h := (cruCount_le_eight count).1 hc
  ⟨if_pos h, if_pos h⟩

theorem statusWritten_transfer_word {count : BitVec 4} (hc : ¬ cruCount count ≤ 8) (gs : Operand) :
    statusWritten (.ldcr gs count) = maskCompare ∧ statusWritten (.stcr gs count) = maskCompare :=
  have h := mt (cruCount_le_eight count).2 hc
  ⟨if_neg h, if_neg h⟩

theorem execLdcr_byte {count : BitVec 4} (hc : cruCount count ≤ 8) (gs : Operand) (s : State) :
    execLdcr gs count s = .next (((writeBits (cruBase (readSourceByte gs s).2).1
      ((readSourceByte gs s).1.setWidth 16) (cruCount count) (cruBase (readSourceByte gs s).2).2).cruByteFlags
      (readSourceByte gs s).1).addCycles (20 + 2 * cruCount count)) := if_pos hc

theorem execLdcr_word {count : BitVec 4} (hc : ¬ cruCount count ≤ 8) (gs : Operand) (s : State) :
    execLdcr gs count s = .next (((writeBits (cruBase (readSource gs s).2).1 (readSource gs s).1 (cruCount count)
      (cruBase (readSource gs s).2).2).cruWordFlags (readSource gs s).1).addCycles (20 + 2 * cruCount count)) :=
  if_neg hc

theorem execLdcr_effect (gs : Operand) (count : BitVec 4) (s : State) (h : execLdcr gs count s = .next t) :
    ExecEffect (.ldcr gs count) s t := by
  by_cases hc : cruCount count ≤ 8
  · rw [execLdcr_byte hc] at h
    cases h
    exact sendBits_effect (statusWritten_transfer_byte hc gs).1 (readSourceByte_kept s gs) (by simp)
      (fun h => by simp [State.NoPending, h.2]) (·.readSourceByte gs) _ _ (.and _ (.self _)) _ _
  · rw [execLdcr_word hc] at h
    cases h
    exact sendBits_effect (statusWritten_transfer_word hc gs).1 (readSource_kept s gs) (by simp)
      (fun h => by simp [State.NoPending, h.2]) (·.readSource gs) _ _ (.and _ (.self _)) _ _

/-- The beginning of STCR: the operand resolved, R12 read, the bits read (R256). -/
def receiveBits (gs : Operand) (size : Size) (cnt : Nat) (s : State) : Word × State :=
  readBits (cruBase (resolve .src gs size s).2).1 cnt (cruBase (resolve .src gs size s).2).2

theorem execStcr_byte {count : BitVec 4} (hc : cruCount count ≤ 8) (gs : Operand) (s : State) :
    execStcr gs count s = .next (((((receiveBits gs .byte (cruCount count) s).2.writeByte (resolve .src gs .byte s).1
      (lowByte (receiveBits gs .byte (cruCount count) s).1)).postInc .src).cruByteFlags
      (lowByte (receiveBits gs .byte (cruCount count) s).1)).addCycles (stcrCycles (cruCount count))) := if_pos hc

theorem execStcr_word {count : BitVec 4} (hc : ¬ cruCount count ≤ 8) (gs : Operand) (s : State) :
    execStcr gs count s = .next (((((receiveBits gs .word (cruCount count) s).2.writeWord (resolve .src gs .word s).1
      (receiveBits gs .word (cruCount count) s).1).postInc .src).cruWordFlags
      (receiveBits gs .word (cruCount count) s).1).addCycles (stcrCycles (cruCount count))) := if_neg hc

theorem receiveBits_keepsPart (gs : Operand) (size : Size) (cnt : Nat) (s : State) :
    KeepsPart Rest.dataPart s (receiveBits gs size cnt s).2 :=
  (((Kept.refl s).resolve .src gs size).trans (cruBase_kept _)).keepsPart.trans (readBits_keepsPart _ cnt _)

theorem receiveBits_fields (gs : Operand) (size : Size) (cnt : Nat) (s : State) :
    (receiveBits gs size cnt s).2.pc = pcAfterOperand s gs ∧ (receiveBits gs size cnt s).2.st = s.st ∧
    (receiveBits gs size cnt s).2.pendingDst = s.pendingDst := by
  obtain ⟨rpc, rst, -, rdst⟩ :=
    readBits_fields (cruBase (resolve .src gs size s).2).1 cnt (cruBase (resolve .src gs size s).2).2
  exact ⟨rpc.trans (resolve_pc s .src gs size), rst.trans (resolve_st s .src gs size),
    rdst.trans (resolve_src_pendingDst s gs size)⟩

/-- The end of STCR, from the state `u` the store left: the increment and the flags (R256). -/
theorem storeBits_effect (hm : statusWritten i = m) {gs : Operand} {size : Size} {cnt : Nat} {u : State}
    (hk : Kept (receiveBits gs size cnt s).2 u) (hpc : u.pc = (receiveBits gs size cnt s).2.pc)
    (hst : u.st = (receiveBits gs size cnt s).2.st) (hdst : u.pendingDst = (receiveBits gs size cnt s).2.pendingDst)
    {bits : Word} (hb : StatusIn m bits) (cycles : Nat) :
    ExecEffect i s (((u.postInc .src).setSt m bits).addCycles cycles) := by
  obtain ⟨rpc, rst, rdst⟩ := receiveBits_fields gs size cnt s
  have hkeeps := (receiveBits_keepsPart gs size cnt s).trans
    ((((hk.postInc .src).setSt m bits).addCycles cycles).keepsPart)
  refine .of_keepsPart hm hkeeps (State.setSt_outside (by simp [hst, rst]) (.self m) hb _) (fun h => ?_) fun h => ?_
  · simp [State.NoPending, hdst, rdst, h.2]
  · exact h.afterOperand gs (congrArg Rest.params hkeeps.part) (by simp [hpc, rpc])

theorem execStcr_effect (gs : Operand) (count : BitVec 4) (s : State) (h : execStcr gs count s = .next t) :
    ExecEffect (.stcr gs count) s t := by
  by_cases hc : cruCount count ≤ 8
  · rw [execStcr_byte hc] at h
    cases h
    exact storeBits_effect (statusWritten_transfer_byte hc gs).2 ((Kept.refl _).writeByte _ _) rfl rfl rfl
      (.and _ (.self _)) _
  · rw [execStcr_word hc] at h
    cases h
    exact storeBits_effect (statusWritten_transfer_word hc gs).2 ((Kept.refl _).writeWord _ _) rfl rfl rfl
      (.and _ (.self _)) _

/-! ## Multiply and divide (47_muldiv.md) -/

theorem execMpy_effect (gs : Operand) (d : Reg) (s : State) (h : execMpy gs d s = .next t) :
    ExecEffect (.mpy gs d) s t := by
  cases h
  refine .of_operand rfl (((((readSource_kept s gs).readReg d).writeReg d _).writeWord _ _).addCycles 52)
    (by simp) (fun h => ?_) gs ?_
  · simp [State.NoPending, h.2]
  · simp [readSource_pc]

theorem execDiv_effect (gs : Operand) (d : Reg) (s : State) (h : execDiv gs d s = .next t) :
    ExecEffect (.div gs d) s t := by
  have hr : Kept s ((readSource gs s).2.readReg d).2 := (readSource_kept s gs).readReg d
  cases h
  split
  · refine .of_operand rfl (((((hr.readWord _).writeReg d _).writeWord _ _).setSt flagOV 0#16).addCycles 92)
      (State.setSt_outside (by simp) (.self _) BitVec.zero_and _) (fun h => ?_) gs ?_
    · simp [State.NoPending, h.2]
    · simp [readSource_pc]
  · refine .of_operand rfl ((hr.setSt flagOV flagOV).addCycles 16)
      (State.setSt_outside (by simp) (.self _) (.self _) _) (fun h => ?_) gs ?_
    · simp [State.NoPending, h.2]
    · simp [readSource_pc]

/-! ## X, and every instruction (45_jump_branch.md R238) -/

/-- The immediate that decoding fetches (40_flags_addressing_step.md R125). -/
theorem fetchWord_fixed (s : State) : Fixed s s.fetchWord.2 :=
  ⟨((Kept.refl s).readWord _).setPc _ |>.keepsPart, id, fun h => .setPc (u := (s.readWord s.pc).2) h.1 _⟩

theorem decodeFetched_fixed {w : Word} (h : s.decodeFetched w = some (i, t)) : Fixed s t := by
  obtain ⟨r, -, ⟨-, -, rfl⟩ | ⟨-, -, rfl⟩⟩ := State.decodeFetched_cases s h
  · exact fetchWord_fixed s
  · exact .refl t

theorem illegalInstruction_fixed (s : State) : Fixed s s.illegalInstruction :=
  ⟨⟨rfl, id, List.suffix_rfl, .refl s⟩, id, id⟩

/-- What an X's target keeps at one level deeper, the X keeps. -/
theorem Fixed.of_deeper (h : Fixed { s with xDepth := s.xDepth + 1 } t) :
    Fixed s { t with xDepth := t.xDepth - 1 } where
  host := by
    have hx : t.xDepth - 1 = s.xDepth := by rw [h.xDepth]; rfl
    have hpart := congrArg (fun r : Rest => { r with xDepth := s.xDepth }) h.host.part
    rw [hx]
    exact ⟨hpart, h.host.mem, h.host.answers, h.host.calls⟩
  pending := h.pending
  pc := h.pc

theorem leaveX_eq_next {o : StepOutcome} :
    leaveX o = .next t ↔ ∃ u, o = .next u ∧ t = { u with xDepth := u.xDepth - 1 } := by
  cases o <;> simp [leaveX, eq_comm]

/-- X keeps what its target keeps. -/
theorem execXWith_fixed {execute : Instr → State → StepOutcome}
    (hexec : ∀ i s t, execute i s = .next t → Fixed s t) {gs : Operand} (h : execXWith execute gs s = .next t) :
    Fixed s t := by
  have hsrc : Fixed s ((readSource gs s).2.addCycles 4) :=
    ⟨((readSource_kept s gs).addCycles 4).keepsPart, fun h => by simp [State.NoPending, h.2], (·.readSource gs)⟩
  refine hsrc.trans ?_
  unfold execXWith at h
  simp only at h
  split at h
  case h_1 =>
    obtain ⟨u, hu, rfl⟩ := leaveX_eq_next.1 h
    cases hu
    exact (illegalInstruction_fixed _).of_deeper
  case h_2 r hr =>
    obtain ⟨u, hu, rfl⟩ := leaveX_eq_next.1 h
    exact ((decodeFetched_fixed hr).trans (hexec _ _ _ hu)).of_deeper

/-- Every instruction, whatever X means as long as X keeps what all keep. -/
theorem execWith_effect {xMeaning : Operand → State → StepOutcome}
    (hx : ∀ gs, xMeaning gs s = .next t → Fixed s t) (h : execWith xMeaning i s = .next t) : ExecEffect i s t := by
  cases i
  case li w imm => exact execLi_effect w imm s h
  case lwpi imm => exact execLwpi_effect imm s h
  case limi imm => exact execLimi_effect imm s h
  case idle => exact execIdle_effect s h
  case rset => exact execRset_effect s h
  case rtwp => exact execRtwp_effect s h
  case blwp gs => exact execBlwp_effect gs s h
  case b gs => exact execB_effect gs s h
  case bl gs => exact execBl_effect gs s h
  case x gs => exact ⟨by simp [statusWritten], nofun, nofun, nofun, hx gs h⟩
  case tb disp => exact execTb_effect disp s h
  case xop gs n => exact execXop_effect gs n s h
  case ldcr gs count => exact execLdcr_effect gs count s h
  case stcr gs count => exact execStcr_effect gs count s h
  case mpy gs d => exact execMpy_effect gs d s h
  case div gs d => exact execDiv_effect gs d s h
  all_goals cases h
  case stwp | stst => exact writeReg_effect rfl
  case ckon | ckof | lrex => exact pulse_effect rfl
  case sbo | sbz => exact setBit_effect rfl
  case jmp | jlt | jle | jeq | jhe | jgt | jne | jnc | joc | jno | jl | jh | jop => exact jumpIf_effect rfl
  case clr | seto => exact wordFill_effect rfl
  case ai => exact regUnary_effect (fun _ => sumEffect_within _ _) rfl
  case andi | ori => exact regUnary_effect (fun _ => resultEffect_within _ _) rfl
  case ci => exact regUnary_effect (fun _ => compareEffect_within _ _) rfl
  case sra | srl | src => exact shiftRegister_effect (fun _ _ => shiftEffect_within _ _ _) rfl
  case sla => exact shiftRegister_effect slaEffect_within rfl
  case neg | inc => exact wordUnary_effect (fun _ => tableEffect_within _ _ _) rfl
  case abs => exact wordUnary_effect (fun _ => absEffect_within _ _ _) rfl
  case inv => exact wordUnary_effect (fun _ => resultEffect_within _ _) rfl
  case inct | dec | dect => exact wordUnary_effect (fun _ => stepEffect_within _ _ _) rfl
  case swpb => exact wordUnary_effect (fun _ => noStatus_within _ _) rfl
  case coc | czc => exact regDual_effect (fun _ _ => equalEffect_within _) rfl
  case xor => exact regDual_effect (fun _ _ => resultEffect_within _ _) rfl
  case a | s => exact wordDual_effect (fun _ _ => sumEffect_within _ _) rfl
  case soc | szc => exact wordDual_effect (fun _ _ => resultEffect_within _ _) rfl
  case c => exact wordDual_effect (fun _ _ => compareEffect_within _ _) rfl
  case ab | sb => exact byteDual_effect (fun _ _ => byteSumEffect_within _) rfl
  case socb | szcb => exact byteDual_effect (fun _ _ => byteResultEffect_within _) rfl
  case cb => exact byteDual_effect (fun _ _ => byteCompareEffect_within _ _) rfl
  case mov => exact wordMove_effect (fun _ => resultEffect_within _ _) rfl
  case movb => exact byteMove_effect (fun _ => byteResultEffect_within _) rfl

/-- A chain of X of any length keeps what all instructions keep. -/
theorem execDepth_fixed (fuel : Nat) (i : Instr) (s t : State) (h : execDepth fuel i s = .next t) : Fixed s t := by
  induction fuel generalizing i s t with
  | zero => exact (execWith_effect (fun _ hx => by cases hx) h).fixed
  | succ fuel ih => exact (execWith_effect (fun _ => execXWith_fixed ih) h).fixed

theorem exec_eq_execWith (i : Instr) (s : State) : exec i s = execWith execX i s := by cases i <;> rfl

/-- All that the next state of an instruction may differ in. -/
theorem exec_effect (h : exec i s = .next t) : ExecEffect i s t :=
  execWith_effect (fun _ => execXWith_fixed (execDepth_fixed _)) (exec_eq_execWith i s ▸ h)

end Sys2Proof.Machine
end

section
/-! SUPPORT. The invariant through one step, and the obligations of the state family (10_state.md). -/

namespace Sys2Proof.Machine

variable {s t : State}

/-! ## The invariant, from the fetch to the end of the run loop's pass -/

/-- An illegal word or an instruction, once fetched. -/
theorem executeWord_inv {w : Word} (hi : s.Inv) (h : executeWord w s = .next t) : t.Inv := by
  unfold executeWord at h
  split at h
  case h_1 => cases h; exact (illegalInstruction_fixed s).inv hi
  case h_2 r hr => exact (exec_effect h).fixed.inv ((decodeFetched_fixed hr).inv hi)

theorem State.Inv.sampleInt (hi : s.Inv) : s.sampleInt.2.Inv := by
  rw [State.sampleInt_frame]; exact hi

/-- The dispatch switches context and touches ST, `idle` and the cycles besides. -/
theorem State.Inv.interruptDispatch (hi : s.Inv) : s.interruptDispatch.Inv := by
  obtain ⟨hmem, hparams, -, hpending, hx⟩ := hi
  obtain ⟨dmem, dpc, -, -, -, -, dsrc, ddst, dx, dparams⟩ := s.interruptDispatch_fields
  refine ⟨?_, ?_, ?_, ⟨dsrc.trans hpending.1, ddst.trans hpending.2⟩, dx.trans hx⟩
  · rw [dmem]; exact (s.contextSwitch_keepsPart _ none).mem hmem
  · rw [dparams]; exact hparams
  · rw [dpc]; exact s.contextSwitch_pc_even hparams _ none

theorem State.Inv.interruptTest (hi : s.Inv) : s.interruptTest.Inv := by
  unfold State.interruptTest
  simp only
  split
  · exact hi.sampleInt.interruptDispatch
  · exact hi.sampleInt

theorem endStep_eq_next {o : StepOutcome} : endStep o = .next t ↔ ∃ u, o = .next u ∧ t = u.interruptTest := by
  cases o <;> simp [endStep, eq_comm]

theorem instructionStep_inv (hi : s.Inv) (h : instructionStep s = .next t) : t.Inv := by
  obtain ⟨u, hu, rfl⟩ := endStep_eq_next.1 h
  exact (executeWord_inv ((fetchWord_fixed s).inv hi) hu).interruptTest

/-- What a pass of the run loop leaves: the state it stopped in, or the outcome of its step. -/
def PassResult.outcome : PassResult → StepOutcome
  | .stopped t => .next t
  | .ran o => o

theorem step_eq_outcome (s : State) : step s = (loopPass s).outcome := by
  unfold step; cases loopPass s <;> rfl

theorem passBody_inv (hi : s.Inv) (h : (passBody s).outcome = .next t) : t.Inv := by
  unfold passBody at h
  split at h
  · cases h; exact hi
  · obtain ⟨u, hu, rfl⟩ := leaveStep_eq_next.1 h
    exact (instructionStep_inv (s := { s with bpLatch := false }) hi hu : u.Inv)

theorem loopPass_inv (hi : s.Inv) (h : (loopPass s).outcome = .next t) : t.Inv := by
  unfold loopPass at h
  split at h
  case isTrue => cases h; exact hi
  case isFalse =>
    split at h
    case isFalse => exact passBody_inv hi h
    case isTrue =>
      simp only at h
      split at h
      · exact passBody_inv hi.sampleInt.interruptDispatch h
      · cases h; exact hi.sampleInt

/-! ## Registers of a workspace -/

/-- `RegAddr(n)` as a number (R24). -/
theorem State.regAddr_toNat (s : State) (n : Reg) :
    (s.regAddr n).toNat = (s.wp.toNat + 2 * n.toNat) % 65536 := by
  have hn := n.isLt
  simp only [State.regAddr, BitVec.toNat_add, BitVec.toNat_mul, BitVec.toNat_setWidth, BitVec.toNat_ofNat]
  omega

/-- An odd WP addresses the registers of WP - 1 (R21). -/
theorem State.regAt_odd_wp (h : s.wp &&& 1#16 = 1#16) (n : Reg) :
    State.regAt { s with wp := s.wp - 1#16 } n = s.regAt n := by
  have hodd : s.wp.toNat % 2 = 1 := by
    simpa [BitVec.toNat_and, Nat.and_one_is_mod] using congrArg BitVec.toNat h
  have hn := n.isLt
  have hwp := s.wp.isLt
  have hsub : (s.wp - 1#16).toNat = s.wp.toNat - 1 := by
    rw [BitVec.toNat_sub]; simp only [BitVec.toNat_ofNat]; omega
  refine s.mem.wordAt_congr ((evenAddr_eq_iff _ _).2 ?_)
  rw [State.regAddr_toNat, State.regAddr_toNat]
  show ((s.wp - 1#16).toNat + 2 * n.toNat) % 65536 / 2 = _
  rw [hsub]
  omega

end Sys2Proof.Machine

namespace Sys2Proof.Proofs.StateFamily

open Sys2Proof Sys2Proof.Machine

/-- Settles O4: PC comes from an even address, and memory lists nothing. -/
theorem resetMeetsInvariant : Obligations.ResetMeetsInvariant := by
  unfold Obligations.ResetMeetsInvariant
  exact ⟨rfl, by decide, evenAddr_and_one _, ⟨rfl, rfl⟩, rfl⟩

/-- Settles O17, from the address of a register and the rules of a word write. -/
theorem workspaceRegistersAreMemory : Obligations.WorkspaceRegistersAreMemory := by
  unfold Obligations.WorkspaceRegistersAreMemory
  intro s n v
  refine ⟨s.regAddr_toNat n, rfl, s.wordAt_writeWord_self _ v, s.wordAt_writeWord_self _ v, ?_,
    fun hodd => State.regAt_odd_wp hodd n⟩
  intro a ha
  exact s.byteAt_writeWord_other v (ha _ (List.mem_singleton_self _))

/-- Settles O58: the status part of what one instruction does. -/
theorem statusBitsLeftAlone : Obligations.StatusBitsLeftAlone := by
  unfold Obligations.StatusBitsLeftAlone
  exact fun _ _ _ h => (exec_effect h).status

/-- Settles O59: the other parts of what one instruction does, X through its target. -/
theorem stateEachInstructionLeavesAlone : Obligations.StateEachInstructionLeavesAlone := by
  unfold Obligations.StateEachInstructionLeavesAlone
  intro i s t hpending h
  obtain ⟨-, hwp, hidle, hillegal, hfixed⟩ := exec_effect h
  exact ⟨hwp, hidle, hillegal, hfixed.suspended, hfixed.breakpoint, hfixed.bpLatch, hfixed.params, hfixed.intSamples,
    hfixed.suspendChanges, hfixed.host.answers, hfixed.pending hpending, hfixed.xDepth, hfixed.host.calls⟩

/-- Settles O5: each part of a pass of the run loop keeps the invariant, an instruction because of what all
instructions keep. -/
theorem everyStepKeepsInvariant : Obligations.EveryStepKeepsInvariant := by
  unfold Obligations.EveryStepKeepsInvariant
  intro s t hi h
  rw [step_eq_outcome] at h
  exact loopPass_inv hi h

end Sys2Proof.Proofs.StateFamily
end

section
/-! SUPPORT. What the Memory Port answers, and the obligations of the memory family (20_memory.md). -/

namespace Sys2Proof.Machine

/-! ## What the port answers to a read (20_memory.md R61; log 1) -/

/-- A hook's word is the answer, whatever memory holds. -/
theorem State.answerAt_hooked {s : State} {hooked : Word} {later : List (Option Word)}
    (h : s.readAnswers = some hooked :: later) (a : Word) : s.answerAt a = hooked := by
  simp [State.answerAt, h]

/-- A read that no hook takes, with hooks on later reads, is answered by memory. -/
theorem State.answerAt_unhooked {s : State} {later : List (Option Word)}
    (h : s.readAnswers = none :: later) (a : Word) : s.answerAt a = s.wordAt a := by
  simp [State.answerAt, h]

@[simp] theorem State.wordAt_evenAddr (s : State) (a : Word) : s.wordAt (evenAddr a) = s.wordAt a :=
  s.mem.wordAt_evenAddr a

/-- A word read uses up one waiting answer and is recorded with it (R52). -/
theorem State.readWord_eq (s : State) (a : Word) :
    (s.readWord a).2 =
      { s with
        readAnswers := s.readAnswers.drop 1
        calls := .readWord (evenAddr a) (s.readWord a).1 :: s.calls } := by
  rw [List.drop_one]
  rfl

/-! ## A word and its two bytes (20_memory.md R54, R55, R56) -/

/-- The byte after an even address does not wrap to address 0. -/
theorem evenAddr_add_one_toNat (a : Word) : (evenAddr a + 1#16).toNat = (evenAddr a).toNat + 1 :=
  BitVec.toNat_add_of_lt (evenAddr_succ_lt a)

/-- High byte first (R56). -/
theorem State.wordAt_eq_append (s : State) (a : Word) :
    s.wordAt a = s.byteAt (evenAddr a) ++ s.byteAt (evenAddr a + 1#16) := by
  unfold State.wordAt Memory.wordAt State.byteAt
  rw [evenAddr_add_one_toNat]

/-- `selectByte` by the parity of the address as a number. -/
theorem selectByte_eq_ite (a w : Word) :
    selectByte a w = if a.toNat % 2 = 0 then w.extractLsb' 8 8 else w.extractLsb' 0 8 := by
  simp only [selectByte, and_one_eq_zero_iff, highByte, lowByte]

/-- `mergeByte` by the parity of the address as a number. -/
theorem mergeByte_eq_ite (a w : Word) (b : Byte) :
    mergeByte a b w = if a.toNat % 2 = 0 then b ++ w.extractLsb' 0 8 else w.extractLsb' 8 8 ++ b := by
  simp only [mergeByte, and_one_eq_zero_iff, highByte, lowByte]

/-- A byte write leaves the merge with the port's answer in its word, hooked or not (R55). -/
@[simp] theorem State.wordAt_writeByte_self (s : State) (a : Word) (b : Byte) :
    (s.writeByte a b).wordAt a = mergeByte a b (s.answerAt a) :=
  (s.readWord a).2.wordAt_writeWord_self a _

/-- A byte write is a read and then a write of the word it leaves (R55). -/
theorem State.writeByte_eq (s : State) (a : Word) (b : Byte) :
    s.writeByte a b =
      { s with
        mem := (s.writeByte a b).mem
        readAnswers := s.readAnswers.drop 1
        calls := .writeWord (evenAddr a) ((s.writeByte a b).wordAt a) :: .readWord (evenAddr a) (s.answerAt a) ::
          s.calls } := by
  rw [State.wordAt_writeByte_self, List.drop_one]
  rfl

end Sys2Proof.Machine

namespace Sys2Proof.Proofs.MemoryFamily

open Sys2Proof Sys2Proof.Machine

/-- Settles O15, from the three ways the port answers and the rules of a word write. -/
theorem wordAccess : Obligations.WordAccess := by
  unfold Obligations.WordAccess
  intro s a b v
  refine ⟨s.readWord_eq a, fun _ _ h => State.answerAt_hooked h a, ?_, rfl, s.wordAt_writeWord a v b,
    evenAddr_toNat a⟩
  intro later hram
  rw [State.readWord_value, State.wordAt_evenAddr]
  rcases hram with hnext | hempty
  · exact State.answerAt_unhooked hnext a
  · exact State.answerAt_ram hempty a

/-- Settles O16: a byte access is `selectByte` or `mergeByte` of the port's answer, and under the RAM premise that
answer is the word of memory. -/
theorem byteAccess : Obligations.ByteAccess := by
  unfold Obligations.ByteAccess
  intro s a v
  refine ⟨s.wordAt_eq_append a, selectByte_eq_ite a _, rfl, ?_, s.byteAt_writeByte_self a v, ?_, s.writeByte_eq a v,
    fun hram => ⟨?_, fun _ hx => s.byteAt_writeByte_other hram v hx⟩⟩
  · rw [State.wordAt_writeByte_self, mergeByte_eq_ite]
  · intro x hx
    exact s.byteAt_writeByte_otherWord v (hx a (List.mem_singleton_self a))
  · rw [State.readByte_value, State.answerAt_ram hram, State.selectByte_wordAt]

end Sys2Proof.Proofs.MemoryFamily
end

section
/-! SUPPORT. The dispatch table as a whole (30_encoding.md R82, R94): no word selects two rows, and which words
select a row of a format. -/

namespace Sys2Proof

/-- The mask a row is selected by, under a setting of UNUSED_BITS_ALIAS (R96). -/
def Row.maskUnder (aliased : Bool) (r : Row) : Word := if aliased then r.aliasMask else r.mask

theorem Row.selects_iff {aliased : Bool} {w : Word} {r : Row} :
    r.selects aliased w = true ↔ w &&& r.maskUnder aliased = r.pattern := beq_iff_eq

/-! ## No two rows share a word -/

/-- Two rows ask for different bits at a place both of their masks look at. -/
def Row.Differs (aliased : Bool) (r q : Row) : Prop :=
  r.pattern &&& q.maskUnder aliased ≠ q.pattern &&& r.maskUnder aliased

/-- A word both rows select would have to show both bits there. -/
theorem Row.Differs.disjoint {aliased : Bool} {r q : Row} (h : r.Differs aliased q) (w : Word) :
    ¬ (r.selects aliased w = true ∧ q.selects aliased w = true) := by
  rintro ⟨hr, hq⟩
  rw [Row.selects_iff] at hr hq
  refine h ?_
  rw [← hr, ← hq, BitVec.and_assoc, BitVec.and_assoc, BitVec.and_comm (r.maskUnder aliased)]

theorem rows_pairwise_differ (aliased : Bool) : rows.Pairwise (Row.Differs aliased) := by
  unfold Row.Differs
  cases aliased <;> decide

theorem rows_pairwise_disjoint (aliased : Bool) :
    rows.Pairwise fun r q => ∀ w : Word, ¬ (r.selects aliased w = true ∧ q.selects aliased w = true) :=
  (rows_pairwise_differ aliased).imp Row.Differs.disjoint

/-- The row found is the one row the word selects. -/
theorem findRow_eq_some_iff {aliased : Bool} {w : Word} {r : Row} :
    findRow aliased w = some r ↔ r ∈ rows ∧ r.selects aliased w = true := by
  refine ⟨fun h => ⟨List.mem_of_find?_eq_some h, List.find?_some h⟩, fun ⟨hmem, hsel⟩ => ?_⟩
  obtain ⟨q, hq⟩ : ∃ q, findRow aliased w = some q :=
    Option.isSome_iff_exists.1 (List.find?_isSome.2 ⟨r, hmem, hsel⟩)
  rw [hq]
  by_contra hne
  have hsymm : Std.Symm fun r q : Row => ∀ w : Word, ¬ (r.selects aliased w = true ∧ q.selects aliased w = true) :=
    ⟨fun _ _ h w hw => h w hw.symm⟩
  exact (rows_pairwise_disjoint aliased).forall (List.mem_of_find?_eq_some hq) hmem
    (fun e => hne (congrArg some e)) w ⟨List.find?_some hq, hsel⟩

theorem findRow_eq_none_iff {aliased : Bool} {w : Word} :
    findRow aliased w = none ↔ ∀ r ∈ rows, ¬ r.selects aliased w = true := List.find?_eq_none

/-! ## The words of a format: blocks of the word space -/

/-- The words a list of rows selects are the first `2 ^ free` words of these blocks of `2 ^ size` words. -/
structure RowBlocks (aliased : Bool) (size free : Nat) (blocks : List Nat) (rs : List Row) : Prop where
  free_le : free ≤ size
  fits : ∀ b ∈ blocks, b * 2 ^ size < 65536
  rows_eq : rs.map (fun r => (r.pattern, r.maskUnder aliased)) =
    blocks.map fun b => (BitVec.ofNat 16 (b * 2 ^ size), BitVec.allOnes 16 <<< free)

theorem and_allOnes_shiftLeft_toNat (w : Word) (k : Nat) :
    (w &&& BitVec.allOnes 16 <<< k).toNat = w.toNat / 2 ^ k * 2 ^ k := by
  have hshift : w &&& BitVec.allOnes 16 <<< k = (w >>> k) <<< k := by
    ext i hi
    by_cases hk : i < k
    · simp [hk]
    · have : k + (i - k) = i := by omega
      simp [-BitVec.reduceAllOnes, hk, this, hi]
  have hle : w.toNat / 2 ^ k * 2 ^ k ≤ w.toNat := Nat.div_mul_le_self _ _
  rw [hshift, BitVec.toNat_shiftLeft, BitVec.toNat_ushiftRight, Nat.shiftRight_eq_div_pow, Nat.shiftLeft_eq,
    Nat.mod_eq_of_lt (hle.trans_lt w.isLt)]

/-- A number cut to a multiple of `m` is the start of a block of `m * d` when it lies in its first `m`. -/
theorem div_mul_eq_block_iff {m d n b : Nat} (hm : 0 < m) (hd : 0 < d) :
    n / m * m = b * (m * d) ↔ n / (m * d) = b ∧ n % (m * d) < m := by
  rw [Nat.mul_comm m d, ← Nat.mul_assoc, Nat.mul_left_inj hm.ne', Nat.mul_comm d m, ← Nat.div_div_eq_div_mul,
    Nat.mod_mul, Nat.add_comm]
  have hlt : n % m < m := Nat.mod_lt n hm
  constructor
  · intro h
    rw [h, Nat.mul_div_cancel _ hd, Nat.mul_mod_left]
    simpa using hlt
  · rintro ⟨rfl, h⟩
    have h0 : n / m % d = 0 := by
      by_contra hne
      have := Nat.le_mul_of_pos_right m (Nat.pos_of_ne_zero hne)
      omega
    exact (Nat.div_mul_cancel (Nat.dvd_of_mod_eq_zero h0)).symm

theorem RowBlocks.forall_not_selects_iff {aliased : Bool} {size free : Nat} {blocks : List Nat} {rs : List Row}
    (h : RowBlocks aliased size free blocks rs) (w : Word) :
    (∀ r ∈ rs, ¬ r.selects aliased w = true) ↔
      ¬ (w.toNat / 2 ^ size ∈ blocks ∧ w.toNat % 2 ^ size < 2 ^ free) := by
  obtain ⟨hle, hfits, hrows⟩ := h
  have hblock : ∀ b ∈ blocks, w &&& BitVec.allOnes 16 <<< free = BitVec.ofNat 16 (b * 2 ^ size) ↔
      w.toNat / 2 ^ size = b ∧ w.toNat % 2 ^ size < 2 ^ free := by
    intro b hb
    rw [← BitVec.toNat_inj, and_allOnes_shiftLeft_toNat, BitVec.toNat_ofNat, Nat.mod_eq_of_lt (hfits b hb),
      ← Nat.add_sub_cancel' hle, Nat.pow_add]
    exact div_mul_eq_block_iff (Nat.two_pow_pos _) (Nat.two_pow_pos _)
  calc (∀ r ∈ rs, ¬ r.selects aliased w = true)
      ↔ ∀ p ∈ rs.map (fun r => (r.pattern, r.maskUnder aliased)), ¬ w &&& p.2 = p.1 := by
        simp [Row.selects_iff]
    _ ↔ ∀ b ∈ blocks, ¬ (w.toNat / 2 ^ size = b ∧ w.toNat % 2 ^ size < 2 ^ free) := by
        rw [hrows, List.forall_mem_map]
        exact forall₂_congr fun b hb => not_congr (hblock b hb)
    _ ↔ ¬ (w.toNat / 2 ^ size ∈ blocks ∧ w.toNat % 2 ^ size < 2 ^ free) := by
        constructor
        · exact fun h hw => h _ hw.1 ⟨rfl, hw.2⟩
        · rintro h b hb ⟨rfl, hw⟩
          exact h ⟨hb, hw⟩

theorem rowsVIII_blocks (aliased : Bool) :
    RowBlocks aliased 5 (if aliased then 5 else 4) (List.range' 16 9) rowsVIII := by
  cases aliased <;> exact ⟨by decide, by decide, by decide⟩

theorem rowsVII_blocks (aliased : Bool) :
    RowBlocks aliased 5 (if aliased then 5 else 0) (List.range' 26 6) rowsVII := by
  cases aliased <;> exact ⟨by decide, by decide, by decide⟩

theorem rowsVI_blocks (aliased : Bool) : RowBlocks aliased 6 6 (List.range' 16 14) rowsVI := by
  cases aliased <;> exact ⟨by decide, by decide, by decide⟩

theorem rowsV_blocks (aliased : Bool) : RowBlocks aliased 8 8 (List.range' 8 4) rowsV := by
  cases aliased <;> exact ⟨by decide, by decide, by decide⟩

theorem rowsII_blocks (aliased : Bool) : RowBlocks aliased 8 8 (List.range' 16 16) rowsII := by
  cases aliased <;> exact ⟨by decide, by decide, by decide⟩

theorem rowsIII_blocks (aliased : Bool) : RowBlocks aliased 10 10 [8, 9, 10] rowsIII := by
  cases aliased <;> exact ⟨by decide, by decide, by decide⟩

theorem rowsIV_blocks (aliased : Bool) : RowBlocks aliased 10 10 [12, 13] rowsIV := by
  cases aliased <;> exact ⟨by decide, by decide, by decide⟩

theorem rowsIX_blocks (aliased : Bool) : RowBlocks aliased 10 10 [11, 14, 15] rowsIX := by
  cases aliased <;> exact ⟨by decide, by decide, by decide⟩

theorem rowsI_blocks (aliased : Bool) : RowBlocks aliased 12 12 (List.range' 4 12) rowsI := by
  cases aliased <;> exact ⟨by decide, by decide, by decide⟩

/-- The table, format by format. -/
theorem forall_mem_rows {p : Row → Prop} :
    (∀ r ∈ rows, p r) ↔ (∀ r ∈ rowsVIII, p r) ∧ (∀ r ∈ rowsVII, p r) ∧ (∀ r ∈ rowsVI, p r) ∧ (∀ r ∈ rowsV, p r) ∧
      (∀ r ∈ rowsII, p r) ∧ (∀ r ∈ rowsIII, p r) ∧ (∀ r ∈ rowsIV, p r) ∧ (∀ r ∈ rowsIX, p r) ∧
      ∀ r ∈ rowsI, p r := by
  simp only [rows, List.forall_mem_append, and_assoc]

/-- The illegal words: those outside every block, the fields ignored of formats VIII and VII apart (R96, R97). -/
theorem findRow_eq_none_iff_blocks (aliased : Bool) (w : Word) :
    findRow aliased w = none ↔
      (w.toNat < 0x0200 ∨ (0x0320 ≤ w.toNat ∧ w.toNat < 0x0340) ∨ (0x0780 ≤ w.toNat ∧ w.toNat < 0x0800) ∨
        (0x0C00 ≤ w.toNat ∧ w.toNat < 0x1000)) ∨
      aliased = false ∧ ((0x0340 ≤ w.toNat ∧ w.toNat < 0x0400 ∧ w.toNat % 32 ≠ 0) ∨
        (0x0200 ≤ w.toNat ∧ w.toNat < 0x0320 ∧ w.toNat % 32 ≥ 16)) := by
  have hw := w.isLt
  rw [findRow_eq_none_iff, forall_mem_rows, (rowsVIII_blocks aliased).forall_not_selects_iff,
    (rowsVII_blocks aliased).forall_not_selects_iff, (rowsVI_blocks aliased).forall_not_selects_iff,
    (rowsV_blocks aliased).forall_not_selects_iff, (rowsII_blocks aliased).forall_not_selects_iff,
    (rowsIII_blocks aliased).forall_not_selects_iff, (rowsIV_blocks aliased).forall_not_selects_iff,
    (rowsIX_blocks aliased).forall_not_selects_iff, (rowsI_blocks aliased).forall_not_selects_iff]
  cases aliased <;> simp [List.mem_range'_1] <;> omega

end Sys2Proof
end

section
/-! SUPPORT. The round trips of the encoder and the decoder (30_encoding.md R84 to R94). -/

namespace Sys2Proof.Laws.SelectsItsRow

/-- The first word of every instruction selects the row that builds it back. -/
theorem statement_all (i : Instr) : Statement i := by
  cases i
  exacts [li _ _, ai _ _, andi _ _, ori _ _, ci _ _, stwp _, stst _, lwpi _, limi _, idle, rset, rtwp, ckon,
    ckof, lrex, blwp _, b _, x _, clr _, neg _, inv _, inc _, inct _, dec _, dect _, bl _, swpb _, seto _,
    abs _, sra _ _, srl _ _, sla _ _, src _ _, jmp _, jlt _, jle _, jeq _, jhe _, jgt _, jne _, jnc _, joc _,
    jno _, jl _, jh _, jop _, sbo _, sbz _, tb _, coc _ _, czc _ _, xor _ _, xop _ _, ldcr _ _, stcr _ _,
    mpy _ _, div _ _, szc _ _, szcb _ _, s _ _, sb _ _, c _ _, cb _ _, a _ _, ab _ _, mov _ _, movb _ _,
    soc _ _, socb _ _]

end Sys2Proof.Laws.SelectsItsRow

namespace Sys2Proof

/-! ## Decoding what was encoded -/

/-- The first word of a well-formed instruction finds that row, no other row being selected by it (R82). -/
theorem findRow_firstWord {i : Instr} (h : i.wellFormed = true) (aliased : Bool) :
    ∃ r, findRow aliased (firstWord i) = some r ∧ r.hasImm = (immediateWord i).isSome ∧
      r.build (firstWord i) ((immediateWord i).getD 0#16) = i := by
  obtain ⟨r, hmem, hsel, himm, hbuild⟩ := Laws.SelectsItsRow.statement_all i h
  exact ⟨r, findRow_eq_some_iff.2 ⟨hmem, hsel aliased⟩, himm, hbuild⟩

open Machine in
/-- The two bytes of a word, high byte first (20_memory.md R56). -/
theorem bytesOfWord_eq (w : Word) : bytesOfWord w = [highByte w, lowByte w] := rfl

theorem decode_immediate {aliased : Bool} {w : Word} {r : Row} (hr : findRow aliased w = some r)
    (himm : r.hasImm = true) (imm : Word) (rest : List Byte) :
    decode aliased (bytesOfWord w ++ (bytesOfWord imm ++ rest)) = .ok (r.build w imm, rest) := by
  simp [bytesOfWord_eq, decode, hr, himm]

theorem decode_noImmediate {aliased : Bool} {w : Word} {r : Row} (hr : findRow aliased w = some r)
    (himm : r.hasImm = false) (rest : List Byte) :
    decode aliased (bytesOfWord w ++ rest) = .ok (r.build w 0#16, rest) := by
  simp [bytesOfWord_eq, decode, hr, himm]

theorem decode_encodeBytes {i : Instr} (h : i.wellFormed = true) (aliased : Bool) (rest : List Byte) :
    decode aliased (encodeBytes i ++ rest) = .ok (i, rest) := by
  obtain ⟨r, hr, himm, hbuild⟩ := findRow_firstWord h aliased
  cases hi : immediateWord i with
  | none =>
    have hbytes : encodeBytes i = bytesOfWord (firstWord i) := by simp [encodeBytes, encode, hi]
    rw [hi] at himm hbuild
    rw [hbytes, decode_noImmediate hr himm]
    exact congrArg (fun j => Except.ok (j, rest)) hbuild
  | some imm =>
    have hbytes : encodeBytes i = bytesOfWord (firstWord i) ++ bytesOfWord imm := by simp [encodeBytes, encode, hi]
    rw [hi] at himm hbuild
    rw [hbytes, List.append_assoc, decode_immediate hr himm]
    exact congrArg (fun j => Except.ok (j, rest)) hbuild

/-! ## The fields of a word, put back in their places -/

theorem extract_inPlace (w : Word) (k n : Nat) :
    (w.extractLsb' k n).setWidth 16 <<< k = w &&& (BitVec.allOnes n).setWidth 16 <<< k := by
  ext i hi
  by_cases hk : i < k
  · simp [hk]
  · have : k + (i - k) = i := by omega
    simp [hk, this, hi, Bool.and_comm]

theorem fieldS_inPlace (w : Word) : (fieldS w).setWidth 16 = w &&& 0x000F#16 := by
  simpa [fieldS] using extract_inPlace w 0 4
theorem fieldTs_inPlace (w : Word) : (fieldTs w).setWidth 16 <<< 4 = w &&& 0x0030#16 := extract_inPlace w 4 2
theorem fieldD_inPlace (w : Word) : (fieldD w).setWidth 16 <<< 6 = w &&& 0x03C0#16 := extract_inPlace w 6 4
theorem fieldTd_inPlace (w : Word) : (fieldTd w).setWidth 16 <<< 10 = w &&& 0x0C00#16 := extract_inPlace w 10 2
theorem fieldC_inPlace (w : Word) : (fieldC w).setWidth 16 <<< 4 = w &&& 0x00F0#16 := extract_inPlace w 4 4
theorem fieldDisp_inPlace (w : Word) : (fieldDisp w).setWidth 16 = w &&& 0x00FF#16 := by
  simpa [fieldDisp] using extract_inPlace w 0 8

theorem operandOf_mode (t : BitVec 2) (r : Reg) : (operandOf t r).mode = t := by revert t r; decide
theorem operandOf_field (t : BitVec 2) (r : Reg) : (operandOf t r).field = r := by revert t r; decide
theorem operandOf_wellFormed (t : BitVec 2) (r : Reg) : (operandOf t r).wellFormed = true := by revert t r; decide

variable {w imm op : Word}

theorem wordW_fieldS (h : w &&& 0xFFF0#16 = op) : wordW op (fieldS w) = w := by
  rw [wordW, fieldS_inPlace, ← h, ← BitVec.and_or_distrib_left]
  exact BitVec.and_allOnes

theorem wordShift_fields (h : w &&& 0xFF00#16 = op) : wordShift op (fieldC w) (fieldS w) = w := by
  rw [wordShift, fieldC_inPlace, fieldS_inPlace, ← h, ← BitVec.and_or_distrib_left, ← BitVec.and_or_distrib_left]
  exact BitVec.and_allOnes

theorem wordDisp_fieldDisp (h : w &&& 0xFF00#16 = op) : wordDisp op (fieldDisp w) = w := by
  rw [wordDisp, fieldDisp_inPlace, ← h, ← BitVec.and_or_distrib_left]
  exact BitVec.and_allOnes

/-- The source operand of a word, put back beside the bits of a mask. -/
theorem wordSrc_fieldSrc_mask (w m : Word) : wordSrc (w &&& m) (fieldSrc w) = w &&& (m ||| 0x003F#16) := by
  rw [wordSrc, fieldSrc, operandOf_mode, operandOf_field, fieldTs_inPlace, fieldS_inPlace, BitVec.or_assoc,
    ← BitVec.and_or_distrib_left, ← BitVec.and_or_distrib_left]
  rfl

theorem wordSrc_fieldSrc (h : w &&& 0xFFC0#16 = op) : wordSrc op (fieldSrc w) = w := by
  rw [← h, wordSrc_fieldSrc_mask]
  exact BitVec.and_allOnes

theorem wordSrcD_fields (h : w &&& 0xFC00#16 = op) : wordSrcD op (fieldSrc w) (fieldD w) = w := by
  rw [wordSrcD, ← h, wordSrc_fieldSrc_mask, fieldD_inPlace, ← BitVec.and_or_distrib_left]
  exact BitVec.and_allOnes

theorem wordSrcDst_fields (h : w &&& 0xF000#16 = op) : wordSrcDst op (fieldSrc w) (fieldDst w) = w := by
  rw [wordSrcDst, wordSrcD, ← h, wordSrc_fieldSrc_mask, fieldDst, operandOf_mode, operandOf_field, fieldD_inPlace,
    fieldTd_inPlace, ← BitVec.and_or_distrib_left, ← BitVec.and_or_distrib_left]
  exact BitVec.and_allOnes

/-! ## Encoding what was decoded -/

/-- LWPI and LIMI ignore the register field of their word (R91). -/
def Instr.ignoresRegister : Instr → Bool
  | .lwpi _ | .limi _ => true
  | _ => false

theorem ignoresRegister_iff (i : Instr) : i.ignoresRegister = true ↔ (∃ v, i = .lwpi v) ∨ ∃ v, i = .limi v := by
  cases i <;> simp [Instr.ignoresRegister]

/-- An instruction encodes to a word and an immediate, an ignored register field apart. -/
structure EncodesTo (w imm : Word) (i : Instr) : Prop where
  wellFormed : i.wellFormed = true
  immediate : ∀ v ∈ immediateWord i, v = imm
  word : firstWord i = if i.ignoresRegister then w &&& 0xFFF0#16 else w

/-- Every word that selects the row is built to an instruction that encodes to it. -/
def Row.Reencodes (r : Row) : Prop := ∀ w imm : Word, w &&& r.mask = r.pattern → EncodesTo w imm (r.build w imm)

variable {i : Instr}

/-- The formats with no register to ignore and no immediate. -/
theorem EncodesTo.of_operands (hops : ∀ o ∈ i.operands, o.wellFormed = true) (himm : immediateWord i = none)
    (hreg : i.ignoresRegister = false) (hword : firstWord i = w) : EncodesTo w imm i where
  wellFormed := List.all_eq_true.2 hops
  immediate := by simp [himm]
  word := by simp [hreg, hword]

theorem EncodesTo.of_noOperand (hops : i.operands = []) (himm : immediateWord i = none)
    (hreg : i.ignoresRegister = false) (hword : firstWord i = w) : EncodesTo w imm i :=
  .of_operands (by simp [hops]) himm hreg hword

theorem EncodesTo.of_source (hops : i.operands = [fieldSrc w]) (himm : immediateWord i = none)
    (hreg : i.ignoresRegister = false) (hword : firstWord i = w) : EncodesTo w imm i :=
  .of_operands (by simp [hops, fieldSrc, operandOf_wellFormed]) himm hreg hword

theorem EncodesTo.of_sourceAndDestination (hops : i.operands = [fieldSrc w, fieldDst w])
    (himm : immediateWord i = none) (hreg : i.ignoresRegister = false) (hword : firstWord i = w) :
    EncodesTo w imm i :=
  .of_operands (by simp [hops, fieldSrc, fieldDst, operandOf_wellFormed]) himm hreg hword

theorem rowsVIII_reencode : ∀ r ∈ rowsVIII, r.Reencodes := by
  intro r hr w imm h
  fin_cases hr
  -- LI to CI, then STWP and STST, then LWPI and LIMI, as the rows stand
  iterate 5 exact ⟨rfl, by simp [immediateWord], wordW_fieldS h⟩
  iterate 2 exact .of_noOperand rfl rfl rfl (wordW_fieldS h)
  iterate 2 exact ⟨rfl, by simp [immediateWord], h.symm⟩

theorem rowsVII_reencode : ∀ r ∈ rowsVII, r.Reencodes := by
  intro r hr w imm h
  fin_cases hr <;> exact .of_noOperand rfl rfl rfl (h.symm.trans BitVec.and_allOnes)

theorem rowsVI_reencode : ∀ r ∈ rowsVI, r.Reencodes := by
  intro r hr w imm h
  fin_cases hr <;> exact .of_source rfl rfl rfl (wordSrc_fieldSrc h)

theorem rowsV_reencode : ∀ r ∈ rowsV, r.Reencodes := by
  intro r hr w imm h
  fin_cases hr <;> exact .of_noOperand rfl rfl rfl (wordShift_fields h)

theorem rowsII_reencode : ∀ r ∈ rowsII, r.Reencodes := by
  intro r hr w imm h
  fin_cases hr <;> exact .of_noOperand rfl rfl rfl (wordDisp_fieldDisp h)

theorem rowsIII_reencode : ∀ r ∈ rowsIII, r.Reencodes := by
  intro r hr w imm h
  fin_cases hr <;> exact .of_source rfl rfl rfl (wordSrcD_fields h)

theorem rowsIV_reencode : ∀ r ∈ rowsIV, r.Reencodes := by
  intro r hr w imm h
  fin_cases hr <;> exact .of_source rfl rfl rfl (wordSrcD_fields h)

theorem rowsIX_reencode : ∀ r ∈ rowsIX, r.Reencodes := by
  intro r hr w imm h
  fin_cases hr <;> exact .of_source rfl rfl rfl (wordSrcD_fields h)

theorem rowsI_reencode : ∀ r ∈ rowsI, r.Reencodes := by
  intro r hr w imm h
  fin_cases hr <;> exact .of_sourceAndDestination rfl rfl rfl (wordSrcDst_fields h)

theorem rows_reencode : ∀ r ∈ rows, r.Reencodes :=
  forall_mem_rows.2 ⟨rowsVIII_reencode, rowsVII_reencode, rowsVI_reencode, rowsV_reencode, rowsII_reencode,
    rowsIII_reencode, rowsIV_reencode, rowsIX_reencode, rowsI_reencode⟩

theorem decodeWords_encodesTo (h : decodeWords false w imm = some i) : EncodesTo w imm i := by
  obtain ⟨r, hr, rfl⟩ := Option.map_eq_some_iff.1 h
  obtain ⟨hmem, hsel⟩ := findRow_eq_some_iff.1 hr
  exact rows_reencode r hmem w imm (Row.selects_iff.1 hsel)

end Sys2Proof
end

section
/-! SUPPORT. Where an instruction that transfers no control leaves PC (30_encoding.md R81). -/

namespace Sys2Proof.Machine

/-! ## PC past the address words (30_encoding.md R81, 40_flags_addressing_step.md R118) -/

/-- PC once operands have been resolved one after the other, whatever PcRemap does to it. -/
def State.pcPast (s : State) : List Operand → Word
  | [] => s.pc
  | o :: os => State.pcPast { s with pc := pcAfterOperand s o } os

/-- PC past an operand depends on PC and the parameters only. -/
theorem pcAfterOperand_congr {s t : State} (hparams : t.params = s.params) (hpc : t.pc = s.pc) (o : Operand) :
    pcAfterOperand t o = pcAfterOperand s o := by
  cases o <;> simp [pcAfterOperand, hparams, hpc]

/-- Under the identity PcRemap an even PC moves on by two bytes for each address word (10_state.md R25, R26). -/
theorem pcAfterOperand_identity {s : State} (hremap : s.params.pcRemap = []) (heven : s.pc &&& 1#16 = 0#16)
    (o : Operand) : pcAfterOperand s o = s.pc + BitVec.ofNat 16 (2 * o.extWords) := by
  have hnext : (s.pc + 2#16) &&& 1#16 = 0#16 := by
    rw [and_one_eq_zero_iff] at heven ⊢
    rw [BitVec.toNat_add, BitVec.toNat_ofNat]
    omega
  cases o <;> simp [pcAfterOperand, Operand.extWords, remapPc, hremap, evenAddr_of_even hnext]

theorem State.pcPast_identity {s : State} (hremap : s.params.pcRemap = []) (heven : s.pc &&& 1#16 = 0#16)
    (os : List Operand) : s.pcPast os = s.pc + BitVec.ofNat 16 (2 * (os.map Operand.extWords).sum) := by
  induction os generalizing s with
  | nil => simp [State.pcPast]
  | cons o os ih =>
    have hpc := pcAfterOperand_identity hremap heven o
    have hnext : pcAfterOperand s o &&& 1#16 = 0#16 := by
      rw [and_one_eq_zero_iff] at heven ⊢
      rw [hpc, BitVec.toNat_add, BitVec.toNat_ofNat]
      omega
    rw [State.pcPast, ih (s := { s with pc := pcAfterOperand s o }) hremap hnext]
    simp [hpc, Nat.mul_add, BitVec.ofNat_add, BitVec.add_assoc]

variable (s : State) (gs gd : Operand)

theorem pcAfterOperand_readSource : pcAfterOperand (readSource gs s).2 gd = s.pcPast [gs, gd] :=
  pcAfterOperand_congr (s := { s with pc := pcAfterOperand s gs }) (readSource_params s gs) (readSource_pc s gs) gd

theorem pcAfterOperand_readSourceByte : pcAfterOperand (readSourceByte gs s).2 gd = s.pcPast [gs, gd] :=
  pcAfterOperand_congr (s := { s with pc := pcAfterOperand s gs }) (readSourceByte_params s gs)
    (readSourceByte_pc s gs) gd

variable {s gs gd} {t : State}

theorem execTb_pc {disp : BitVec 8} (h : execTb disp s = .next t) : t.pc = s.pc := by
  cases h
  obtain ⟨-, hpc, -⟩ := (cruBase s).2.readBit_frame (cruBitAddr (cruBase s).1 disp)
  exact hpc

theorem execRset_pc (h : execRset s = .next t) : t.pc = s.pc := by
  cases h
  cases s.params.rsetClearsMask <;> rfl

theorem execLdcr_pc {count : BitVec 4} (h : execLdcr gs count s = .next t) : t.pc = pcAfterOperand s gs := by
  by_cases hc : cruCount count ≤ 8
  · rw [execLdcr_byte hc] at h
    cases h
    simp [State.cruByteFlags, (writeBits_fields _ _ _ _).1, cruBase, readSourceByte_pc]
  · rw [execLdcr_word hc] at h
    cases h
    simp [State.cruWordFlags, (writeBits_fields _ _ _ _).1, cruBase, readSource_pc]

theorem execStcr_pc {count : BitVec 4} (h : execStcr gs count s = .next t) : t.pc = pcAfterOperand s gs := by
  by_cases hc : cruCount count ≤ 8
  · rw [execStcr_byte hc] at h
    cases h
    simp [State.cruByteFlags, (receiveBits_fields gs .byte _ s).1]
  · rw [execStcr_word hc] at h
    cases h
    simp [State.cruWordFlags, (receiveBits_fields gs .word _ s).1]

theorem execMpy_pc {d : Reg} (h : execMpy gs d s = .next t) : t.pc = pcAfterOperand s gs := by
  cases h
  simp [readSource_pc]

theorem execDiv_pc {d : Reg} (h : execDiv gs d s = .next t) : t.pc = pcAfterOperand s gs := by
  cases h
  split <;> simp [readSource_pc]

theorem shiftRegister_pc (op : Nat → Word → Effect 16) (count : BitVec 4) (w : Reg) (s : State) :
    (shiftRegister op count w s).pc = s.pc :=
  (regUnary_pc _ _ _).trans (shiftCount_fields count s).1

/-- An instruction that transfers no control leaves PC past the address words of its operands. -/
theorem exec_pc {i : Instr} (hi : transfersControl i = false) (h : exec i s = .next t) :
    t.pc = s.pcPast i.operands := by
  cases i
  case jmp | jlt | jle | jeq | jhe | jgt | jne | jnc | joc | jno | jl | jh | jop | b | bl | blwp | x | rtwp | xop =>
    cases hi
  case tb disp => exact execTb_pc h
  case rset => exact execRset_pc h
  case ldcr gs count => exact execLdcr_pc h
  case stcr gs count => exact execStcr_pc h
  case mpy gs d => exact execMpy_pc h
  case div gs d => exact execDiv_pc h
  all_goals cases h
  case li | stwp | stst | lwpi | limi | idle | ckon | ckof | lrex | sbo | sbz => rfl
  case ai | andi | ori | ci => exact regUnary_pc s _ _
  case sra | srl | sla | src => exact shiftRegister_pc _ _ _ s
  case clr gs | seto gs => exact wordFill_pc s _ gs
  case neg gs | inv gs | inc gs | inct gs | dec gs | dect gs | swpb gs | abs gs => exact wordUnary_pc s _ gs
  case coc gs d | czc gs d | xor gs d => exact regDual_pc s _ gs d
  case a gs gd | s gs gd | c gs gd | soc gs gd | szc gs gd =>
    exact (wordDual_pc s _ gs gd).trans (pcAfterOperand_readSource s gs gd)
  case ab gs gd | sb gs gd | cb gs gd | socb gs gd | szcb gs gd =>
    exact (byteDual_pc s _ gs gd).trans (pcAfterOperand_readSourceByte s gs gd)
  case mov gs gd => exact (wordMove_pc s _ gs gd).trans (pcAfterOperand_readSource s gs gd)
  case movb gs gd => exact (byteMove_pc s _ gs gd).trans (pcAfterOperand_readSourceByte s gs gd)

end Sys2Proof.Machine
end

section
/-! SUPPORT. The obligations of the encoding family (30_encoding.md). -/

namespace Sys2Proof.Proofs.EncodingFamily

open Sys2Proof Sys2Proof.Machine

/-- Settles O9: the first word finds the row that builds the instruction, and the bytes join to the words. -/
theorem decodeOfEncode : Obligations.DecodeOfEncode := by
  unfold Obligations.DecodeOfEncode
  exact fun _ aliased rest h => decode_encodeBytes h aliased rest

/-- Settles O10: in every row the fields a word is taken apart into, put back beside its opcode, are the word. -/
theorem encodeOfDecode : Obligations.EncodeOfDecode := by
  unfold Obligations.EncodeOfDecode
  intro w imm i h
  obtain ⟨hwf, himm, hword⟩ := decodeWords_encodesTo h
  refine ⟨hwf, himm, fun hlwpi hlimi => ?_, fun hignored => ?_⟩
  · have hreg : ¬ i.ignoresRegister = true := by simp [ignoresRegister_iff, hlwpi, hlimi]
    rw [hword, if_neg hreg]
  · rw [hword, if_pos ((ignoresRegister_iff i).2 hignored)]

/-- Settles O11: two rows always differ in a bit both masks look at. -/
theorem tableRowsDisjoint : Obligations.TableRowsDisjoint := by
  unfold Obligations.TableRowsDisjoint
  exact ⟨rfl, rows_pairwise_disjoint⟩

/-- Settles O12, from the blocks of words each format selects. -/
theorem illegalWords : Obligations.IllegalWords := by
  unfold Obligations.IllegalWords
  refine ⟨fun w => ?_, fun w => ?_⟩
  · simp [findRow_eq_none_iff_blocks]
  · simp [findRow_eq_none_iff_blocks]

/-- Settles O14: the operands move PC one after the other, and PcRemap, the identity, changes no even value. -/
theorem pcAdvancesPastAddressWords : Obligations.PcAdvancesPastAddressWords := by
  unfold Obligations.PcAdvancesPastAddressWords
  intro i s t hi hremap heven h
  rw [exec_pc hi h, State.pcPast_identity hremap heven]

/-- Settles O13: twelve closed words, decoded by the model. -/
theorem sampleWordsDecode : Obligations.SampleWordsDecode := by
  unfold Obligations.SampleWordsDecode
  decide

end Sys2Proof.Proofs.EncodingFamily
end

section
/-! SUPPORT. The status tables, the compares and the adder (40_flags_addressing_step.md R110 to R114). -/

namespace Sys2Proof.Machine

/-! ## Six flags, each under its condition -/

/-- The OR of the six flags a computation can set, each when its condition holds. -/
def statusWord (lgt agt eq c ov op : Bool) : Word :=
  flagIf flagLGT lgt ||| flagIf flagAGT agt ||| flagIf flagEQ eq ||| flagIf flagC c ||| flagIf flagOV ov |||
    flagIf flagOP op

/-- Each flag is read back as its condition: the six masks are six different bits (00_scope.md R13). -/
theorem statusWord_flags (lgt agt eq c ov op : Bool) :
    (statusWord lgt agt eq c ov op &&& flagLGT ≠ 0#16 ↔ lgt = true) ∧
    (statusWord lgt agt eq c ov op &&& flagAGT ≠ 0#16 ↔ agt = true) ∧
    (statusWord lgt agt eq c ov op &&& flagEQ ≠ 0#16 ↔ eq = true) ∧
    (statusWord lgt agt eq c ov op &&& flagC ≠ 0#16 ↔ c = true) ∧
    (statusWord lgt agt eq c ov op &&& flagOV ≠ 0#16 ↔ ov = true) ∧
    (statusWord lgt agt eq c ov op &&& flagOP ≠ 0#16 ↔ op = true) := by
  revert lgt agt eq c ov op; decide

theorem statusWord_in_maskArithOP (lgt agt eq c ov op : Bool) :
    StatusIn maskArithOP (statusWord lgt agt eq c ov op) := by
  revert lgt agt eq c ov op; decide

theorem statusWord_in_maskArith (lgt agt eq c ov : Bool) :
    StatusIn maskArith (statusWord lgt agt eq c ov false) := by
  revert lgt agt eq c ov; decide

/-! ## The tables and the compares as six flags -/

theorem wStatus_eq_statusWord (v : Word) :
    wStatus v = statusWord (v != 0#16) (decide (0 < v.toNat) && decide (v.toNat < 0x8000)) (v == 0#16) (v == 0#16)
      (v == 0x8000#16) false := BitVec.or_zero.symm

theorem bStatus_eq_statusWord (v : Byte) :
    bStatus v = statusWord (v != 0#8) (decide (0 < v.toNat) && decide (v.toNat < 0x80)) (v == 0#8) (v == 0#8)
      (v == 0x80#8) (oddParity v) := rfl

theorem compareStatus_eq_statusWord {n : Nat} (a b : BitVec n) :
    compareStatus a b = statusWord (decide (b.toNat < a.toNat)) (decide (b.toInt < a.toInt)) (a == b) false false
      false := by
  simp [statusWord, compareStatus, flagIf]

/-- The parity's count of 1 bits, as the length of a list of bit numbers (R111). -/
theorem popCount_eq_length (v : Byte) : popCount v = ((List.range 8).filter fun k => v.getLsbD k).length := by
  have hrange : List.range 8 = [0, 1, 2, 3, 4, 5, 6, 7] := rfl
  rw [← List.countP_eq_length_filter, hrange]
  simp only [List.countP_cons, List.countP_nil, popCount, Bool.toNat, Bool.cond_eq_ite]
  omega

theorem oddParity_iff (v : Byte) :
    oddParity v = true ↔ ((List.range 8).filter fun k => v.getLsbD k).length % 2 = 1 := by
  rw [oddParity, beq_iff_eq, popCount_eq_length]

/-- A compare, for operands of any width (R113). -/
theorem compareStatus_flags {n : Nat} (a b : BitVec n) :
    (compareStatus a b &&& flagLGT ≠ 0#16 ↔ b.toNat < a.toNat) ∧
    (compareStatus a b &&& flagAGT ≠ 0#16 ↔ b.toInt < a.toInt) ∧
    (compareStatus a b &&& flagEQ ≠ 0#16 ↔ a = b) ∧ compareStatus a b &&& ~~~maskCompare = 0#16 := by
  obtain ⟨hlgt, hagt, heq, -⟩ :=
    statusWord_flags (decide (b.toNat < a.toNat)) (decide (b.toInt < a.toInt)) (a == b) false false false
  rw [← compareStatus_eq_statusWord] at hlgt hagt heq
  exact ⟨hlgt.trans decide_eq_true_iff, hagt.trans decide_eq_true_iff, heq.trans beq_iff_eq,
    compareStatus_in (by decide) (by decide) (by decide) a b⟩

/-! ## The adder against exact arithmetic (R114; 10_state.md R32, R33), for every width -/

variable {n : Nat} (a b : BitVec n)

/-- Like signs that give the other sign: the exact signed sum is out of range. -/
theorem addSum_overflow_iff :
    (addSum a b).overflow = true ↔ a.toInt + b.toInt < -2 ^ (n - 1) ∨ 2 ^ (n - 1) ≤ a.toInt + b.toInt := by
  have h : (addSum a b).overflow = a.saddOverflow b := by rw [BitVec.saddOverflow_eq]; rfl
  rw [h, BitVec.saddOverflow, Bool.or_eq_true, decide_eq_true_iff, decide_eq_true_iff]
  exact or_comm

/-- Unlike signs, and the result without the destination's sign: the exact signed difference is out of range. -/
theorem subSum_overflow_iff :
    (subSum a b).overflow = true ↔ a.toInt - b.toInt < -2 ^ (n - 1) ∨ 2 ^ (n - 1) ≤ a.toInt - b.toInt := by
  have h : (subSum a b).overflow = a.ssubOverflow b := by
    rw [BitVec.ssubOverflow_eq, subSum]
    cases a.msb <;> cases b.msb <;> cases (a - b).msb <;> rfl
  rw [h, BitVec.ssubOverflow, Bool.or_eq_true, decide_eq_true_iff, decide_eq_true_iff]
  exact or_comm

theorem subSum_value_toNat : (subSum a b).value.toNat = (a.toNat + 2 ^ n - b.toNat) % 2 ^ n := by
  have hb := b.isLt
  rw [subSum, BitVec.toNat_sub]
  congr 1
  omega

end Sys2Proof.Machine

namespace Sys2Proof.Proofs.FlagsFamily

open Sys2Proof Sys2Proof.Machine

/-- Settles O18: both tables are six flags under their conditions, the word table with no parity. -/
theorem statusTables : Obligations.StatusTables := by
  unfold Obligations.StatusTables
  refine ⟨fun v => ?_, fun v => ?_⟩
  · simp only [wStatus_eq_statusWord, statusWord_flags, bne_iff_ne, beq_iff_eq, Bool.and_eq_true, decide_eq_true_eq,
      true_and]
    exact statusWord_in_maskArith _ _ _ _ _
  · simp only [bStatus_eq_statusWord, statusWord_flags, bne_iff_ne, beq_iff_eq, Bool.and_eq_true, decide_eq_true_eq,
      oddParity_iff, true_and]
    exact statusWord_in_maskArithOP _ _ _ _ _ _

/-- Settles O19: the two sizes are one compare of any width. -/
theorem compareFlags : Obligations.CompareFlags := by
  unfold Obligations.CompareFlags
  exact ⟨compareStatus_flags, compareStatus_flags⟩

/-- Settles O20: the two sizes are one adder of any width, its overflow that of the exact signed result. -/
theorem adderCarryAndOverflow : Obligations.AdderCarryAndOverflow := by
  unfold Obligations.AdderCarryAndOverflow
  intro n _ a b
  exact ⟨BitVec.toNat_add a b, decide_eq_true_iff, addSum_overflow_iff a b, subSum_value_toNat a b,
    decide_eq_true_iff, subSum_overflow_iff a b⟩

end Sys2Proof.Proofs.FlagsFamily
end

section
/-! SUPPORT. Operands and their increments (40_flags_addressing_step.md R115 to R124). -/

namespace Sys2Proof.Machine

/-! ## The pending slots -/

/-- The resolver leaves its slot what the operand's mode says, and the other slot alone (R119). -/
theorem resolve_pending (slot : Slot) (o : Operand) (size : Size) (s : State) :
    (resolve slot o size s).2.pending slot = pendingOf s o size (s.pending slot) := by
  cases slot
  case src => exact resolve_src_pendingSrc s o size
  case dst => exact resolve_dst_pendingDst s o size

theorem resolve_pending_other {slot other : Slot} (h : other ≠ slot) (o : Operand) (size : Size) (s : State) :
    (resolve slot o size s).2.pending other = s.pending other := by
  cases slot <;> cases other
  case src.src | dst.dst => exact absurd rfl h
  case src.dst => exact resolve_src_pendingDst s o size
  case dst.src => exact resolve_dst_pendingSrc s o size

theorem State.postInc_pending (s : State) (slot : Slot) : (s.postInc slot).pending slot = none := by
  cases slot
  case src => exact s.postInc_src_pendingSrc
  case dst => exact s.postInc_dst_pendingDst

theorem State.postInc_pending_other {slot other : Slot} (h : other ≠ slot) (s : State) :
    (s.postInc slot).pending other = s.pending other := by
  cases slot <;> cases other
  case src.src | dst.dst => exact absurd rfl h
  case src.dst => exact s.postInc_src_pendingDst
  case dst.src => exact s.postInc_dst_pendingSrc

/-! ## One post-increment, whatever the port answers (R121) -/

theorem State.postInc_of_empty {s : State} {slot : Slot} (h : s.pending slot = none) : s.postInc slot = s := by
  rw [State.postInc, h]

theorem State.postInc_of_pending {s : State} {slot : Slot} {p : Pending} (h : s.pending slot = some p) :
    s.postInc slot =
      ((s.readWord p.addr).2.writeWord p.addr (s.answerAt p.addr + p.size.step)).setPending slot none := by
  simp only [State.postInc, h, State.readWord_value]

/-- A pending slot is no part of memory, of the record of calls or of the waiting answers. -/
theorem State.setPending_fields (s : State) (slot : Slot) (p : Option Pending) :
    (s.setPending slot p).mem = s.mem ∧ (s.setPending slot p).calls = s.calls ∧
    (s.setPending slot p).readAnswers = s.readAnswers := by
  cases slot <;> exact ⟨rfl, rfl, rfl⟩

/-! ## The source operand -/

theorem keepsRest_readSource {s : State} (h : s.Ready) (o : Operand) : KeepsRest s (readSource o s).2 :=
  ⟨readSource_rest s o, ⟨readSource_pendingSrc s o, (readSource_pendingDst s o).trans h.1.2⟩,
    readSource_readAnswers s h.2 o⟩

theorem keepsRest_readSourceByte {s : State} (h : s.Ready) (o : Operand) : KeepsRest s (readSourceByte o s).2 :=
  ⟨readSourceByte_rest s o, ⟨readSourceByte_pendingSrc s o, (readSourceByte_pendingDst s o).trans h.1.2⟩,
    readSourceByte_readAnswers s h.2 o⟩

/-- After `*R+` the register holds its value plus 2 (R119, R121). -/
theorem readSource_inc_regAt {s : State} (h : s.Ready) (r : Reg) :
    (readSource (.inc r) s).2.regAt r = s.regAt r + 2#16 := by
  have hinc : OnlyIncremented s (readSource (.inc r) s).2 (.inc r) .word :=
    onlyIncremented_of_mem (readSource_mem s h.2 _ h.1.1)
  rw [State.regAt, readSource_regAddr]
  exact hinc.2 _ (List.mem_singleton_self _)

theorem readSourceByte_inc_regAt {s : State} (h : s.Ready) (r : Reg) :
    (readSourceByte (.inc r) s).2.regAt r = s.regAt r + 1#16 := by
  have hinc : OnlyIncremented s (readSourceByte (.inc r) s).2 (.inc r) .byte :=
    onlyIncremented_of_mem (readSourceByte_mem s h.2 _ h.1.1)
  rw [State.regAt, readSourceByte_regAddr]
  exact hinc.2 _ (List.mem_singleton_self _)

/-- And the other words are as before. -/
theorem readSource_inc_wordAt_other {s : State} (h : s.Ready) {r : Reg} {a : Word}
    (ha : evenAddr (s.regAddr r) ≠ evenAddr a) : (readSource (.inc r) s).2.wordAt a = s.wordAt a := by
  rw [State.wordAt, readSource_mem s h.2 _ h.1.1]
  exact wordAt_incremented_other _ _ _ fun p hp => List.mem_singleton.1 hp ▸ ha

/-! ## What a sequence stores, and the increment after it (R123) -/

section Stored

variable {s : State} {v : Word} {b : Byte}

theorem wordMove_stored (h : s.Ready) (op : Word → Effect 16) (gs gd : Operand)
    (hv : (op (readSource gs s).1).write = some v) :
    StoredThenIncremented (readSource gs s).2 (wordMove op gs gd s) gd .word
      (effectiveAddr (readSource gs s).2 gd) v := by
  refine storedThenIncremented_of_mem ((wordMove_answer h op gs gd).mem.trans ?_)
  simp only [hv, resolve_addr _ (readSource_readAnswers s h.2 gs), incremented_congr (readSource_wp s gs)]
  rfl

theorem wordDual_stored (h : s.Ready) (op : Word → Word → Effect 16) (gs gd : Operand)
    (hv : (op (readSource gs s).1
      ((readSource gs s).2.wordAt (effectiveAddr (readSource gs s).2 gd))).write = some v) :
    StoredThenIncremented (readSource gs s).2 (wordDual op gs gd s) gd .word
      (effectiveAddr (readSource gs s).2 gd) v := by
  refine storedThenIncremented_of_mem ((wordDual_answer h op gs gd).mem.trans ?_)
  simp only [resolve_addr _ (readSource_readAnswers s h.2 gs), hv, incremented_congr (readSource_wp s gs)]
  rfl

theorem byteMove_stored (h : s.Ready) (op : Byte → Effect 8) (gs gd : Operand)
    (hb : (op (readSourceByte gs s).1).write = some b) :
    ByteStoredThenIncremented (readSourceByte gs s).2 (byteMove op gs gd s) gd
      (effectiveAddr (readSourceByte gs s).2 gd) b := by
  refine byteStoredThenIncremented_of_mem ((byteMove_answer h op gs gd).mem.trans ?_)
  simp only [hb, resolve_addr _ (readSourceByte_readAnswers s h.2 gs), incremented_congr (readSourceByte_wp s gs)]
  rfl

theorem wordUnary_stored (h : s.Ready) (op : Word → Effect 16) (gs : Operand)
    (hv : (op (s.wordAt (effectiveAddr s gs))).write = some v) :
    StoredThenIncremented s (wordUnary op gs s) gs .word (effectiveAddr s gs) v := by
  refine storedThenIncremented_of_mem ((wordUnary_answer h op gs).mem.trans ?_)
  simp only [resolve_addr _ h.2, hv]
  rfl

theorem KeepsRest.regAddr_eq {t : State} (h : KeepsRest s t) (n : Reg) : t.regAddr n = s.regAddr n := by
  rw [State.regAddr, show t.wp = s.wp from congrArg Rest.wp h.1, State.regAddr]

/-- No increment: the word is what was stored. -/
theorem StoredThenIncremented.wordAt_eq {t : State} {o : Operand} {size : Size} {ea : Word}
    (h : StoredThenIncremented s t o size ea v) (ho : incWords s o = []) : t.wordAt ea = v :=
  h.1 (by simp [ho])

/-- A store apart from the register that is incremented after it. -/
theorem StoredThenIncremented.inc_apart {t : State} {r : Reg} {size : Size} {ea : Word}
    (h : StoredThenIncremented s t (.inc r) size ea v) (hea : evenAddr (s.regAddr r) ≠ evenAddr ea) :
    t.wordAt ea = v ∧ t.wordAt (s.regAddr r) = s.regAt r + size.step := by
  refine ⟨h.1 fun p hp => List.mem_singleton.1 hp ▸ hea, ?_⟩
  rw [h.2 _ (List.mem_singleton_self _), if_neg hea, State.regAt]

theorem ByteStoredThenIncremented.inc_apart {t : State} {r : Reg} {ea : Word}
    (h : ByteStoredThenIncremented s t (.inc r) ea b) (hea : evenAddr (s.regAddr r) ≠ evenAddr ea) :
    t.byteAt ea = b ∧ t.wordAt (s.regAddr r) = s.regAt r + 1#16 := by
  refine ⟨(h.1 fun p hp => List.mem_singleton.1 hp ▸ hea).1, ?_⟩
  rw [h.2 _ (List.mem_singleton_self _), if_neg hea, State.regAt]

end Stored

/-! ## One register in both operands, `a` being its value (R124) -/

section SameRegister

variable {s : State}

/-- A word stored through `*R+` after a source `*R+`: at `a + 2`, and the register ends at `a + 4`. -/
theorem StoredThenIncremented.inc_after_inc (h : s.Ready) {t : State} {r : Reg} {v : Word} (hk : KeepsRest s t)
    (hst : StoredThenIncremented (readSource (.inc r) s).2 t (.inc r) .word
      (effectiveAddr (readSource (.inc r) s).2 (.inc r)) v)
    (hne : evenAddr (s.regAddr r) ≠ evenAddr (s.regAt r + 2#16)) :
    t.wordAt (s.regAt r + 2#16) = v ∧ t.regAt r = s.regAt r + 4#16 := by
  have hreg := readSource_inc_regAt h r
  have hea : effectiveAddr (readSource (.inc r) s).2 (.inc r) = s.regAt r + 2#16 := hreg
  rw [hea] at hst
  obtain ⟨hword, hinc⟩ := hst.inc_apart (by rwa [readSource_regAddr])
  refine ⟨hword, ?_⟩
  rw [readSource_regAddr, hreg] at hinc
  rw [State.regAt, hk.regAddr_eq, hinc]
  exact BitVec.add_assoc (s.regAt r) 2#16 2#16

theorem exec_mov_inc_inc (h : s.Ready) (r : Reg) (hne : evenAddr (s.regAddr r) ≠ evenAddr (s.regAt r + 2#16)) :
    ∃ t, exec (.mov (.inc r) (.inc r)) s = .next t ∧ t.wordAt (s.regAt r + 2#16) = s.wordAt (s.regAt r) ∧
      t.regAt r = s.regAt r + 4#16 := by
  have hst := wordMove_stored h (fun sv => resultEffect sv 14) (.inc r) (.inc r) rfl
  rw [readSource_value s h.2] at hst
  exact ⟨_, rfl, hst.inc_after_inc h (wordMove_answer h _ _ _).keeps hne⟩

theorem exec_a_inc_inc (h : s.Ready) (r : Reg) (hne : evenAddr (s.regAddr r) ≠ evenAddr (s.regAt r + 2#16)) :
    ∃ t, exec (.a (.inc r) (.inc r)) s = .next t ∧
      t.wordAt (s.regAt r + 2#16) = s.wordAt (s.regAt r + 2#16) + s.wordAt (s.regAt r) ∧
      t.regAt r = s.regAt r + 4#16 := by
  have hst := wordDual_stored h (fun sv dv => sumEffect (addSum dv sv) 14) (.inc r) (.inc r) rfl
  have hdv : (readSource (.inc r) s).2.wordAt (effectiveAddr (readSource (.inc r) s).2 (.inc r)) =
      s.wordAt (s.regAt r + 2#16) := by
    rw [effectiveAddr, readSource_inc_regAt h, readSource_inc_wordAt_other h hne]
  rw [readSource_value s h.2, hdv] at hst
  exact ⟨_, rfl, hst.inc_after_inc h (wordDual_answer h _ _ _).keeps hne⟩

theorem exec_mov_inc_reg (h : s.Ready) (r : Reg) :
    ∃ t, exec (.mov (.inc r) (.reg r)) s = .next t ∧ t.regAt r = s.wordAt (s.regAt r) := by
  have hst := wordMove_stored h (fun sv => resultEffect sv 14) (.inc r) (.reg r) rfl
  rw [readSource_value s h.2] at hst
  refine ⟨_, rfl, ?_⟩
  rw [State.regAt, (wordMove_answer h _ _ _).keeps.regAddr_eq, ← readSource_regAddr s (.inc r)]
  exact hst.wordAt_eq rfl

theorem exec_mov_reg_inc (h : s.Ready) (r : Reg) (hne : evenAddr (s.regAddr r) ≠ evenAddr (s.regAt r)) :
    ∃ t, exec (.mov (.reg r) (.inc r)) s = .next t ∧ t.wordAt (s.regAt r) = s.regAt r ∧
      t.regAt r = s.regAt r + 2#16 := by
  have hst := wordMove_stored h (fun sv => resultEffect sv 14) (.reg r) (.inc r) rfl
  have hreg : (readSource (.reg r) s).2.regAt r = s.regAt r := by
    rw [State.regAt, readSource_regAddr]
    exact State.wordAt_of_mem (readSource_mem s h.2 (.reg r) h.1.1) _
  have hea : effectiveAddr (readSource (.reg r) s).2 (.inc r) = s.regAt r := hreg
  rw [hea, readSource_value s h.2] at hst
  obtain ⟨hword, hinc⟩ := hst.inc_apart (by rwa [readSource_regAddr])
  refine ⟨_, rfl, hword, ?_⟩
  rw [readSource_regAddr, hreg] at hinc
  rw [State.regAt, (wordMove_answer h _ _ _).keeps.regAddr_eq]
  exact hinc

theorem exec_movb_inc_inc (h : s.Ready) (r : Reg) (hne : evenAddr (s.regAddr r) ≠ evenAddr (s.regAt r + 1#16)) :
    ∃ t, exec (.movb (.inc r) (.inc r)) s = .next t ∧ t.byteAt (s.regAt r + 1#16) = s.byteAt (s.regAt r) ∧
      t.regAt r = s.regAt r + 2#16 := by
  have hst := byteMove_stored h byteResultEffect (.inc r) (.inc r) rfl
  have hreg := readSourceByte_inc_regAt h r
  have hea : effectiveAddr (readSourceByte (.inc r) s).2 (.inc r) = s.regAt r + 1#16 := hreg
  rw [hea, readSourceByte_value s h.2] at hst
  obtain ⟨hbyte, hinc⟩ := hst.inc_apart (by rwa [readSourceByte_regAddr])
  refine ⟨_, rfl, hbyte, ?_⟩
  rw [readSourceByte_regAddr, hreg] at hinc
  rw [State.regAt, (byteMove_answer h _ _ _).keeps.regAddr_eq]
  exact hinc.trans (BitVec.add_assoc (s.regAt r) 1#16 1#16)

/-- The index register of the destination is read after the source's increment. -/
theorem exec_mov_inc_idx (h : s.Ready) (r : Reg) (hpc : evenAddr (s.regAddr r) ≠ evenAddr s.pc) :
    ∃ t, exec (.mov (.inc r) (.idx r)) s = .next t ∧
      t.wordAt (s.wordAt s.pc + (s.regAt r + 2#16)) = s.wordAt (s.regAt r) := by
  have hst := wordMove_stored h (fun sv => resultEffect sv 14) (.inc r) (.idx r) rfl
  have hea : effectiveAddr (readSource (.inc r) s).2 (.idx r) = s.wordAt s.pc + (s.regAt r + 2#16) := by
    rw [effectiveAddr, readSource_inc_regAt h, readSource_pc, pcAfterOperand, readSource_inc_wordAt_other h hpc]
  rw [hea, readSource_value s h.2] at hst
  exact ⟨_, rfl, hst.wordAt_eq rfl⟩

/-- The increment of `*R+` acts on the word INC stored, the register being its own operand. -/
theorem exec_inc_inc_self (h : s.Ready) (r : Reg) (hself : s.regAt r = s.regAddr r) :
    ∃ t, exec (.inc (.inc r)) s = .next t ∧ t.regAt r = s.regAt r + 3#16 := by
  have hst := wordUnary_stored h
    (fun v => ⟨some (v + 1#16), maskArith, wStatus (v + 1#16) &&& maskArith, 10⟩) (.inc r) rfl
  have hea : effectiveAddr s (.inc r) = s.regAddr r := hself
  have hinc := hst.2 _ (List.mem_singleton_self _)
  rw [hea, if_pos rfl] at hinc
  refine ⟨_, rfl, ?_⟩
  rw [State.regAt, (wordUnary_answer h _ _).keeps.regAddr_eq]
  exact hinc.trans (BitVec.add_assoc (s.regAt r) 1#16 2#16)

end SameRegister

end Sys2Proof.Machine

namespace Sys2Proof.Proofs.FlagsFamily

open Sys2Proof Sys2Proof.Machine

/-- Settles O21: the rows of the table are the modes; what no row changes, no mode does. -/
theorem resolverTable : Obligations.ResolverTable := by
  unfold Obligations.ResolverTable
  intro slot o size s hram
  refine ⟨(resolve_addr s hram slot o size).trans ?_, (resolve_pending slot o size s).trans ?_,
    fun other hother => resolve_pending_other hother o size s, (resolve_pc s slot o size).trans ?_,
    (resolve_cycles s slot o size).trans ?_, resolve_calls_eq hram slot o size, resolve_mem s slot o size,
    resolve_st s slot o size, resolve_rest s slot o size, resolve_readAnswers s hram slot o size⟩
  · cases o <;> rfl
  · cases o <;> rfl
  · cases o <;> rfl
  · cases o <;> cases size <;> rfl

/-- Settles O22: one read and one write at the recorded address, then the slot emptied. -/
theorem postIncrement : Obligations.PostIncrement := by
  unfold Obligations.PostIncrement
  intro s slot
  refine ⟨State.postInc_of_empty, fun p hp => ?_⟩
  obtain ⟨hmem, hcalls, hanswers⟩ :=
    ((s.readWord p.addr).2.writeWord p.addr (s.answerAt p.addr + p.size.step)).setPending_fields slot none
  rw [← State.postInc_of_pending hp] at hmem hcalls hanswers
  refine ⟨?_, fun a ha => ?_, s.postInc_pending slot, fun _ hother => State.postInc_pending_other hother s, hcalls,
    ?_, s.postInc_pc slot, s.postInc_st slot, s.postInc_cycles slot, s.postInc_rest slot⟩
  · rw [State.wordAt_of_mem hmem, State.wordAt_writeWord_self]
  · rw [State.byteAt_of_mem hmem]
    exact (s.readWord p.addr).2.byteAt_writeWord_other _ (ha _ (List.mem_singleton_self _))
  · rw [hanswers, List.drop_one]
    rfl

/-- Settles O23: memory after the read is memory with the register of mode 3 incremented. -/
theorem sourceOperandRead : Obligations.SourceOperandRead := by
  unfold Obligations.SourceOperandRead
  intro o s hready
  have hram : s.readAnswers = [] := hready.2
  have hsrc : s.pendingSrc = none := hready.1.1
  constructor
  · exact ⟨readSource_value s hram o, onlyIncremented_of_mem (readSource_mem s hram o hsrc), readSource_pc s o,
      readSource_st s o, readSource_cycles s o, keepsRest_readSource hready o, readSource_calls_eq hram o hsrc⟩
  · exact ⟨readSourceByte_value s hram o, onlyIncremented_of_mem (readSourceByte_mem s hram o hsrc),
      readSourceByte_pc s o, readSourceByte_st s o, readSourceByte_cycles s o, keepsRest_readSourceByte hready o,
      readSourceByte_calls_eq hram o hsrc⟩

/-- Settles O24, row by row: the destination is resolved in the state the source's increment left. -/
theorem sameRegisterInBothOperands : Obligations.SameRegisterInBothOperands := by
  unfold Obligations.SameRegisterInBothOperands
  intro r s h
  refine ⟨exec_mov_inc_inc h r, exec_a_inc_inc h r, exec_mov_inc_reg h r, exec_mov_reg_inc h r, exec_movb_inc_inc h r,
    fun _ hword hpc => ?_, exec_inc_inc_self h r⟩
  rw [← hword]
  exact exec_mov_inc_idx h r hpc

end Sys2Proof.Proofs.FlagsFamily
end

section
/-! SUPPORT. The step: which instruction it runs, and what can stop it (40_flags_addressing_step.md R120, R125 to
R129). -/

namespace Sys2Proof

/-! ## The immediate a row builds into its instruction (30_encoding.md R91, R95) -/

theorem immediateWord_build {r : Row} (h : r ∈ rows) (w imm : Word) :
    immediateWord (r.build w imm) = if r.hasImm then some imm else none := by
  fin_cases h <;> rfl

theorem decode_illegal {aliased : Bool} {w : Word} (h : findRow aliased w = none) (rest : List Byte) :
    decode aliased (bytesOfWord w ++ rest) = .error (.illegal w) := by
  simp [bytesOfWord_eq, decode, h]

/-- Two words decode to what the row of the first one builds, from the second where it is the immediate. -/
theorem findRow_of_decode {aliased : Bool} {w imm : Word} {i : Instr} {rest : List Byte}
    (h : decode aliased (bytesOfWord w ++ bytesOfWord imm) = .ok (i, rest)) :
    ∃ r, findRow aliased w = some r ∧ i = r.build w (if r.hasImm then imm else 0#16) := by
  cases hr : findRow aliased w with
  | none => rw [decode_illegal hr] at h; cases h
  | some r =>
    refine ⟨r, rfl, ?_⟩
    cases himm : r.hasImm with
    | false => rw [decode_noImmediate hr himm] at h; cases h; rfl
    | true =>
      rw [← List.append_nil (bytesOfWord imm), decode_immediate hr himm] at h
      cases h; rfl

end Sys2Proof

namespace Sys2Proof.Machine

variable {s : State} {i : Instr}

/-! ## The fetch, and the decoding of a word that selects a row (R120, R125) -/

/-- A fetch takes one answer of the port and moves PC on. -/
theorem State.fetchWord_eq (s : State) :
    s.fetchWord.2 =
      { s with
        pc := s.fetchNext s.pc
        readAnswers := s.readAnswers.drop 1
        calls := .readWord (evenAddr s.pc) (s.answerAt s.pc) :: s.calls } := by
  rw [List.drop_one]
  rfl

/-- Two fetches, the second at the PC the first one left. -/
theorem State.fetchWord_fetchWord_eq (s : State) :
    s.fetchWord.2.fetchWord.2 =
      { s with
        pc := s.fetchNext (s.fetchNext s.pc)
        readAnswers := s.readAnswers.drop 2
        calls := .readWord (evenAddr (s.fetchNext s.pc)) ((s.readWord s.pc).2.answerAt (s.fetchNext s.pc)) ::
          .readWord (evenAddr s.pc) (s.answerAt s.pc) :: s.calls } := by
  have hdrop : s.readAnswers.drop 2 = s.readAnswers.tail.tail := by
    rw [← List.drop_one, ← List.drop_one, List.drop_drop]
  rw [hdrop]
  rfl

theorem State.decodeFetched_immediate {w : Word} {r : Row} (hr : findRow s.params.unusedBitsAlias w = some r)
    (himm : r.hasImm = true) :
    s.decodeFetched w = some (r.build w (s.answerAt s.pc), s.fetchWord.2) := by
  simp [State.decodeFetched, hr, himm]

theorem State.decodeFetched_noImmediate {w : Word} {r : Row} (hr : findRow s.params.unusedBitsAlias w = some r)
    (himm : r.hasImm = false) : s.decodeFetched w = some (r.build w 0#16, s) := by
  simp [State.decodeFetched, hr, himm]

theorem executeWord_of_decodeFetched {w : Word} {t : State} (h : s.decodeFetched w = some (i, t)) :
    executeWord w s = exec i t := by
  simp only [executeWord, h]

/-- A running machine executes what it fetches, the breakpoint latch cleared (R127, 70_reset_and_hazards.md R350). -/
theorem step_of_running (h : s.Running) :
    step s = leaveStep (endStep (executeWord (s.answerAt s.pc) (State.fetchWord { s with bpLatch := false }).2)) := by
  obtain ⟨hsuspended, hidle, hbreakpoint⟩ := h
  rw [step_eq_outcome]
  simp only [loopPass, passBody, hsuspended, hidle, hbreakpoint, Bool.false_eq_true, if_false]
  rfl

/-- The fetched word selects a row without an immediate: one fetch. -/
theorem step_of_noImmediate {r : Row} (h : s.Running)
    (hr : findRow s.params.unusedBitsAlias (s.answerAt s.pc) = some r) (himm : r.hasImm = false) :
    step s = leaveStep (endStep
      (exec (r.build (s.answerAt s.pc) 0#16) (State.fetchWord { s with bpLatch := false }).2)) := by
  have hdecoded := State.decodeFetched_noImmediate (s := (State.fetchWord { s with bpLatch := false }).2) hr himm
  rw [step_of_running h, executeWord_of_decodeFetched hdecoded]

/-- It selects a row with an immediate: two fetches, the second of the immediate. -/
theorem step_of_immediate {r : Row} (h : s.Running)
    (hr : findRow s.params.unusedBitsAlias (s.answerAt s.pc) = some r) (himm : r.hasImm = true) :
    step s = leaveStep (endStep
      (exec (r.build (s.answerAt s.pc) ((s.readWord s.pc).2.answerAt (s.fetchNext s.pc)))
        (State.fetchWord { s with bpLatch := false }).2.fetchWord.2)) := by
  have hdecoded := State.decodeFetched_immediate (s := (State.fetchWord { s with bpLatch := false }).2) hr himm
  rw [step_of_running h, executeWord_of_decodeFetched hdecoded]
  rfl

/-! ## What an instruction or a step can end in (R128, R129; 60_exceptions.md R304) -/

/-- An instruction other than X completes, whatever X means. -/
theorem execWith_completes (xMeaning : Operand → State → StepOutcome) (hi : isX i = false) (s : State) :
    ∃ t, execWith xMeaning i s = .next t := by
  cases i
  case x => cases hi
  case ldcr gs count =>
    by_cases hc : cruCount count ≤ 8
    · exact ⟨_, execLdcr_byte hc gs s⟩
    · exact ⟨_, execLdcr_word hc gs s⟩
  case stcr gs count =>
    by_cases hc : cruCount count ≤ 8
    · exact ⟨_, execStcr_byte hc gs s⟩
    · exact ⟨_, execStcr_word hc gs s⟩
  all_goals exact ⟨_, rfl⟩

/-- A next state, or the refusal of a chain of X (45_jump_branch.md R238; log 6). -/
def NextOrTooDeep (o : StepOutcome) : Prop := (∃ t, o = .next t) ∨ o = .refused .xChainTooDeep

theorem NextOrTooDeep.next (t : State) : NextOrTooDeep (.next t) := .inl ⟨t, rfl⟩

theorem NextOrTooDeep.leaveX {o : StepOutcome} (h : NextOrTooDeep o) : NextOrTooDeep (leaveX o) := by
  obtain ⟨t, rfl⟩ | rfl := h
  · exact .next _
  · exact .inr rfl

theorem NextOrTooDeep.endStep {o : StepOutcome} (h : NextOrTooDeep o) : NextOrTooDeep (endStep o) := by
  obtain ⟨t, rfl⟩ | rfl := h
  · exact .next _
  · exact .inr rfl

theorem NextOrTooDeep.leaveStep {o : StepOutcome} (h : NextOrTooDeep o) : NextOrTooDeep (leaveStep o) := by
  obtain ⟨t, rfl⟩ | rfl := h
  · exact .next _
  · exact .inr rfl

/-- X ends as its target does. -/
theorem execXWith_nextOrTooDeep {execute : Instr → State → StepOutcome}
    (hexec : ∀ i s, NextOrTooDeep (execute i s)) (gs : Operand) (s : State) :
    NextOrTooDeep (execXWith execute gs s) := by
  unfold execXWith
  simp only
  split
  · exact (NextOrTooDeep.next _).leaveX
  · exact (hexec _ _).leaveX

theorem execWith_nextOrTooDeep {xMeaning : Operand → State → StepOutcome}
    (hx : ∀ gs s, NextOrTooDeep (xMeaning gs s)) (i : Instr) (s : State) : NextOrTooDeep (execWith xMeaning i s) := by
  cases hi : isX i with
  | false => exact .inl (execWith_completes xMeaning hi s)
  | true =>
    cases i <;> cases hi
    exact hx _ s

theorem execDepth_nextOrTooDeep (fuel : Nat) (i : Instr) (s : State) : NextOrTooDeep (execDepth fuel i s) := by
  induction fuel generalizing i s with
  | zero => exact execWith_nextOrTooDeep (fun _ _ => .inr rfl) i s
  | succ fuel ih => exact execWith_nextOrTooDeep (execXWith_nextOrTooDeep ih) i s

theorem exec_nextOrTooDeep (i : Instr) (s : State) : NextOrTooDeep (exec i s) := by
  rw [exec_eq_execWith]
  exact execWith_nextOrTooDeep (fun gs s => execXWith_nextOrTooDeep (execDepth_nextOrTooDeep _) gs s) i s

theorem executeWord_nextOrTooDeep (w : Word) (s : State) : NextOrTooDeep (executeWord w s) := by
  unfold executeWord
  split
  · exact .next _
  · exact exec_nextOrTooDeep _ _

theorem passBody_nextOrTooDeep (s : State) : NextOrTooDeep (passBody s).outcome := by
  unfold passBody
  split
  · exact .next _
  · exact (executeWord_nextOrTooDeep _ _).endStep.leaveStep

theorem loopPass_nextOrTooDeep (s : State) : NextOrTooDeep (loopPass s).outcome := by
  unfold loopPass
  split
  case isTrue => exact .next _
  case isFalse =>
    split
    case isFalse => exact passBody_nextOrTooDeep s
    case isTrue =>
      simp only
      split
      · exact passBody_nextOrTooDeep _
      · exact .next _

end Sys2Proof.Machine

namespace Sys2Proof.Proofs.FlagsFamily

open Sys2Proof Sys2Proof.Machine

/-- Settles O8: only X can be refused, at the end of its chain, and the run loop adds no stop of its own. -/
theorem onlyDeepExecuteChainsStop : Obligations.OnlyDeepExecuteChainsStop := by
  unfold Obligations.OnlyDeepExecuteChainsStop
  refine ⟨fun i s hi => ?_, fun s => ?_⟩
  · rw [exec_eq_execWith]
    exact execWith_completes execX hi s
  · rw [step_eq_outcome]
    exact loopPass_nextOrTooDeep s

/-- Settles O6: the row the decoder finds is the row the step finds, and it fetches an immediate exactly when the
instruction has one. -/
theorem stepRunsDecodedInstruction : Obligations.StepRunsDecodedInstruction := by
  unfold Obligations.StepRunsDecodedInstruction
  intro s i rest hrunning w hdecode
  obtain ⟨r, hr, rfl⟩ := findRow_of_decode hdecode
  rw [immediateWord_build (findRow_eq_some_iff.1 hr).1]
  cases himm : r.hasImm with
  | false =>
    rw [step_of_noImmediate hrunning hr himm, State.fetchWord_eq]
    rfl
  | true =>
    rw [step_of_immediate hrunning hr himm, State.fetchWord_fetchWord_eq]
    rfl

end Sys2Proof.Proofs.FlagsFamily
end

section
/-! SUPPORT. The immediate and internal-register instructions (41_immediate.md), format VIII. -/

namespace Sys2Proof

/-! ## The rows of format VIII (30_encoding.md R91, R96) -/

/-- The pattern of a row is inside its mask, and the register field outside it. -/
theorem rowsVIII_masks : ∀ r ∈ rowsVIII, ∀ aliased : Bool,
    r.pattern &&& r.maskUnder aliased = r.pattern ∧ ∀ w : Reg, w.setWidth 16 &&& r.maskUnder aliased = 0#16 := by
  decide

/-- Whatever the register field holds, the word selects its row, under both settings of UNUSED_BITS_ALIAS. -/
theorem findRow_wordW {r : Row} (h : r ∈ rowsVIII) (aliased : Bool) (w : Reg) :
    findRow aliased (wordW r.pattern w) = some r := by
  obtain ⟨hpattern, hfield⟩ := rowsVIII_masks r h aliased
  exact findRow_eq_some_iff.2 ⟨by simp [rows, h], Row.selects_iff.2 (and_mask_or hpattern (hfield w))⟩

theorem decodeWords_wordW {r : Row} (h : r ∈ rowsVIII) (aliased : Bool) (w : Reg) (imm : Word) :
    decodeWords aliased (wordW r.pattern w) imm = some (r.build (wordW r.pattern w) imm) := by
  rw [decodeWords, findRow_wordW h]
  rfl

theorem decodeWords_lwpi (aliased : Bool) (w : Reg) (imm : Word) :
    decodeWords aliased (wordW 0x02E0#16 w) imm = some (.lwpi imm) :=
  decodeWords_wordW (List.getElem_mem (l := rowsVIII) (n := 7) (by decide)) aliased w imm

theorem decodeWords_limi (aliased : Bool) (w : Reg) (imm : Word) :
    decodeWords aliased (wordW 0x0300#16 w) imm = some (.limi imm) :=
  decodeWords_wordW (List.getElem_mem (l := rowsVIII) (n := 8) (by decide)) aliased w imm

end Sys2Proof

namespace Sys2Proof.Machine

variable {s t : State}

/-! ## One word stored, in the terms of the statements -/

theorem State.writeWord_unchangedOutside (s : State) (a v : Word) : UnchangedOutside s (s.writeWord a v) [a] :=
  fun _ hx => s.byteAt_writeWord_other v (hx a (List.mem_singleton_self a))

theorem State.writeReg_regAt (s : State) (n : Reg) (v : Word) : (s.writeReg n v).regAt n = v :=
  s.wordAt_writeWord_self (s.regAddr n) v

/-- The frame speaks of memory only. -/
theorem UnchangedOutside.of_mem {u : State} {words : List Word} (h : UnchangedOutside s u words)
    (hmem : t.mem = u.mem) : UnchangedOutside s t words :=
  fun a ha => (State.byteAt_of_mem hmem a).trans (h a ha)

/-- A write that may be none is at most one port call. -/
theorem State.storeWord_calls_eq (s : State) (a : Word) (v : Option Word) :
    (s.storeWord a v).calls = (v.map (PortCall.writeWord (evenAddr a))).toList ++ s.calls := by
  cases v <;> rfl

/-! ## A workspace register in place: what it stores and its port calls -/

theorem regUnary_calls (h : s.RamPort) (op : Word → Effect 16) (w : Reg) :
    (regUnary op w s).calls =
      ((op (s.regAt w)).write.map (PortCall.writeWord (evenAddr (s.regAddr w)))).toList ++
        .readWord (evenAddr (s.regAddr w)) (s.regAt w) :: s.calls := by
  have hread : s.answerAt (s.regAddr w) = s.regAt w := State.answerAt_ram h _
  simp [regUnary, State.storeWord_calls_eq, hread]

theorem regUnary_stored (h : s.Ready) {op : Word → Effect 16} {w : Reg} {r : Word}
    (hr : (op (s.regAt w)).write = some r) :
    (regUnary op w s).regAt w = r ∧ UnchangedOutside s (regUnary op w s) [s.regAddr w] := by
  have hans := regUnary_answer h op w
  have hmem : (regUnary op w s).mem = (s.writeReg w r).mem := by rw [hans.mem, hr]; rfl
  refine ⟨?_, (s.writeWord_unchangedOutside _ r).of_mem hmem⟩
  rw [State.regAt, hans.keeps.regAddr_eq, State.wordAt_of_mem hmem]
  exact s.writeReg_regAt w r

theorem regUnary_notStored (h : s.Ready) {op : Word → Effect 16} {w : Reg} (hr : (op (s.regAt w)).write = none) :
    UnchangedOutside s (regUnary op w s) [] := by
  have hmem : (regUnary op w s).mem = s.mem := by rw [(regUnary_answer h op w).mem, hr]; rfl
  exact fun a _ => State.byteAt_of_mem hmem a

/-- What an instruction of format VIII makes of the immediate and the register's word, in the terms of
`RegisterInPlace`. -/
def immediateEffect (result : Word → Word → Option Word) (clear : Word) (bits : Word → Word → Word) (cycles : Nat)
    (imm v : Word) : Effect 16 := ⟨result v imm, clear, bits v imm, cycles⟩

/-- An instruction whose meaning is a register in place does what format VIII says of it. -/
theorem registerInPlace_of_regUnary {opcode clear : Word} {i : Reg → Word → Instr}
    {result : Word → Word → Option Word} {bits : Word → Word → Word} {cycles : Nat}
    (hencode : ∀ w imm, encode (i w imm) = [wordW opcode w, imm])
    (hexec : ∀ w imm s, exec (i w imm) s = .next (regUnary (immediateEffect result clear bits cycles imm) w s)) :
    RegisterInPlace opcode i result clear bits cycles := by
  intro w imm s h a v
  have hans := regUnary_answer h (immediateEffect result clear bits cycles imm) w
  have hcalls := regUnary_calls h.2 (immediateEffect result clear bits cycles imm) w
  refine ⟨hencode w imm, _, hexec w imm s, ?_, hans.st, hans.pc, hans.cycles, hans.keeps⟩
  cases hr : (immediateEffect result clear bits cycles imm v).write with
  | some r =>
    obtain ⟨hreg, hframe⟩ := regUnary_stored h hr
    have hresult : result v imm = some r := hr
    rw [hr] at hcalls
    rw [hresult]
    exact ⟨hreg, hframe, hcalls⟩
  | none =>
    have hresult : result v imm = none := hr
    rw [hr] at hcalls
    rw [hresult]
    exact ⟨regUnary_notStored h hr, hcalls⟩

/-! ## LIMI (R148) -/

/-- Only the low four bits of ST change. -/
theorem exec_limi (imm : Word) (s : State) :
    exec (.limi imm) s =
      .next { s with st := (s.st &&& 0xFFF0#16) ||| (imm &&& 0x000F#16), cycles := s.cycles + 16 } := rfl

end Sys2Proof.Machine

namespace Sys2Proof.Proofs.ImmediateFamily

open Sys2Proof Sys2Proof.Machine

/-- Settles O25: the four are a register in place, each with its own effect, AI's that of the adder. -/
theorem immediateArithmetic : Obligations.ImmediateArithmetic := by
  unfold Obligations.ImmediateArithmetic
  refine ⟨?ai, ?andi, ?ori, ?ci⟩
  case ai | andi | ori | ci => exact registerInPlace_of_regUnary (fun _ _ => rfl) fun _ _ _ => rfl

/-- Settles O26: one register write, and the rules of a word write for it. -/
theorem registerLoads : Obligations.RegisterLoads := by
  unfold Obligations.RegisterLoads
  intro w imm s
  exact ⟨rfl, rfl, rfl, rfl, rfl, rfl, fun v => ⟨s.writeReg_regAt w v, s.writeWord_unchangedOutside _ v⟩⟩

/-- Settles O27: the register field is outside the masks of both rows, and the test at the end of LIMI's step runs
on the state LIMI leaves. -/
theorem workspaceAndMaskLoads : Obligations.WorkspaceAndMaskLoads := by
  unfold Obligations.WorkspaceAndMaskLoads
  intro imm w aliased s
  refine ⟨rfl, decodeWords_lwpi aliased w imm, rfl, decodeWords_limi aliased w imm, rfl, exec_limi imm s, ?_⟩
  rw [exec_limi]
  rfl

end Sys2Proof.Proofs.ImmediateFamily
end

section
/-! SUPPORT. The two-operand instructions (42_dual_operand.md), formats I and III. -/

namespace Sys2Proof.Machine

/-! ## Frames one after the other -/

section Frames

variable {s t u : State} {words more : List Word}

theorem UnchangedOutside.trans (h : UnchangedOutside s t words) (g : UnchangedOutside t u more) :
    UnchangedOutside s u (words ++ more) := fun a ha =>
  (g a fun w hw => ha w (List.mem_append_right _ hw)).trans (h a fun w hw => ha w (List.mem_append_left _ hw))

theorem UnchangedOutside.mono (h : UnchangedOutside s t words) (hsub : words ⊆ more) : UnchangedOutside s t more :=
  fun a ha => h a fun w hw => ha w (hsub hw)

theorem readSource_unchangedOutside (h : s.Ready) (o : Operand) :
    UnchangedOutside s (readSource o s).2 (incWords s o) :=
  (onlyIncremented_of_mem (readSource_mem s h.2 o h.1.1)).1

theorem readSourceByte_unchangedOutside (h : s.Ready) (o : Operand) :
    UnchangedOutside s (readSourceByte o s).2 (incWords s o) :=
  (onlyIncremented_of_mem (readSourceByte_mem s h.2 o h.1.1)).1

/-- The registers stay where they are, so that one read after the source is the word at its old address. -/
theorem readSource_regAt (s : State) (o : Operand) (n : Reg) :
    (readSource o s).2.regAt n = (readSource o s).2.wordAt (s.regAddr n) := by
  rw [State.regAt, readSource_regAddr]

end Frames

/-! ## The destination after the source, `s1` being the state the source's increment left (R172) -/

section Destination

variable {s s1 t : State} {gs gd : Operand} {ea : Word}

/-- A store and an increment on top of the source's increment. -/
theorem UnchangedOutside.afterSource (hsource : UnchangedOutside s s1 (incWords s gs)) (hwp : s1.wp = s.wp)
    (hdest : UnchangedOutside s1 t (ea :: incWords s1 gd)) :
    UnchangedOutside s t (ea :: (incWords s gs ++ incWords s gd)) := by
  rw [incWords_congr hwp] at hdest
  exact (hsource.trans hdest).mono List.perm_middle.subset

theorem wordStored_afterSource (hsource : UnchangedOutside s s1 (incWords s gs)) (hwp : s1.wp = s.wp) {v : Word}
    (hmem : t.mem = incremented s1 gd .word (s1.mem.setWord ea v)) :
    StoredThenIncremented s1 t gd .word ea v ∧ UnchangedOutside s1 t (ea :: incWords s1 gd) ∧
    UnchangedOutside s t (ea :: (incWords s gs ++ incWords s gd)) :=
  have hdest := unchangedOutside_of_mem hmem
  ⟨storedThenIncremented_of_mem hmem, hdest, hsource.afterSource hwp hdest⟩

theorem byteStored_afterSource (hsource : UnchangedOutside s s1 (incWords s gs)) (hwp : s1.wp = s.wp) {b : Byte}
    (hmem : t.mem = incremented s1 gd .byte (s1.mem.setWord ea (mergeByte ea b (s1.wordAt ea)))) :
    ByteStoredThenIncremented s1 t gd ea b ∧ UnchangedOutside s1 t (ea :: incWords s1 gd) ∧
    UnchangedOutside s t (ea :: (incWords s gs ++ incWords s gd)) :=
  have hdest := unchangedOutside_of_mem hmem
  ⟨byteStoredThenIncremented_of_mem hmem, hdest, hsource.afterSource hwp hdest⟩

theorem notStored_afterSource {size : Size} (hsource : UnchangedOutside s s1 (incWords s gs)) (hwp : s1.wp = s.wp)
    (hmem : t.mem = incremented s1 gd size s1.mem) :
    OnlyIncremented s1 t gd size ∧ UnchangedOutside s t (incWords s gs ++ incWords s gd) := by
  have hdest : OnlyIncremented s1 t gd size := onlyIncremented_of_mem hmem
  refine ⟨hdest, ?_⟩
  rw [← incWords_congr hwp gd]
  exact hsource.trans hdest.1

/-- The increment's port calls come last, whatever an effect then does to ST and the cycles. -/
theorem postInc_dst_conclude_calls {n : Nat} {u : State} {size : Size}
    (h : u.pendingDst = pendingOf s1 gd size none) (e : Effect n) :
    ((u.postInc .dst).conclude e).calls =
      incrementCalls s1 ((u.postInc .dst).conclude e) gd size ++ u.calls :=
  postInc_dst_calls_eq h

/-- The port calls of a byte write: a read of its word, then a write of the merged one (20_memory.md R55). -/
def byteStoreCalls (a old : Word) : Option Byte → List PortCall
  | none => []
  | some b => [.writeWord (evenAddr a) (mergeByte a b old), .readWord (evenAddr a) old]

theorem State.storeByte_calls_eq (hr : s.RamPort) (a : Word) (b : Option Byte) :
    (s.storeByte a b).calls = byteStoreCalls a (s.wordAt a) b ++ s.calls := by
  cases b with
  | none => rfl
  | some b =>
    rw [← State.answerAt_ram hr]
    rfl

end Destination

/-! ## Memory and the port calls of each sequence

`s1` is the state the source's increment left, `ea` the destination's address in it, and `w` or `b` what is written. -/

section Sequences

variable {s s1 : State} {gs gd : Operand} {d : Reg} {ea : Word} {w : Option Word} {b : Option Byte}

theorem wordDual_mem_calls (h : s.Ready) {op : Word → Word → Effect 16} (hs1 : (readSource gs s).2 = s1)
    (hea : (resolve .dst gd .word s1).1 = ea) (hw : (op (readSource gs s).1 (s1.wordAt ea)).write = w) :
    (wordDual op gs gd s).mem = incremented s1 gd .word (stored ea s1.mem w) ∧
    (wordDual op gs gd s).calls = incrementCalls s1 (wordDual op gs gd s) gd .word ++
      ((w.map (PortCall.writeWord (evenAddr ea))).toList ++
        .readWord (evenAddr ea) (s1.wordAt ea) :: (resolveCalls s1 gd ++ s1.calls)) := by
  subst hs1 hea hw
  have hram := readSource_readAnswers s h.2 gs
  have hdst : s.pendingDst = none := h.1.2
  constructor
  · rw [(wordDual_answer h op gs gd).mem, incremented_congr (readSource_wp s gs)]
  · refine (postInc_dst_conclude_calls (by simp [hdst]) _).trans (congrArg (_ ++ ·) ?_)
    simp [State.storeWord_calls_eq, resolve_calls_eq, hram]

theorem wordMove_mem_calls (h : s.Ready) {op : Word → Effect 16} (hs1 : (readSource gs s).2 = s1)
    (hea : (resolve .dst gd .word s1).1 = ea) (hw : (op (readSource gs s).1).write = w) :
    (wordMove op gs gd s).mem = incremented s1 gd .word (stored ea s1.mem w) ∧
    (wordMove op gs gd s).calls = incrementCalls s1 (wordMove op gs gd s) gd .word ++
      ((w.map (PortCall.writeWord (evenAddr ea))).toList ++ (resolveCalls s1 gd ++ s1.calls)) := by
  subst hs1 hea hw
  have hram := readSource_readAnswers s h.2 gs
  have hdst : s.pendingDst = none := h.1.2
  constructor
  · rw [(wordMove_answer h op gs gd).mem, incremented_congr (readSource_wp s gs)]
  · refine (postInc_dst_conclude_calls (by simp [hdst]) _).trans (congrArg (_ ++ ·) ?_)
    simp [State.storeWord_calls_eq, resolve_calls_eq, hram]

theorem byteDual_mem_calls (h : s.Ready) {op : Byte → Byte → Effect 8} (hs1 : (readSourceByte gs s).2 = s1)
    (hea : (resolve .dst gd .byte s1).1 = ea) (hb : (op (readSourceByte gs s).1 (s1.byteAt ea)).write = b) :
    (byteDual op gs gd s).mem = incremented s1 gd .byte (storedByte ea s1.mem b) ∧
    (byteDual op gs gd s).calls = incrementCalls s1 (byteDual op gs gd s) gd .byte ++
      (byteStoreCalls ea (s1.wordAt ea) b ++
        .readWord (evenAddr ea) (s1.wordAt ea) :: (resolveCalls s1 gd ++ s1.calls)) := by
  subst hs1 hea hb
  have hram := readSourceByte_readAnswers s h.2 gs
  have hdst : s.pendingDst = none := h.1.2
  constructor
  · rw [(byteDual_answer h op gs gd).mem, incremented_congr (readSourceByte_wp s gs)]
  · refine (postInc_dst_conclude_calls (by simp [hdst]) _).trans (congrArg (_ ++ ·) ?_)
    rw [State.storeByte_calls_eq (tail_nil (resolve_readAnswers _ hram _ _ _))]
    simp only [State.readByte_value, State.answerAt_ram (resolve_readAnswers _ hram _ _ _), State.selectByte_wordAt]
    simp [resolve_calls_eq, hram, State.wordAt, State.byteAt]

theorem byteMove_mem_calls (h : s.Ready) {op : Byte → Effect 8} (hs1 : (readSourceByte gs s).2 = s1)
    (hea : (resolve .dst gd .byte s1).1 = ea) (hb : (op (readSourceByte gs s).1).write = b) :
    (byteMove op gs gd s).mem = incremented s1 gd .byte (storedByte ea s1.mem b) ∧
    (byteMove op gs gd s).calls = incrementCalls s1 (byteMove op gs gd s) gd .byte ++
      (byteStoreCalls ea (s1.wordAt ea) b ++ (resolveCalls s1 gd ++ s1.calls)) := by
  subst hs1 hea hb
  have hram := readSourceByte_readAnswers s h.2 gs
  have hdst : s.pendingDst = none := h.1.2
  constructor
  · rw [(byteMove_answer h op gs gd).mem, incremented_congr (readSourceByte_wp s gs)]
  · refine (postInc_dst_conclude_calls (by simp [hdst]) _).trans (congrArg (_ ++ ·) ?_)
    rw [State.storeByte_calls_eq (resolve_readAnswers _ hram _ _ _)]
    simp [resolve_calls_eq, hram]

/-- The register is read and written in the state the source's increment left. -/
theorem regDual_mem_calls (h : s.Ready) {op : Word → Word → Effect 16} (hs1 : (readSource gs s).2 = s1)
    (hea : s.regAddr d = ea) (hw : (op (readSource gs s).1 (s1.wordAt ea)).write = w) :
    (regDual op gs d s).mem = stored ea s1.mem w ∧
    (regDual op gs d s).calls = (w.map (PortCall.writeWord (evenAddr ea))).toList ++
      .readWord (evenAddr ea) (s1.wordAt ea) :: s1.calls := by
  subst hs1 hea hw
  have hram := readSource_readAnswers s h.2 gs
  constructor
  · simp only [(regDual_answer h op gs d).mem, readSource_regAt]
  · simp [regDual, State.storeWord_calls_eq, hram]

end Sequences

/-! ## From the meaning of an instruction to the statement of its shape -/

/-- What an instruction of formats I and III makes of its two operands, in the terms of the statements. -/
def dualEffect {n : Nat} (result : BitVec n → BitVec n → Option (BitVec n)) (clear : Word)
    (bits : BitVec n → BitVec n → Word) (sv dv : BitVec n) : Effect n := ⟨result sv dv, clear, bits sv dv, 14⟩

section Shapes

variable {opcode clear : Word}

/-- Format I on words, the destination read (R172). -/
theorem sourceAndDestination_of_wordDual {i : Operand → Operand → Instr} {op : Word → Word → Effect 16}
    {result : Word → Word → Option Word} {bits : Word → Word → Word}
    (hword : ∀ gs gd, firstWord (i gs gd) = wordSrcDst opcode gs gd)
    (hexec : ∀ gs gd s, exec (i gs gd) s = .next (wordDual op gs gd s))
    (hop : ∀ sv dv, op sv dv = dualEffect result clear bits sv dv) :
    SourceAndDestination opcode i result clear bits := by
  intro gs gd s h sv s1 ea dv
  obtain rfl : op = dualEffect result clear bits := funext₂ hop
  have hans := wordDual_answer h (dualEffect result clear bits) gs gd
  have hsource := readSource_unchangedOutside h gs
  refine ⟨hword gs gd, _, hexec gs gd s, ?_, hans.st, hans.pc, hans.cycles.trans ?_, hans.keeps⟩
  · cases hr : result sv dv with
    | some r =>
      obtain ⟨hmem, hcalls⟩ := wordDual_mem_calls (op := dualEffect result clear bits) h rfl rfl hr
      obtain ⟨hstored, hdest, hframe⟩ := wordStored_afterSource hsource (readSource_wp s gs) hmem
      exact ⟨hstored, hdest, hframe, hcalls⟩
    | none =>
      obtain ⟨hmem, hcalls⟩ := wordDual_mem_calls (op := dualEffect result clear bits) h rfl rfl hr
      obtain ⟨hinc, hframe⟩ := notStored_afterSource hsource (readSource_wp s gs) hmem
      exact ⟨hinc, hframe, hcalls⟩
  · simp only [dualEffect, Nat.add_assoc]

/-- Format I on bytes, the destination read (R172, R173). -/
theorem byteSourceAndDestination_of_byteDual {i : Operand → Operand → Instr} {op : Byte → Byte → Effect 8}
    {result : Byte → Byte → Option Byte} {bits : Byte → Byte → Word}
    (hword : ∀ gs gd, firstWord (i gs gd) = wordSrcDst opcode gs gd)
    (hexec : ∀ gs gd s, exec (i gs gd) s = .next (byteDual op gs gd s))
    (hop : ∀ sv dv, op sv dv = dualEffect result clear bits sv dv) :
    ByteSourceAndDestination opcode i result clear bits := by
  intro gs gd s h sv s1 ea dv old
  obtain rfl : op = dualEffect result clear bits := funext₂ hop
  have hans := byteDual_answer h (dualEffect result clear bits) gs gd
  have hsource := readSourceByte_unchangedOutside h gs
  refine ⟨hword gs gd, _, hexec gs gd s, ?_, hans.st, hans.pc, hans.cycles.trans ?_, hans.keeps⟩
  · cases hr : result sv dv with
    | some r =>
      obtain ⟨hmem, hcalls⟩ := byteDual_mem_calls (op := dualEffect result clear bits) h rfl rfl hr
      obtain ⟨hstored, hdest, hframe⟩ := byteStored_afterSource hsource (readSourceByte_wp s gs) hmem
      exact ⟨hstored, hdest, hframe, hcalls⟩
    | none =>
      obtain ⟨hmem, hcalls⟩ := byteDual_mem_calls (op := dualEffect result clear bits) h rfl rfl hr
      obtain ⟨hinc, hframe⟩ := notStored_afterSource hsource (readSourceByte_wp s gs) hmem
      exact ⟨hinc, hframe, hcalls⟩
  · simp only [dualEffect, Nat.add_assoc]

/-- Format III: the register is no operand, so that only the source can increment (R183). -/
theorem sourceAndRegister_of_regDual {i : Operand → Reg → Instr} {op : Word → Word → Effect 16}
    {result : Word → Word → Option Word} {bits : Word → Word → Word}
    (hword : ∀ gs d, firstWord (i gs d) = wordSrcD opcode gs d)
    (hexec : ∀ gs d s, exec (i gs d) s = .next (regDual op gs d s))
    (hop : ∀ sv dv, op sv dv = dualEffect result clear bits sv dv) :
    SourceAndRegister opcode i result clear bits := by
  intro gs d s h sv s1 a dv
  obtain rfl : op = dualEffect result clear bits := funext₂ hop
  have hans := regDual_answer h (dualEffect result clear bits) gs d
  have hsource := readSource_unchangedOutside h gs
  have hread : s1.regAt d = dv := readSource_regAt s gs d
  refine ⟨hword gs d, _, hexec gs d s, ?_, ?_, hans.pc, hans.cycles.trans ?_, hans.keeps⟩
  · cases hr : result sv dv with
    | some r =>
      obtain ⟨hmem, hcalls⟩ := regDual_mem_calls (op := dualEffect result clear bits) h rfl rfl hr
      have hreg := (State.wordAt_of_mem (s := s1.writeWord a r) hmem a).trans (s1.wordAt_writeWord_self a r)
      have hdest := (s1.writeWord_unchangedOutside a r).of_mem hmem
      exact ⟨hreg, hdest, (hsource.trans hdest).mono List.perm_append_comm.subset, hcalls⟩
    | none =>
      obtain ⟨hmem, hcalls⟩ := regDual_mem_calls (op := dualEffect result clear bits) h rfl rfl hr
      exact ⟨fun x _ => State.byteAt_of_mem hmem x,
        onlyIncremented_of_mem (hmem.trans (readSource_mem s h.2 gs h.1.1)), hcalls⟩
  · rw [hans.st, hread]
    rfl
  · simp only [dualEffect, Nat.add_assoc]

end Shapes

/-! ## The bit tests of COC and CZC (R180, R181) -/

/-- Every bit that is 1 in one word is 1 in the other: the first is its own AND with the second. -/
theorem and_beq_left_eq_all (v w : Word) :
    (v &&& w == v) = (List.range 16).all fun k => !v.getLsbD k || w.getLsbD k := by
  rw [Bool.eq_iff_iff, beq_iff_eq, List.all_eq_true, BitVec.eq_of_getLsbD_eq_iff]
  simp only [List.mem_range, BitVec.getLsbD_and]
  refine forall₂_congr fun k _ => ?_
  cases v.getLsbD k <;> simp

/-- Every bit that is 1 in one word is 0 in the other: their AND is 0. -/
theorem and_beq_zero_eq_all (v w : Word) :
    (v &&& w == 0#16) = (List.range 16).all fun k => !v.getLsbD k || !w.getLsbD k := by
  rw [Bool.eq_iff_iff, beq_iff_eq, List.all_eq_true, BitVec.eq_of_getLsbD_eq_iff]
  simp only [List.mem_range, BitVec.getLsbD_and]
  refine forall₂_congr fun k _ => ?_
  cases v.getLsbD k <;> simp

end Sys2Proof.Machine

namespace Sys2Proof.Proofs.DualOperandFamily

open Sys2Proof Sys2Proof.Machine

/-- Settles O37: the five are one sequence, each with its own effect on the two words. -/
theorem wordSourceAndDestination : Obligations.WordSourceAndDestination := by
  unfold Obligations.WordSourceAndDestination
  refine ⟨?a, ?s, ?c, ?soc, ?szc⟩
  case a | s | c | soc | szc =>
    exact sourceAndDestination_of_wordDual (fun _ _ => rfl) (fun _ _ _ => rfl) fun _ _ => rfl

/-- Settles O38: the five are one sequence, each with its own effect on the two bytes. -/
theorem byteSourceToDestination : Obligations.ByteSourceToDestination := by
  unfold Obligations.ByteSourceToDestination
  refine ⟨?ab, ?sb, ?cb, ?socb, ?szcb⟩
  case ab | sb | cb | socb | szcb =>
    exact byteSourceAndDestination_of_byteDual (fun _ _ => rfl) (fun _ _ _ => rfl) fun _ _ => rfl

/-- Settles O39: the store and the increment come on top of the source's increment. -/
theorem moveWord : Obligations.MoveWord := by
  unfold Obligations.MoveWord
  intro gs gd s h sv s1 ea
  have hans := wordMove_answer h (fun sv => resultEffect sv 14) gs gd
  obtain ⟨hmem, hcalls⟩ :=
    wordMove_mem_calls (gd := gd) (op := fun sv => resultEffect sv 14) (w := some sv) h rfl rfl rfl
  obtain ⟨hstored, hdest, hframe⟩ :=
    wordStored_afterSource (readSource_unchangedOutside h gs) (readSource_wp s gs) hmem
  exact ⟨rfl, _, rfl, hstored, hdest, hframe, hcalls, hans.st, hans.pc,
    hans.cycles.trans (by simp only [resultEffect, Nat.add_assoc]), hans.keeps⟩

/-- Settles O40: as MOV, the byte merged into the word its store reads. -/
theorem moveByte : Obligations.MoveByte := by
  unfold Obligations.MoveByte
  intro gs gd s h sv s1 ea old
  have hans := byteMove_answer h byteResultEffect gs gd
  obtain ⟨hmem, hcalls⟩ := byteMove_mem_calls (gd := gd) (op := byteResultEffect) (b := some sv) h rfl rfl rfl
  obtain ⟨hstored, hdest, hframe⟩ :=
    byteStored_afterSource (readSourceByte_unchangedOutside h gs) (readSourceByte_wp s gs) hmem
  exact ⟨rfl, _, rfl, hstored, hdest, hframe, hcalls, hans.st, hans.pc,
    hans.cycles.trans (by simp only [byteResultEffect, Nat.add_assoc]), hans.keeps⟩

/-- Settles O41: one sequence for the three; the bit tests of COC and CZC are ANDs of the two words. -/
theorem sourceAndRegisterResults : Obligations.SourceAndRegisterResults := by
  unfold Obligations.SourceAndRegisterResults
  refine ⟨?coc, ?czc, ?xor⟩
  case coc =>
    refine sourceAndRegister_of_regDual (fun _ _ => rfl) (fun _ _ _ => rfl) fun sv dv => ?_
    rw [dualEffect, and_beq_left_eq_all]
  case czc =>
    refine sourceAndRegister_of_regDual (fun _ _ => rfl) (fun _ _ _ => rfl) fun sv dv => ?_
    rw [dualEffect, and_beq_zero_eq_all]
  case xor => exact sourceAndRegister_of_regDual (fun _ _ => rfl) (fun _ _ _ => rfl) fun _ _ => rfl

end Sys2Proof.Proofs.DualOperandFamily
end

section
/-! SUPPORT. The single-operand instructions (43_single_operand.md), format VI in place. -/

namespace Sys2Proof.Machine

/-! ## The carry and the overflow of the adder, read off the result (40_flags_addressing_step.md R114) -/

/-- The sum wraps when it is below what was added. -/
theorem addSum_carry_iff_lt {n : Nat} (a b : BitVec n) : (addSum a b).carry = true ↔ (a + b).toNat < b.toNat := by
  have ha := a.isLt
  rw [addSum, decide_eq_true_iff, BitVec.toNat_add]
  rcases Nat.lt_or_ge (a.toNat + b.toNat) (2 ^ n) with hsum | hsum
  · rw [Nat.mod_eq_of_lt hsum]
    omega
  · rw [Nat.mod_eq_sub_mod hsum, Nat.mod_eq_of_lt (by omega)]
    omega

/-- What is added is not negative: it overflows when the result is one of the `b` lowest negative words. -/
theorem addSum_overflow_iff_of_lt (a : Word) {b : Word} (hb : b.toNat < 0x8000) :
    (addSum a b).overflow = true ↔ 0x8000 ≤ (a + b).toNat ∧ (a + b).toNat < 0x8000 + b.toNat := by
  rw [addSum_overflow_iff, BitVec.toInt_eq_toNat_cond, BitVec.toInt_eq_toNat_cond, BitVec.toNat_add]
  omega

/-- What is added is negative: it overflows when the result is one of the highest words not negative, as many as
the negative number is below 0. -/
theorem addSum_overflow_iff_of_ge (a : Word) {b : Word} (hb : 0x8000 ≤ b.toNat) :
    (addSum a b).overflow = true ↔ (a + b).toNat < 0x8000 ∧ b.toNat ≤ (a + b).toNat + 0x8000 := by
  rw [addSum_overflow_iff, BitVec.toInt_eq_toNat_cond, BitVec.toInt_eq_toNat_cond, BitVec.toNat_add]
  omega

/-! ## Bits of the word table (R110) -/

theorem StatusIn.and_mask_eq {mask bits : Word} (h : StatusIn mask bits) : bits &&& mask = bits := by
  calc bits &&& mask = (bits &&& mask) ||| (bits &&& ~~~mask) := by rw [h, BitVec.or_zero]
    _ = bits := by
      ext k hk
      simp [← Bool.and_or_distrib_left]

/-- The word table holds the five arithmetic flags and no other. -/
theorem wStatus_and_maskArith (v : Word) : wStatus v &&& maskArith = wStatus v := by
  rw [wStatus_eq_statusWord]
  exact (statusWord_in_maskArith _ _ _ _ _).and_mask_eq

theorem statusWord_and_carryOverflow (lgt agt eq c ov op : Bool) :
    statusWord lgt agt eq c ov op &&& (flagC ||| flagOV) = flagIf flagC c ||| flagIf flagOV ov := by
  revert lgt agt eq c ov op; decide

theorem wStatus_and_carryOverflow (v : Word) :
    wStatus v &&& (flagC ||| flagOV) = flagIf flagC (v == 0#16) ||| flagIf flagOV (v == 0x8000#16) := by
  rw [wStatus_eq_statusWord, statusWord_and_carryOverflow]

/-! ## The operand in place (R200): memory and the port calls -/

section Sequences

variable {s : State} {gs : Operand} {ea : Word} {w : Option Word}

theorem wordUnary_mem_calls (h : s.Ready) {op : Word → Effect 16} (hea : (resolve .src gs .word s).1 = ea)
    (hw : (op (s.wordAt ea)).write = w) :
    (wordUnary op gs s).mem = incremented s gs .word (stored ea s.mem w) ∧
    (wordUnary op gs s).calls = incrementCalls s (wordUnary op gs s) gs .word ++
      ((w.map (PortCall.writeWord (evenAddr ea))).toList ++
        .readWord (evenAddr ea) (s.wordAt ea) :: (resolveCalls s gs ++ s.calls)) := by
  subst hea hw
  have hram : s.readAnswers = [] := h.2
  have hsrc : s.pendingSrc = none := h.1.1
  refine ⟨(wordUnary_answer h op gs).mem, (postInc_src_calls_eq (by simp [hsrc])).trans (congrArg (_ ++ ·) ?_)⟩
  simp [State.storeWord_calls_eq, resolve_calls_eq, hram]

theorem wordFill_calls (h : s.Ready) (v : Word) (hea : (resolve .src gs .word s).1 = ea) :
    (wordFill v gs s).calls = incrementCalls s (wordFill v gs s) gs .word ++
      .writeWord (evenAddr ea) v :: (resolveCalls s gs ++ s.calls) := by
  subst hea
  have hram : s.readAnswers = [] := h.2
  have hsrc : s.pendingSrc = none := h.1.1
  refine (postInc_src_calls_eq (by simp [hsrc])).trans (congrArg (_ ++ ·) ?_)
  simp [resolve_calls_eq, hram]

end Sequences

/-! ## From the meaning of an instruction to the statement of its shape -/

/-- What an instruction of format VI makes of its operand's word, in the terms of `OperandInPlace`. -/
def unaryEffect (result : Word → Option Word) (clear : Word) (bits : Word → Word) (cycles : Word → Nat)
    (v : Word) : Effect 16 := ⟨result v, clear, bits v, cycles v⟩

/-- An instruction whose meaning is its operand in place does what format VI says of it. -/
theorem operandInPlace_of_wordUnary {opcode clear : Word} {i : Operand → Instr} {op : Word → Effect 16}
    {result : Word → Option Word} {bits : Word → Word} {cycles : Word → Nat}
    (hword : ∀ gs, firstWord (i gs) = wordSrc opcode gs)
    (hexec : ∀ gs s, exec (i gs) s = .next (wordUnary op gs s))
    (hop : ∀ v, op v = unaryEffect result clear bits cycles v) :
    OperandInPlace opcode i result clear bits cycles := by
  intro gs s h ea v
  obtain rfl : op = unaryEffect result clear bits cycles := funext hop
  have hans := wordUnary_answer h (unaryEffect result clear bits cycles) gs
  refine ⟨hword gs, _, hexec gs s, ?_, hans.st, hans.pc, hans.cycles.trans (Nat.add_assoc _ _ _).symm, hans.keeps⟩
  cases hr : result v with
  | some r =>
    obtain ⟨hmem, hcalls⟩ := wordUnary_mem_calls (op := unaryEffect result clear bits cycles) h rfl hr
    exact ⟨storedThenIncremented_of_mem hmem, unchangedOutside_of_mem hmem, hcalls⟩
  | none =>
    obtain ⟨hmem, hcalls⟩ := wordUnary_mem_calls (op := unaryEffect result clear bits cycles) h rfl hr
    exact ⟨onlyIncremented_of_mem hmem, hcalls⟩

/-! ## Results and conditions as the statements write them -/

/-- SWPB's two bytes, as a number (R197). -/
theorem lowByte_append_highByte (v : Word) :
    (lowByte v ++ highByte v : Word) = BitVec.ofNat 16 (v.toNat % 256 * 256 + v.toNat / 256) := by
  refine BitVec.eq_of_toNat_eq ?_
  rw [append_toNat, lowByte_toNat, highByte_toNat, BitVec.toNat_ofNat]
  omega

theorem beq_or_beq_eq_decide (r a b : Word) : (r == a || r == b) = decide (r = a ∨ r = b) := by
  rw [Bool.decide_or, Bool.beq_eq_decide_eq, Bool.beq_eq_decide_eq]

theorem bne_eq_decide (r a : Word) : (r != a) = decide (r ≠ a) := by
  rw [bne, Bool.beq_eq_decide_eq, decide_not]

/-- DEC and DECT add the negative (R195, R196). -/
theorem sub_one_eq_add (v : Word) : v - 1#16 = v + 0xFFFF#16 := BitVec.sub_eq_add_neg v 1#16

theorem sub_two_eq_add (v : Word) : v - 2#16 = v + 0xFFFE#16 := BitVec.sub_eq_add_neg v 2#16

end Sys2Proof.Machine

namespace Sys2Proof.Proofs.SingleOperandFamily

open Sys2Proof Sys2Proof.Machine

/-- Settles O28: the eight are one sequence, each with its own effect on the operand's word. -/
theorem operandInPlaceResults : Obligations.OperandInPlaceResults := by
  unfold Obligations.OperandInPlaceResults
  refine ⟨?neg, ?inv, ?inc, ?inct, ?dec, ?dect, ?swpb, ?abs⟩ <;>
    refine operandInPlace_of_wordUnary (fun _ => rfl) (fun _ _ => rfl) fun v => ?_
  case neg | inc => rw [wStatus_and_maskArith]; rfl
  case inv => rfl
  case inct => rw [beq_or_beq_eq_decide]; rfl
  case dec => rw [unaryEffect, sub_one_eq_add, bne_eq_decide, Bool.beq_eq_decide_eq]; rfl
  case dect => rw [unaryEffect, sub_two_eq_add, beq_or_beq_eq_decide]; rfl
  case swpb => rw [lowByte_append_highByte]; rfl
  case abs => simp only [unaryEffect, BitVec.msb_eq_toInt, decide_eq_true_eq]

/-- Settles O29: the two are one sequence that stores a word, and its increment. -/
theorem operandFill : Obligations.OperandFill := by
  unfold Obligations.OperandFill
  intro gs s h ea
  refine ⟨rfl, rfl, fun i v hi => ?_⟩
  have hexec : exec i s = .next (wordFill v gs s) := by
    obtain ⟨rfl, rfl⟩ | ⟨rfl, rfl⟩ := hi
    · rfl
    · rfl
  have hans := wordFill_answer h v gs
  exact ⟨_, hexec, storedThenIncremented_of_mem hans.mem, unchangedOutside_of_mem hans.mem, wordFill_calls h v rfl,
    hans.st, hans.pc, hans.cycles.trans (Nat.add_assoc _ _ _).symm, hans.keeps⟩

/-- Settles O30: a carry is a result below what was added, an overflow one of the one or two results next to the
change of sign. -/
theorem stepFlagsAreAdderFlags : Obligations.StepFlagsAreAdderFlags := by
  unfold Obligations.StepFlagsAreAdderFlags
  intro v
  refine ⟨?inc, ?inctCarry, ?inctOverflow, ?decCarry, ?decOverflow, ?dectCarry, ?dectOverflow⟩
  case inc =>
    have hcarry : (v + 1#16 == 0#16) = (addSum v 1#16).carry := by
      rw [Bool.eq_iff_iff, addSum_carry_iff_lt, beq_iff_eq]
      bv_omega
    have hoverflow : (v + 1#16 == 0x8000#16) = (addSum v 1#16).overflow := by
      rw [Bool.eq_iff_iff, addSum_overflow_iff_of_lt v (by decide), beq_iff_eq]
      bv_omega
    rw [wStatus_and_carryOverflow, hcarry, hoverflow]
  case inctCarry => exact addSum_carry_iff_lt v 2#16
  case inctOverflow =>
    rw [addSum_overflow_iff_of_lt v (by decide)]
    bv_omega
  case decCarry =>
    rw [addSum_carry_iff_lt]
    bv_omega
  case decOverflow =>
    rw [addSum_overflow_iff_of_ge v (by decide)]
    bv_omega
  case dectCarry => exact addSum_carry_iff_lt v 0xFFFE#16
  case dectOverflow =>
    rw [addSum_overflow_iff_of_ge v (by decide)]
    bv_omega

end Sys2Proof.Proofs.SingleOperandFamily
end

section
/-! SUPPORT. The shifts (44_shift.md), format V. -/

namespace Sys2Proof.Machine

/-! ## The count (R210) -/

theorem shiftCount_of_ne_zero {count : BitVec 4} (h : count ≠ 0#4) (s : State) :
    shiftCount count s = (count.toNat, s) := if_neg h

/-- A field of 0: what the port answers for R0 gives the count. -/
theorem shiftCount_zero (s : State) :
    let r0 := s.answerAt (s.regAddr 0#4)
    shiftCount 0#4 s =
      (if r0.toNat % 16 = 0 then 16 else r0.toNat % 16,
       { s with
         cycles := s.cycles + 8
         readAnswers := s.readAnswers.drop 1
         calls := .readWord (evenAddr (s.regAddr 0#4)) r0 :: s.calls }) := by
  intro r0
  have hnibble (a : Word) : (a &&& 0x000F#16).toNat = a.toNat % 16 := Nat.and_two_pow_sub_one_eq_mod a.toNat 4
  have hzero (a : Word) : a &&& 0x000F#16 = 0#16 ↔ a.toNat % 16 = 0 := by
    rw [← hnibble, ← BitVec.toNat_inj, BitVec.toNat_zero]
  rw [shiftCount, if_pos rfl, List.drop_one]
  simp only [State.readReg_value, hzero, hnibble]
  rfl

theorem shiftCount_bounds (count : BitVec 4) (s : State) :
    1 ≤ (shiftCount count s).1 ∧ (shiftCount count s).1 ≤ 16 := by
  by_cases h : count = 0#4
  · subst h
    rw [shiftCount_zero]
    dsimp only
    split <;> omega
  · rw [shiftCount_of_ne_zero h]
    dsimp only
    bv_omega

theorem shiftCount_mem (count : BitVec 4) (s : State) : (shiftCount count s).2.mem = s.mem := by
  unfold shiftCount
  split <;> rfl

theorem keepsRest_shiftCount {s : State} (h : s.Ready) (count : BitVec 4) : KeepsRest s (shiftCount count s).2 := by
  have hram : s.readAnswers = [] := h.2
  unfold shiftCount
  split
  · exact ⟨rfl, h.1, by simp [State.RamPort, hram]⟩
  · exact ⟨rfl, h⟩

/-! ## From the meaning of a shift to the statement of its shape -/

/-- What a shift makes of its count and the register's word, in the terms of `Shifts`. -/
def countedEffect (result : Nat → Word → Nat) (carry : Nat → Word → Bool) (overflow : Option (Nat → Word → Bool))
    (n : Nat) (v : Word) : Effect 16 :=
  let r := BitVec.ofNat 16 (result n v)
  ⟨some r, if overflow.isSome then maskArith else maskCompareC,
    (wStatus r &&& maskCompare) ||| flagIf flagC (carry n v) ||| flagIf flagOV (overflow.any fun f => f n v),
    12 + 2 * n⟩

/-- The three shifts that leave OV alone. -/
theorem countedEffect_none (result : Nat → Word → Nat) (carry : Nat → Word → Bool) (n : Nat) (v : Word) :
    countedEffect result carry none n v = shiftEffect (BitVec.ofNat 16 (result n v)) (carry n v) n := by
  simp [shiftEffect, countedEffect, flagIf]

/-- An instruction whose meaning is a counted register in place does what format V says of it. -/
theorem shifts_of_shiftRegister {opcode : Word} {i : BitVec 4 → Reg → Instr} {op : Nat → Word → Effect 16}
    {result : Nat → Word → Nat} {carry : Nat → Word → Bool} {overflow : Option (Nat → Word → Bool)}
    (hword : ∀ count w, firstWord (i count w) = wordShift opcode count w)
    (hexec : ∀ count w s, exec (i count w) s = .next (shiftRegister op count w s))
    (hop : ∀ n v, 1 ≤ n → n ≤ 16 → op n v = countedEffect result carry overflow n v) :
    Shifts opcode i result carry overflow := by
  intro count w s h n s1 a v r
  have hs1 : KeepsRest s s1 := keepsRest_shiftCount h count
  have hmem : s1.mem = s.mem := shiftCount_mem count s
  have ha : s1.regAddr w = a := hs1.regAddr_eq w
  have hv : s1.regAt w = v := by rw [State.regAt, ha, State.wordAt_of_mem hmem]; rfl
  obtain ⟨hlow, hhigh⟩ : 1 ≤ n ∧ n ≤ 16 := shiftCount_bounds count s
  have he : op n (s1.regAt w) = countedEffect result carry overflow n v := by rw [hv, hop n v hlow hhigh]
  obtain ⟨hreg, hframe⟩ := regUnary_stored hs1.2 (w := w) (r := r) (congrArg Effect.write he)
  have hcalls := regUnary_calls hs1.2.2 (op n) w
  have hans := regUnary_answer hs1.2 (op n) w
  obtain ⟨hpc, hst, -, -⟩ := shiftCount_fields count s
  rw [ha] at hframe
  rw [he, ha, hv] at hcalls
  refine ⟨hword count w, regUnary (op n) w s1, hexec count w s, hreg, fun x hx => ?_, hcalls, ?_,
    hans.pc.trans hpc, ?_, hans.keeps.1.trans hs1.1, hans.keeps.2⟩
  · rw [hframe x hx, State.byteAt_of_mem hmem]
  · rw [hans.st, he, hst]
    rfl
  · rw [hans.cycles, he]
    rfl

/-! ## Results as the statements write them -/

theorem sshiftRight_eq_ofNat (v : Word) (n : Nat) :
    v.sshiftRight n = BitVec.ofNat 16 (v.toInt / 2 ^ n % 65536).toNat := by
  rw [BitVec.sshiftRight, Int.shiftRight_eq_div_pow]
  refine BitVec.eq_of_toNat_eq ?_
  rw [BitVec.toNat_ofInt, BitVec.toNat_ofNat]
  norm_cast
  omega

theorem ushiftRight_eq_ofNat (v : Word) (n : Nat) : v >>> n = BitVec.ofNat 16 (v.toNat / 2 ^ n) := by
  rw [← Nat.shiftRight_eq_div_pow, ← BitVec.toNat_ushiftRight, BitVec.ofNat_toNat, BitVec.setWidth_eq]

theorem shiftLeft_eq_ofNat (v : Word) (n : Nat) : v <<< n = BitVec.ofNat 16 (v.toNat * 2 ^ n) := by
  rw [← Nat.shiftLeft_eq]
  rfl

theorem or_shifts_eq_ofNat (v : Word) (n k : Nat) :
    v >>> n ||| v <<< k = BitVec.ofNat 16 (v.toNat / 2 ^ n ||| v.toNat * 2 ^ k) := by
  rw [BitVec.ofNat_or, ushiftRight_eq_ofNat, shiftLeft_eq_ofNat]

/-! ## The overflow of SLA (R213) -/

/-- A run of bits with no change in it is a run of 0s or a run of 1s. -/
theorem forall_eq_succ_iff (b : Nat → Bool) (n : Nat) :
    (∀ k < n, b k = b (k + 1)) ↔ (∀ k ≤ n, b k = false) ∨ ∀ k ≤ n, b k = true := by
  constructor
  · intro h
    have hfirst : ∀ k ≤ n, b k = b 0 := by
      intro k
      induction k with
      | zero => exact fun _ => rfl
      | succ k ih => exact fun hk => (h k hk).symm.trans (ih (Nat.le_of_succ_le hk))
    cases hb : b 0
    case false => exact .inl fun k hk => (hfirst k hk).trans hb
    case true => exact .inr fun k hk => (hfirst k hk).trans hb
  · rintro (h | h) k hk
    · rw [h k hk.le, h (k + 1) hk]
    · rw [h k hk.le, h (k + 1) hk]

/-- Shifted down to the top `n + 1` bits, two words are equal when those bits are. -/
theorem ushiftRight_eq_iff_top {m n : Nat} (hn : n ≤ m) (x y : BitVec (m + 1)) :
    x >>> (m - n) = y >>> (m - n) ↔ ∀ k ≤ n, x.getMsbD k = y.getMsbD k := by
  constructor
  · intro h k hk
    have hbit := congrArg (BitVec.getMsbD · (m - n + k)) h
    simpa [show m - n + k < m + 1 by omega] using hbit
  · intro h
    refine BitVec.eq_of_getMsbD_eq fun k hk => ?_
    rw [BitVec.getMsbD_ushiftRight, BitVec.getMsbD_ushiftRight, h (k - (m - n)) (by omega)]

/-- SLA's 17 bits are the word's, from the top, and then a 0. -/
theorem getMsbD_append_zero (v : Word) (k : Nat) : (v ++ 0#1).getMsbD k = v.getMsbD k := by
  rw [BitVec.getMsbD_append]
  split
  case isTrue h => rw [BitVec.getMsbD_zero, BitVec.getMsbD_of_ge v k h]
  case isFalse => rfl

/-- The top bits are not all equal exactly when the sign changes at one of the steps. -/
theorem slaOverflow_eq_any {n : Nat} (hn : n ≤ 16) (v : Word) :
    slaOverflow n v = (List.range n).any fun k => (v <<< k).msb != (v <<< (k + 1)).msb := by
  have hzeros : (v ++ 0#1) >>> (16 - n) = 0#17 ↔ ∀ k ≤ n, v.getMsbD k = false := by
    have htop := ushiftRight_eq_iff_top hn (v ++ 0#1) 0#17
    simpa only [BitVec.zero_ushiftRight, getMsbD_append_zero, BitVec.getMsbD_zero] using htop
  have hones : (v ++ 0#1) >>> (16 - n) = 0x1FFFF#17 >>> (16 - n) ↔ ∀ k ≤ n, v.getMsbD k = true := by
    refine (ushiftRight_eq_iff_top hn (v ++ 0#1) (BitVec.allOnes 17)).trans (forall₂_congr fun k hk => ?_)
    rw [getMsbD_append_zero, BitVec.getMsbD_allOnes, decide_eq_true (by omega)]
  have hchange : ((List.range n).any fun k => (v <<< k).msb != (v <<< (k + 1)).msb) = false ↔
      ∀ k < n, v.getMsbD k = v.getMsbD (k + 1) := by
    simp
  rw [← Bool.not_inj_iff, Bool.eq_iff_iff, Bool.not_eq_true', Bool.not_eq_true', hchange, forall_eq_succ_iff, ← hzeros,
    ← hones]
  simp [slaOverflow, imp_iff_not_or]

end Sys2Proof.Machine

namespace Sys2Proof.Proofs.ShiftFamily

open Sys2Proof Sys2Proof.Machine

/-- Settles O31: a field that is not 0 is the count; else one read of R0, whose low four bits are it. -/
theorem shiftCountRule : Obligations.ShiftCountRule := by
  unfold Obligations.ShiftCountRule
  intro count s r0
  obtain ⟨hlow, hhigh⟩ := shiftCount_bounds count s
  refine ⟨hlow, hhigh, fun h => shiftCount_of_ne_zero h s, ?_⟩
  rintro rfl
  exact shiftCount_zero s

/-- Settles O32: the four are one sequence, each with its own effect on the count and the register's word. -/
theorem shiftResults : Obligations.ShiftResults := by
  unfold Obligations.ShiftResults
  refine ⟨?sra, ?srl, ?sla, ?src⟩ <;>
    refine shifts_of_shiftRegister (fun _ _ => rfl) (fun _ _ _ => rfl) fun n v _ hn => ?_
  case sra => rw [sraEffect, sshiftRight_eq_ofNat, countedEffect_none]
  case srl => rw [srlEffect, ushiftRight_eq_ofNat, countedEffect_none]
  case sla => rw [slaEffect, shiftLeft_eq_ofNat, slaOverflow_eq_any hn]; rfl
  case src => rw [srcEffect, or_shifts_eq_ofNat, countedEffect_none]

end Sys2Proof.Proofs.ShiftFamily
end

section
/-! SUPPORT. The jumps, B and BL (45_jump_branch.md). -/

namespace Sys2Proof.Machine

/-! ## The target and the condition of a jump (R220) -/

/-- The displacement in bytes is twice the signed number in the jump's word. -/
theorem jumpOffset_eq_ofInt (disp : BitVec 8) : jumpOffset disp = BitVec.ofInt 16 (2 * disp.toInt) := by
  rw [BitVec.ofInt_mul]
  rfl

theorem State.hasFlag_iff (s : State) (mask : Word) : s.hasFlag mask = true ↔ s.st &&& mask ≠ 0#16 := bne_iff_ne

theorem State.not_hasFlag_iff (s : State) (mask : Word) : (!s.hasFlag mask) = true ↔ s.st &&& mask = 0#16 := by
  simp [State.hasFlag]

theorem jumpIf_true (disp : BitVec 8) (s : State) :
    jumpIf true disp s =
      { s with
        pc := remapPc s.params (evenAddr (s.pc + BitVec.ofInt 16 (2 * disp.toInt)))
        cycles := s.cycles + 10 } := by
  rw [← jumpOffset_eq_ofInt]
  rfl

theorem jumpIf_false (disp : BitVec 8) (s : State) : jumpIf false disp s = { s with cycles := s.cycles + 8 } := rfl

/-- An instruction whose meaning is a jump on a test of ST jumps when the condition it tests holds. -/
theorem jumpsWhen_of_jumpIf {opcode : Word} {i : BitVec 8 → Instr} {condition : Word → Prop} {test : State → Bool}
    (hword : ∀ disp, firstWord (i disp) = wordDisp opcode disp)
    (hexec : ∀ disp s, exec (i disp) s = .next (jumpIf (test s) disp s))
    (htest : ∀ s, test s = true ↔ condition s.st) : JumpsWhen opcode i condition := by
  intro disp s
  refine ⟨hword disp, fun htaken => ?_, fun hnot => ?_⟩
  · rw [hexec, (htest s).2 htaken, jumpIf_true]
  · have hfalse : test s = false := Bool.eq_false_iff.2 fun h => hnot ((htest s).1 h)
    rw [hexec, hfalse, jumpIf_false]

/-! ## The target of a branch, its increment applied (R235, R236) -/

variable {s : State}

theorem keepsRest_branchTarget (h : s.Ready) (gs : Operand) : KeepsRest s (branchTarget gs s).2 :=
  ⟨branchTarget_rest s gs, ⟨branchTarget_pendingSrc s gs, (branchTarget_pendingDst s gs).trans h.1.2⟩,
    branchTarget_readAnswers s h.2 gs⟩

theorem branchTarget_onlyIncremented (h : s.Ready) (gs : Operand) :
    OnlyIncremented s (branchTarget gs s).2 gs .word :=
  onlyIncremented_of_mem (branchTarget_mem s h.2 gs h.1.1)

/-- BL's link is the PC past its operand, stored in R11 of the workspace it started in. -/
theorem exec_bl (gs : Operand) (s : State) :
    exec (.bl gs) s = .next ((((branchTarget gs s).2.writeWord (s.regAddr 11#4) (pcAfterOperand s gs)).setPc
      (resolve .src gs .word s).1).addCycles 12) := by
  rw [← branchTarget_pc, ← branchTarget_regAddr s gs]
  rfl

end Sys2Proof.Machine

namespace Sys2Proof.Proofs.JumpBranchFamily

open Sys2Proof Sys2Proof.Machine

/-- Settles O33: the thirteen are one conditional jump, each with its own test of the flags. -/
theorem jumpRules : Obligations.JumpRules := by
  unfold Obligations.JumpRules
  refine ⟨?jmp, ?jlt, ?jle, ?jeq, ?jhe, ?jgt, ?jne, ?jnc, ?joc, ?jno, ?jl, ?jh, ?jop⟩ <;>
    refine jumpsWhen_of_jumpIf (fun _ => rfl) (fun _ _ => rfl) fun s => ?_
  case jmp => exact iff_true_intro rfl
  case jeq | jgt | joc | jop => exact s.hasFlag_iff _
  case jne | jnc | jno => exact s.not_hasFlag_iff _
  case jhe => exact (Bool.or_eq_true_iff ..).trans (or_congr (s.hasFlag_iff _) (s.hasFlag_iff _))
  case jle => exact (Bool.or_eq_true_iff ..).trans (or_congr (s.not_hasFlag_iff _) (s.hasFlag_iff _))
  case jh => exact (Bool.and_eq_true_iff ..).trans (and_congr (s.hasFlag_iff _) (s.not_hasFlag_iff _))
  case jlt | jl => exact (Bool.and_eq_true_iff ..).trans (and_congr (s.not_hasFlag_iff _) (s.not_hasFlag_iff _))

/-- Settles O34: both branch to the address their operand resolves to, once its increment is applied; BL's store of
the link comes after that increment, so that R11 holds the link whatever register was incremented. -/
theorem branchAndLink : Obligations.BranchAndLink := by
  unfold Obligations.BranchAndLink
  intro gs s h ea link r11
  have hinc := branchTarget_onlyIncremented h gs
  have hkeeps := keepsRest_branchTarget h gs
  have hpc : remapPc (branchTarget gs s).2.params (evenAddr ea) = remapPc s.params (evenAddr ea) := by
    rw [branchTarget_params]
  have hst := branchTarget_st s gs
  have hcycles := branchTarget_cycles s gs
  have hstore := (branchTarget gs s).2.writeWord_unchangedOutside r11 link
  have hcalls := branchTarget_calls_eq h.2 gs h.1.1
  refine ⟨rfl, rfl, ⟨_, rfl, hpc, hinc, hcalls, hst, congrArg (· + 8) hcycles, hkeeps⟩,
    _, exec_bl gs s, hpc, ?reg, ?frame, ?increment, rfl, hst, congrArg (· + 12) hcycles, hkeeps⟩
  case reg =>
    calc ((branchTarget gs s).2.writeWord r11 link).wordAt ((branchTarget gs s).2.regAddr 11#4)
      _ = ((branchTarget gs s).2.writeWord r11 link).wordAt r11 := by rw [branchTarget_regAddr]
      _ = link := State.wordAt_writeWord_self _ r11 link
  case frame => exact (hinc.1.trans hstore).mono List.perm_append_comm.subset
  case increment =>
    intro p hp hne
    calc ((branchTarget gs s).2.writeWord r11 link).wordAt p
      _ = (branchTarget gs s).2.wordAt p := by rw [State.wordAt_writeWord, if_neg hne]
      _ = s.wordAt p + 2#16 := hinc.2 p hp

end Sys2Proof.Proofs.JumpBranchFamily
end

section
/-! SUPPORT. X, and the chains of X (45_jump_branch.md R238; log 6). -/

namespace Sys2Proof.Machine

variable {s t : State} {i : Instr}

/-! ## The state an X executes its operand's word in -/

/-- The operand read and incremented, X's own 4 cycles charged, one level deeper (R238). -/
def State.underX (s : State) (gs : Operand) : State :=
  { (readSource gs s).2 with cycles := (readSource gs s).2.cycles + 4, xDepth := s.xDepth + 1 }

/-- It is the state `execXWith` decodes in: reading the operand keeps the depth. -/
theorem State.underX_eq (s : State) (gs : Operand) :
    s.underX gs =
      { (readSource gs s).2.addCycles 4 with xDepth := ((readSource gs s).2.addCycles 4).xDepth + 1 } := by
  have hxDepth : (readSource gs s).2.xDepth = s.xDepth := congrArg Rest.xDepth (readSource_rest s gs)
  rw [State.addCycles_xDepth, hxDepth]
  rfl

theorem State.underX_params (s : State) (gs : Operand) : (s.underX gs).params = s.params := readSource_params s gs

theorem State.underX_ready (h : s.Ready) (gs : Operand) : (s.underX gs).Ready := (keepsRest_readSource h gs).2

/-- An operand that is no mode 3 leaves the registers as they are. -/
theorem State.underX_reg_regAt (h : s.Ready) (r n : Reg) : (s.underX (.reg r)).regAt n = s.regAt n :=
  (readSource_regAt s (.reg r) n).trans (State.wordAt_of_mem (readSource_mem s h.2 (.reg r) h.1.1) _)

/-! ## The word it executes -/

theorem State.decodeFetched_illegal {w : Word} (h : findRow s.params.unusedBitsAlias w = none) :
    s.decodeFetched w = none := by
  rw [State.decodeFetched, h]

/-- The first word of an instruction without an immediate decodes to it, and nothing more is fetched. -/
theorem State.decodeFetched_firstWord (h : i.wellFormed = true) (himm : immediateWord i = none) (s : State) :
    s.decodeFetched (firstWord i) = some (i, s) := by
  obtain ⟨r, hr, hrow, hbuild⟩ := findRow_firstWord h s.params.unusedBitsAlias
  rw [himm] at hrow hbuild
  rw [State.decodeFetched_noImmediate hr hrow]
  exact congrArg (fun j => some (j, s)) hbuild

/-- One level of X: its target is executed in that state, or the illegal-instruction action is. -/
theorem execXWith_eq (execute : Instr → State → StepOutcome) (gs : Operand) (s : State) :
    execXWith execute gs s =
      leaveX (((s.underX gs).decodeFetched (readSource gs s).1).elim (.next (s.underX gs).illegalInstruction)
        fun target => execute target.1 target.2) := by
  rw [State.underX_eq]
  unfold execXWith
  dsimp only
  split
  case h_1 h => rw [h]; rfl
  case h_2 h => rw [h]; rfl

theorem execXWith_illegal {gs : Operand} (h : findRow s.params.unusedBitsAlias (readSource gs s).1 = none)
    (execute : Instr → State → StepOutcome) :
    execXWith execute gs s = leaveX (.next (s.underX gs).illegalInstruction) := by
  rw [← s.underX_params gs] at h
  rw [execXWith_eq, State.decodeFetched_illegal h, Option.elim_none]

theorem execXWith_decoded {gs : Operand} (h : (s.underX gs).decodeFetched (readSource gs s).1 = some (i, t))
    (execute : Instr → State → StepOutcome) : execXWith execute gs s = leaveX (execute i t) := by
  rw [execXWith_eq, h, Option.elim_some]

/-- The illegal-instruction action under an X costs 4 cycles more, and the depth is as before (R238, R300). -/
theorem leaveX_underX_illegalInstruction (s : State) (gs : Operand) :
    leaveX (.next (s.underX gs).illegalInstruction) =
      .next { (readSource gs s).2 with
        cycles := s.cycles + overhead .word gs + 14
        illegalCount := s.illegalCount + 1 } := by
  have hcount : (readSource gs s).2.illegalCount = s.illegalCount :=
    congrArg Rest.illegalCount (readSource_rest s gs)
  rw [State.underX_eq, ← readSource_cycles, ← hcount]
  rfl

theorem leaveX_next (h : t.xDepth = s.xDepth + 1) : leaveX (.next t) = .next { t with xDepth := s.xDepth } := by
  rw [leaveX, h, Nat.add_sub_cancel]

/-! ## The meaning of the target, at the depth X has reached -/

/-- What an X means matters to no other instruction. -/
theorem execWith_of_not_x (hi : isX i = false) (f g : Operand → State → StepOutcome) (s : State) :
    execWith f i s = execWith g i s := by
  cases i
  case x => cases hi
  all_goals rfl

theorem execDepth_of_not_x (hi : isX i = false) (fuel : Nat) (s : State) : execDepth fuel i s = exec i s := by
  rw [exec_eq_execWith]
  cases fuel <;> exact execWith_of_not_x hi _ _ s

/-- An instruction means what it means on its own as long as X_DEPTH_MAX leaves a level for it. -/
theorem execDepth_of_lt (h : s.xDepth < s.params.xDepthMax) (i : Instr) :
    execDepth (s.params.xDepthMax - s.xDepth) i s = exec i s := by
  cases hi : isX i with
  | false => exact execDepth_of_not_x hi _ s
  | true =>
    have hfuel : s.params.xDepthMax - s.xDepth = s.params.xDepthMax - 1 - s.xDepth + 1 := by omega
    rw [hfuel]
    cases i <;> cases hi
    rfl

/-- The target starts one level deeper than its X, under the same parameters. -/
theorem decodeFetched_underX {gs : Operand} {w : Word} (h : (s.underX gs).decodeFetched w = some (i, t)) :
    t.xDepth = s.xDepth + 1 ∧ t.params = s.params :=
  have hfixed := decodeFetched_fixed h
  ⟨hfixed.xDepth, hfixed.params.trans (s.underX_params gs)⟩

/-! ## The endless chain -/

/-- R1 holds the word of `X R1` in a state an instruction can start in, the RAM premise of R61 among it (R238). -/
def State.SelfChain (s : State) : Prop := s.Ready ∧ s.regAt 1#4 = firstWord (.x (.reg 1#4))

theorem State.SelfChain.underX (h : s.SelfChain) : (s.underX (.reg 1#4)).SelfChain := by
  obtain ⟨hready, hr1⟩ := h
  exact ⟨State.underX_ready hready _, (State.underX_reg_regAt hready _ _).trans hr1⟩

/-- The target of `X R1` is `X R1` again. -/
theorem State.SelfChain.decodeFetched (h : s.SelfChain) :
    (s.underX (.reg 1#4)).decodeFetched (readSource (.reg 1#4) s).1 =
      some (.x (.reg 1#4), s.underX (.reg 1#4)) := by
  obtain ⟨hready, hr1⟩ := h
  have hword : (readSource (.reg 1#4) s).1 = firstWord (.x (.reg 1#4)) := (readSource_value s hready.2 _).trans hr1
  rw [hword]
  exact State.decodeFetched_firstWord rfl rfl _

/-- However many levels are followed, the last one is refused. -/
theorem execDepth_selfChain (fuel : Nat) (h : s.SelfChain) :
    execDepth fuel (.x (.reg 1#4)) s = .refused .xChainTooDeep := by
  induction fuel generalizing s with
  | zero => rfl
  | succ fuel ih =>
    calc execDepth (fuel + 1) (.x (.reg 1#4)) s
      _ = leaveX (execDepth fuel (.x (.reg 1#4)) (s.underX (.reg 1#4))) := execXWith_decoded h.decodeFetched _
      _ = .refused .xChainTooDeep := by rw [ih h.underX]; rfl

end Sys2Proof.Machine

namespace Sys2Proof.Proofs.JumpBranchFamily

open Sys2Proof Sys2Proof.Machine

/-- Settles O35: one unfolding of X, whose target runs one level deeper and brings that level back. -/
theorem executeRunsItsOperand : Obligations.ExecuteRunsItsOperand := by
  unfold Obligations.ExecuteRunsItsOperand
  intro gs s _ w s1 s2
  refine ⟨rfl, fun hillegal => ?illegal, fun i s3 hdecoded hi => ?notX, fun i s3 hdecoded hdepth t ht => ?anyTarget⟩
  case illegal => exact (execXWith_illegal hillegal _).trans (leaveX_underX_illegalInstruction s gs)
  case notX =>
    obtain ⟨t, ht⟩ := execWith_completes execX hi s3
    rw [← exec_eq_execWith] at ht
    have hxDepth : t.xDepth = s.xDepth + 1 := (exec_effect ht).fixed.xDepth.trans (decodeFetched_underX hdecoded).1
    refine ⟨t, ht, hxDepth, ?_⟩
    calc exec (.x gs) s
      _ = leaveX (execDepth (s.params.xDepthMax - 1 - s.xDepth) i s3) := execXWith_decoded hdecoded _
      _ = leaveX (.next t) := by rw [execDepth_of_not_x hi, ht]
      _ = .next { t with xDepth := s.xDepth } := leaveX_next hxDepth
  case anyTarget =>
    obtain ⟨hlevel, hparams⟩ := decodeFetched_underX hdecoded
    have hxDepth : t.xDepth = s.xDepth + 1 := (exec_effect ht).fixed.xDepth.trans hlevel
    have hfuel : s.params.xDepthMax - 1 - s.xDepth = s3.params.xDepthMax - s3.xDepth := by
      rw [hlevel, hparams]
      omega
    calc exec (.x gs) s
      _ = leaveX (execDepth (s3.params.xDepthMax - s3.xDepth) i s3) := hfuel ▸ execXWith_decoded hdecoded _
      _ = leaveX (.next t) := by rw [execDepth_of_lt (by rwa [hlevel, hparams]), ht]
      _ = .next { t with xDepth := s.xDepth } := leaveX_next hxDepth

/-- Settles O36: `X R1` is the first level of a chain that never leaves `X R1`. -/
theorem endlessExecuteChainRefused : Obligations.EndlessExecuteChainRefused := by
  unfold Obligations.EndlessExecuteChainRefused
  intro s h hr1
  exact execDepth_selfChain (s.params.xDepthMax - 1 - s.xDepth + 1) ⟨h, hr1⟩

end Sys2Proof.Proofs.JumpBranchFamily
end

section
/-! SUPPORT. The CRU instructions (46_cru.md). -/

namespace Sys2Proof.Machine

/-! ## Addresses and bits as the statements write them (R250, R255, R256) -/

/-- The CRU base is bits 12 to 1 of R12. -/
theorem extractLsb'_one_eq_ofNat (v : Word) : v.extractLsb' 1 12 = BitVec.ofNat 12 (v.toNat / 2) := by
  rw [BitVec.extractLsb', Nat.shiftRight_eq_div_pow, pow_one]

theorem cruBitAddr_eq_ofInt (v : Word) (disp : BitVec 8) :
    cruBitAddr (v.extractLsb' 1 12) disp = BitVec.ofInt 12 ((v.toNat / 2 % 4096 : Nat) + disp.toInt) := by
  rw [BitVec.ofInt_add, BitVec.ofInt_natCast, extractLsb'_one_eq_ofNat, cruBitAddr]
  congr 1
  exact BitVec.eq_of_toNat_eq (by simp)

theorem add_ofNat_succ (base : CruAddr) (k : Nat) :
    base + BitVec.ofNat 12 (k + 1) = base + 1#12 + BitVec.ofNat 12 k := by
  rw [Nat.add_comm, BitVec.ofNat_add, BitVec.add_assoc]

/-- The first bit sent is the oldest call of the transfer. -/
theorem cruWrites_succ (base : CruAddr) (v : Word) (n : Nat) :
    cruWrites base v (n + 1) = cruWrites (base + 1#12) (v >>> 1) n ++ [.writeBit base (v.getLsbD 0)] := by
  have hbit : ∀ k, v.getLsbD (k + 1) = (v >>> 1).getLsbD k := fun k => by
    rw [BitVec.getLsbD_ushiftRight, Nat.add_comm]
  have htail : ∀ k, PortCall.writeBit (base + BitVec.ofNat 12 (k + 1)) (v.getLsbD (k + 1)) =
      .writeBit (base + 1#12 + BitVec.ofNat 12 k) ((v >>> 1).getLsbD k) := fun k => by
    rw [add_ofNat_succ, hbit]
  simp [cruWrites, List.range_succ_eq_map, Function.comp_def, htail]

/-- The first bit read is the oldest call of the transfer. -/
theorem cruReads_cons (base : CruAddr) (b : Bool) (bits : List Bool) :
    cruReads base (b :: bits) = cruReads (base + 1#12) bits ++ [.readBit base b] := by
  have htail : ∀ k, PortCall.readBit (base + BitVec.ofNat 12 (k + 1)) ((bits[k]?).getD false) =
      .readBit (base + 1#12 + BitVec.ofNat 12 k) ((bits[k]?).getD false) := fun k => by rw [add_ofNat_succ]
  simp [cruReads, List.range_succ_eq_map, Function.comp_def, htail]

/-- A bit below the bits of a word. -/
theorem getLsbD_bit_or_shiftLeft (b : Bool) (v : Word) {k : Nat} (hk : k < 16) :
    ((if b then 1#16 else 0#16) ||| v <<< 1).getLsbD k = if k = 0 then b else v.getLsbD (k - 1) := by
  cases k with
  | zero => cases b <;> simp
  | succ k =>
    have hbit : (if b then 1#16 else 0#16).getLsbD (k + 1) = false := by cases b <;> simp
    rw [BitVec.getLsbD_or, hbit, BitVec.getLsbD_shiftLeft]
    simp [hk]

theorem lowByte_eq_setWidth (v : Word) : lowByte v = v.setWidth 8 := BitVec.eq_of_toNat_eq (by simp [lowByte])

/-! ## The CRU Port -/

/-- A CRU read uses up one answer of the port and adds one call; nothing else changes. -/
theorem State.readBit_state (s : State) (a : CruAddr) :
    (s.readBit a).2 = { s with
      cruAnswers := (s.readBit a).2.cruAnswers
      freeIndex := (s.readBit a).2.freeIndex
      calls := .readBit a (s.readBit a).1 :: s.calls } := by
  unfold State.readBit
  split
  · rfl
  · rfl

/-- A queued answer is the bit read (log 8). -/
theorem State.readBit_queued {s : State} {first : Bool} {later : List Bool} (h : s.cruAnswers = first :: later)
    (a : CruAddr) :
    s.readBit a = (first, { s with cruAnswers := later, calls := .readBit a first :: s.calls }) := by
  rw [State.readBit, h]

/-- A transfer out makes the port calls of its bits and changes nothing else (R255). -/
theorem writeBits_eq (base : CruAddr) (v : Word) (n : Nat) (s : State) :
    writeBits base v n s = { s with calls := cruWrites base v n ++ s.calls } := by
  induction n generalizing base v s with
  | zero => rfl
  | succ n ih =>
    rw [writeBits, ih, cruWrites_succ, List.append_assoc]
    rfl

/-- What a transfer in reads from `s`: the bits answered, the word `v` they make and the state `t` they leave (R256). -/
structure BitsRead (base : CruAddr) (n : Nat) (s : State) (bits : List Bool) (v : Word) (t : State) : Prop where
  length : bits.length = n
  bit : ∀ k < 16, v.getLsbD k = (bits[k]?).getD false
  queued : ∀ first later, s.cruAnswers = first ++ later → first.length = n →
    bits = first ∧ t.cruAnswers = later ∧ t.freeIndex = s.freeIndex
  state : t = { s with
    cruAnswers := t.cruAnswers
    freeIndex := t.freeIndex
    calls := cruReads base bits ++ s.calls }

theorem BitsRead.nil (base : CruAddr) (s : State) : BitsRead base 0 s [] 0#16 s where
  length := rfl
  bit k _ := by simp
  queued first later hq hlen := by
    obtain rfl := List.length_eq_zero_iff.1 hlen
    exact ⟨rfl, hq, rfl⟩
  state := rfl

/-- One bit read, then the bits above it. -/
theorem BitsRead.cons {base : CruAddr} {n : Nat} {s t : State} {bits : List Bool} {v : Word}
    (h : BitsRead (base + 1#12) n (s.readBit base).2 bits v t) :
    BitsRead base (n + 1) s ((s.readBit base).1 :: bits)
      ((if (s.readBit base).1 then 1#16 else 0#16) ||| v <<< 1) t where
  length := congrArg (· + 1) h.length
  bit k hk := by
    rw [getLsbD_bit_or_shiftLeft _ _ hk]
    cases k with
    | zero => rfl
    | succ k => exact h.bit k (Nat.lt_of_succ_lt hk)
  queued first later hq hlen := by
    cases first with
    | nil => cases hlen
    | cons b rest =>
      have hread := State.readBit_queued hq base
      obtain ⟨hbits, hanswers, hfree⟩ := h.queued rest later (by rw [hread]; rfl) (Nat.succ.inj hlen)
      have hfirst : (s.readBit base).1 = b := congrArg Prod.fst hread
      rw [hread] at hfree
      exact ⟨congrArg₂ _ hfirst hbits, hanswers, hfree⟩
  state := by
    rw [cruReads_cons, List.append_assoc]
    refine h.state.trans ?_
    rw [s.readBit_state base]
    rfl

theorem readBits_bitsRead (base : CruAddr) (n : Nat) (s : State) :
    ∃ bits, BitsRead base n s bits (readBits base n s).1 (readBits base n s).2 := by
  induction n generalizing base s with
  | zero => exact ⟨[], .nil base s⟩
  | succ n ih =>
    obtain ⟨bits, hbits⟩ := ih (base + 1#12) (s.readBit base).2
    exact ⟨_, hbits.cons⟩

/-! ## The base of a transfer (R250) -/

variable {s u : State} {gs : Operand} {size : Size}

theorem cruBase_ram (h : s.RamPort) :
    cruBase s = (BitVec.ofNat 12 ((s.regAt 12#4).toNat / 2),
      { s with calls := .readWord (evenAddr (s.regAddr 12#4)) (s.regAt 12#4) :: s.calls }) := by
  rw [cruBase, s.readReg_ram h, extractLsb'_one_eq_ofNat]

/-! ## SBO, SBZ and TB (R252 to R254) -/

/-- All a single-bit output does. -/
theorem writeBit_afterBase {disp : BitVec 8} {a : CruAddr} (ha : cruBitAddr (cruBase s).1 disp = a) (v : Bool) :
    ((cruBase s).2.writeBit (cruBitAddr (cruBase s).1 disp) v).addCycles 12 =
      { s with
        cycles := s.cycles + 12
        readAnswers := s.readAnswers.drop 1
        calls := .writeBit a v ::
          .readWord (evenAddr (s.regAddr 12#4)) (s.answerAt (s.regAddr 12#4)) :: s.calls } := by
  rw [ha, List.drop_one]
  rfl

/-- All TB does: the bit's read on top of the read of R12, and EQ. -/
theorem exec_tb {disp : BitVec 8} {a : CruAddr} (ha : cruBitAddr (cruBase s).1 disp = a) :
    let b := (cruBase s).2.readBit a
    exec (.tb disp) s = .next { s with
      st := (s.st &&& ~~~flagEQ) ||| flagIf flagEQ b.1
      cycles := s.cycles + 12
      cruAnswers := b.2.cruAnswers
      freeIndex := b.2.freeIndex
      readAnswers := s.readAnswers.drop 1
      calls := .readBit a b.1 ::
        .readWord (evenAddr (s.regAddr 12#4)) (s.answerAt (s.regAddr 12#4)) :: s.calls } := by
  subst ha
  intro b
  rw [List.drop_one]
  exact congrArg (fun t : State => Host.Outcome.next ((t.setSt flagEQ (flagIf flagEQ b.1)).addCycles 12))
    ((cruBase s).2.readBit_state _)

/-- A flag cleared, and then set where a bit is 1, is that bit. -/
theorem setFlag_and_ne_zero_iff {mask : Word} (hmask : mask ≠ 0#16) (st : Word) (b : Bool) :
    ((st &&& ~~~mask) ||| flagIf mask b) &&& mask ≠ 0#16 ↔ b = true := by
  have hclear : st &&& ~~~mask &&& mask = 0#16 := by simp [BitVec.and_assoc]
  rw [or_and_word, hclear, BitVec.zero_or]
  cases b
  case false => simp [flagIf]
  case true => simpa [flagIf] using hmask

/-! ## LDCR (R255) -/

theorem readSource_answer (h : s.Ready) (gs : Operand) :
    Answer s (readSource gs s).2 (incremented s gs .word s.mem) (pcAfterOperand s gs) s.st (overhead .word gs) :=
  ⟨readSource_mem s h.2 gs h.1.1, readSource_pc s gs, readSource_st s gs, readSource_cycles s gs,
    keepsRest_readSource h gs, readSource_calls s gs⟩

theorem readSourceByte_answer (h : s.Ready) (gs : Operand) :
    Answer s (readSourceByte gs s).2 (incremented s gs .byte s.mem) (pcAfterOperand s gs) s.st (overhead .byte gs) :=
  ⟨readSourceByte_mem s h.2 gs h.1.1, readSourceByte_pc s gs, readSourceByte_st s gs, readSourceByte_cycles s gs,
    keepsRest_readSourceByte h gs, readSourceByte_calls s gs⟩

/-- The bits of `v` sent from the state `u` the operand left, then the flags and the cycles. -/
theorem sendBits_afterSource
    (hu : Answer s u (incremented s gs size s.mem) (pcAfterOperand s gs) s.st (overhead size gs))
    (v clear bits : Word) (n cycles : Nat) :
    let t := ((writeBits (cruBase u).1 v n (cruBase u).2).setSt clear bits).addCycles cycles
    OnlyIncremented s t gs size ∧
    t.calls = cruWrites (BitVec.ofNat 12 ((u.regAt 12#4).toNat / 2)) v n ++
      .readWord (evenAddr (s.regAddr 12#4)) (u.regAt 12#4) :: u.calls ∧
    t.st = statusAfter s clear bits ∧ t.pc = pcAfterOperand s gs ∧
    t.cycles = s.cycles + overhead size gs + cycles ∧ KeepsRest s t := by
  intro t
  have ht : t = { u with
      calls := cruWrites (BitVec.ofNat 12 ((u.regAt 12#4).toNat / 2)) v n ++
        .readWord (evenAddr (s.regAddr 12#4)) (u.regAt 12#4) :: u.calls
      st := statusAfter s clear bits
      cycles := s.cycles + overhead size gs + cycles } := by
    rw [← hu.cycles, statusAfter, ← hu.st, ← hu.keeps.regAddr_eq]
    simp only [t, cruBase_ram hu.keeps.2.2, writeBits_eq]
    rfl
  rw [ht]
  exact ⟨onlyIncremented_of_mem hu.mem, rfl, rfl, hu.pc, rfl, hu.keeps⟩

/-! ## STCR (R256) -/

theorem stcrCycles_of_le {n : Nat} (h : n ≤ 8) : stcrCycles n = if n ≤ 7 then 42 else 44 := by
  unfold stcrCycles
  split
  · rfl
  · rw [if_pos (by omega)]

theorem stcrCycles_of_gt {n : Nat} (h : 8 < n) : stcrCycles n = if n ≤ 15 then 58 else 60 := by
  rw [stcrCycles, if_neg (by omega), if_neg (by omega)]

/-- Where the port answers with its RAM, all a byte write does. -/
theorem State.writeByte_ram (h : s.RamPort) (a : Word) (b : Byte) :
    s.writeByte a b = { s with
      mem := s.mem.setWord a (mergeByte a b (s.wordAt a))
      calls := .writeWord (evenAddr a) (mergeByte a b (s.wordAt a)) ::
        .readWord (evenAddr a) (s.wordAt a) :: s.calls } := by
  simp only [State.writeByte, s.readWord_ram h]
  rfl

/-- The base and the port calls before STCR's first bit: the operand resolved, R12 read. -/
theorem cruBase_resolve (h : s.RamPort) (gs : Operand) (size : Size) :
    (cruBase (resolve .src gs size s).2).1 = BitVec.ofNat 12 ((s.regAt 12#4).toNat / 2) ∧
    (cruBase (resolve .src gs size s).2).2.calls =
      .readWord (evenAddr (s.regAddr 12#4)) (s.regAt 12#4) :: (resolveCalls s gs ++ s.calls) := by
  rw [cruBase_ram (resolve_readAnswers s h .src gs size), State.regAt, resolve_wordAt, resolve_regAddr,
    resolve_calls_eq h]
  exact ⟨rfl, rfl⟩

/-- The state `r` STCR stores from: the operand resolved, R12 read, and `n` bits read that make `v`. -/
structure Received (s : State) (gs : Operand) (size : Size) (n : Nat) (bits : List Bool) (v : Word) (r : State) :
    Prop where
  length : bits.length = n
  bit : ∀ k < 16, v.getLsbD k = (bits[k]?).getD false
  queued : ∀ first later, s.cruAnswers = first ++ later → first.length = n →
    bits = first ∧ r.cruAnswers = later ∧ r.freeIndex = s.freeIndex
  mem : r.mem = s.mem
  pc : r.pc = pcAfterOperand s gs
  st : r.st = s.st
  cycles : r.cycles = s.cycles + overhead size gs
  rest : r.rest = { s.rest with cruAnswers := r.cruAnswers, freeIndex := r.freeIndex }
  pendingSrc : r.pendingSrc = pendingOf s gs size none
  pendingDst : r.pendingDst = none
  ram : r.RamPort
  calls : r.calls = cruReads (BitVec.ofNat 12 ((s.regAt 12#4).toNat / 2)) bits ++
    .readWord (evenAddr (s.regAddr 12#4)) (s.regAt 12#4) :: (resolveCalls s gs ++ s.calls)

theorem receiveBits_received (h : s.Ready) (gs : Operand) (size : Size) (n : Nat) :
    ∃ bits, Received s gs size n bits (receiveBits gs size n s).1 (receiveBits gs size n s).2 := by
  obtain ⟨⟨hsrc, hdst⟩, hram⟩ := h
  obtain ⟨bits, hread⟩ :=
    readBits_bitsRead (cruBase (resolve .src gs size s).2).1 n (cruBase (resolve .src gs size s).2).2
  obtain ⟨hbase, hcalls⟩ := cruBase_resolve hram gs size
  obtain ⟨hpc, hst, hdst'⟩ := receiveBits_fields gs size n s
  have hrest := resolve_rest s .src gs size
  refine ⟨bits, hread.length, hread.bit, fun first later hq hlen => ?queued,
    (congrArg State.mem hread.state).trans (resolve_mem s .src gs size), hpc, hst,
    (congrArg State.cycles hread.state).trans (resolve_cycles s .src gs size), ?rest, ?pendingSrc, hdst'.trans hdst,
    (congrArg State.readAnswers hread.state).trans (tail_nil (resolve_readAnswers s hram .src gs size)), ?calls⟩
  case queued =>
    obtain ⟨hbits, hanswers, hfree⟩ := hread.queued first later ((congrArg Rest.cruAnswers hrest).trans hq) hlen
    exact ⟨hbits, hanswers, hfree.trans (congrArg Rest.freeIndex hrest)⟩
  case rest =>
    rw [← hrest]
    exact congrArg State.rest hread.state
  case pendingSrc =>
    have hpending := (congrArg State.pendingSrc hread.state).trans (resolve_src_pendingSrc s gs size)
    rwa [hsrc] at hpending
  case calls =>
    rw [← hcalls, ← hbase]
    exact congrArg State.calls hread.state

section Received

variable {r : State} {n : Nat} {answers : List Bool} {v : Word}

/-- The store of a word. -/
theorem Received.writeWord (hr : Received s gs size n answers v r) (a w : Word) :
    r.writeWord a w =
      { r with mem := s.mem.setWord a w, calls := [.writeWord (evenAddr a) w] ++ r.calls } := by
  rw [← hr.mem]
  rfl

/-- The store of a byte, merged into the word it reads (20_memory.md R55). -/
theorem Received.writeByte (hr : Received s gs size n answers v r) (a : Word) (b : Byte) :
    r.writeByte a b =
      { r with
        mem := s.mem.setWord a (mergeByte a b (s.wordAt a))
        calls := [.writeWord (evenAddr a) (mergeByte a b (s.wordAt a)), .readWord (evenAddr a) (s.wordAt a)] ++
          r.calls } := by
  rw [State.writeByte_ram hr.ram, State.wordAt_of_mem hr.mem, hr.mem]
  rfl

/-- The end of STCR, from the state `u` a store left: the increment, the flags and the cycles. -/
theorem Received.stored (hr : Received s gs size n answers v r) {m : Memory} {stores : List PortCall}
    (hu : u = { r with mem := m, calls := stores ++ r.calls })
    (clear bits : Word) (cycles : Nat) :
    let t := ((u.postInc .src).setSt clear bits).addCycles cycles
    (∀ first later, s.cruAnswers = first ++ later → first.length = n →
      answers = first ∧ t.cruAnswers = later ∧ t.freeIndex = s.freeIndex) ∧
    KeepsRest { s with cruAnswers := t.cruAnswers, freeIndex := t.freeIndex } t ∧
    t.pc = pcAfterOperand s gs ∧ t.mem = incremented s gs size m ∧
    t.calls = incrementCalls s t gs size ++ (stores ++ r.calls) ∧
    t.st = statusAfter s clear bits ∧ t.cycles = s.cycles + overhead size gs + cycles := by
  intro t
  have hrest : t.rest = r.rest := (u.postInc_rest .src).trans (by rw [hu]; rfl)
  have hcru : t.cruAnswers = r.cruAnswers := congrArg Rest.cruAnswers hrest
  have hfree : t.freeIndex = r.freeIndex := congrArg Rest.freeIndex hrest
  have hpending : u.pendingSrc = pendingOf s gs size none := (congrArg State.pendingSrc hu).trans hr.pendingSrc
  have hram : u.readAnswers = [] := (congrArg State.readAnswers hu).trans hr.ram
  have hdst : t.pendingDst = none :=
    u.postInc_src_pendingDst.trans ((congrArg State.pendingDst hu).trans hr.pendingDst)
  have hcalls : t.calls = incrementCalls s t gs size ++ u.calls := postInc_src_calls_eq hpending
  rw [hcru, hfree]
  refine ⟨hr.queued, ⟨hrest.trans hr.rest, ⟨u.postInc_src_pendingSrc, hdst⟩, u.postInc_readAnswers hram .src⟩,
    ?pc, ?mem, ?calls, ?st, ?cycles⟩
  case pc => simp [t, hu, hr.pc]
  case mem =>
    calc t.mem
      _ = u.mem.bump u.pendingSrc := u.postInc_src_mem hram
      _ = incremented s gs size m := by rw [hpending, bump_pendingOf, hu]
  case calls => rw [hcalls, hu]
  case st => simp [t, hu, hr.st, statusAfter]
  case cycles => simp [t, hu, hr.cycles]

end Received

end Sys2Proof.Machine

namespace Sys2Proof.Proofs.CruFamily

open Sys2Proof Sys2Proof.Machine

/-- Settles O42: one read of R12, one call on the bit's address; TB's read uses up inputs of the CRU port only. -/
theorem singleBitCru : Obligations.SingleBitCru := by
  unfold Obligations.SingleBitCru
  intro disp s r12 a baseRead
  have haddr : cruBitAddr (cruBase s).1 disp = a := cruBitAddr_eq_ofInt r12 disp
  refine ⟨rfl, rfl, rfl, ?sbo, ?sbz, _, _, exec_tb haddr, rfl, ?queued, setFlag_and_ne_zero_iff (by decide) _ _,
    State.setSt_outside (u := s) rfl (.self _) (.flagIf (.self _) _) 0, rfl, rfl, rfl, rfl, rfl, rfl, rfl, rfl, rfl, rfl,
    rfl, rfl, rfl, rfl, rfl, rfl⟩
  case sbo => exact congrArg Host.Outcome.next (writeBit_afterBase haddr true)
  case sbz => exact congrArg Host.Outcome.next (writeBit_afterBase haddr false)
  case queued =>
    intro first later hq
    have hread := State.readBit_queued (s := (cruBase s).2) hq a
    exact ⟨congrArg Prod.fst hread, congrArg (·.2.cruAnswers) hread⟩

/-- Settles O43: the bits are sent, and the flags set, in the state the operand's increment left. -/
theorem loadCommunicationRegister : Obligations.LoadCommunicationRegister := by
  unfold Obligations.LoadCommunicationRegister
  intro gs count s h n
  refine ⟨rfl, fun hn => ?byte, fun hn => ?word⟩
  case byte =>
    exact ⟨_, execLdcr_byte hn gs s, sendBits_afterSource (readSourceByte_answer h gs) _ _ _ n _⟩
  case word =>
    exact ⟨_, execLdcr_word (Nat.not_le.2 hn) gs s, sendBits_afterSource (readSource_answer h gs) _ _ _ n _⟩

/-- Settles O44: the store and the increment come on top of the bits received. -/
theorem storeCommunicationRegister : Obligations.StoreCommunicationRegister := by
  unfold Obligations.StoreCommunicationRegister
  intro gs count s h n base
  by_cases hn : n ≤ 8
  case pos =>
    obtain ⟨bits, hr⟩ := receiveBits_received h gs .byte n
    obtain ⟨hqueued, hkeeps, hpc, hmem, hcalls, hst, hcycles⟩ := hr.stored (hr.writeByte _ _) _ _ _
    rw [hr.calls] at hcalls
    refine ⟨rfl, _, _, bits, execStcr_byte hn gs s, hr.length, hr.bit, hqueued, hkeeps, hpc, fun _ => ?_,
      fun hgt => absurd hn (Nat.not_le.2 hgt)⟩
    rw [← stcrCycles_of_le hn, ← lowByte_eq_setWidth]
    exact ⟨byteStoredThenIncremented_of_mem hmem, unchangedOutside_of_mem hmem, hcalls, hst, hcycles⟩
  case neg =>
    obtain ⟨bits, hr⟩ := receiveBits_received h gs .word n
    obtain ⟨hqueued, hkeeps, hpc, hmem, hcalls, hst, hcycles⟩ := hr.stored (hr.writeWord _ _) _ _ _
    rw [hr.calls] at hcalls
    refine ⟨rfl, _, _, bits, execStcr_word hn gs s, hr.length, hr.bit, hqueued, hkeeps, hpc, (absurd · hn),
      fun hgt => ?_⟩
    rw [← stcrCycles_of_gt hgt]
    exact ⟨storedThenIncremented_of_mem hmem, unchangedOutside_of_mem hmem, hcalls, hst, hcycles⟩

end Sys2Proof.Proofs.CruFamily
end

section
/-! SUPPORT. Multiply and divide (47_muldiv.md), format IX. -/

namespace Sys2Proof.Machine

/-! ## Arithmetic on two words: the exact product, quotient and remainder (R265, R266) -/

/-- A product of two words fills two words. -/
theorem mul_words_toNat (v w : Word) :
    (BitVec.ofNat 16 (v.toNat * w.toNat / 0x10000)).toNat * 65536 + (BitVec.ofNat 16 (v.toNat * w.toNat)).toNat =
      v.toNat * w.toNat := by
  have hlt : v.toNat * w.toNat < 65536 * 65536 := Nat.mul_lt_mul'' v.isLt w.isLt
  simp only [BitVec.toNat_ofNat]
  omega

/-- The quotient fits in a word exactly because the divisor is above the high word. -/
theorem quotient_toNat {high divisor : Word} (h : high.toNat < divisor.toNat) (low : Word) :
    (BitVec.ofNat 16 ((high.toNat * 65536 + low.toNat) / divisor.toNat)).toNat =
      (high.toNat * 65536 + low.toNat) / divisor.toNat := by
  have hlt : high.toNat * 65536 + low.toNat < divisor.toNat * 2 ^ 16 := by omega
  rw [BitVec.toNat_ofNat, Nat.mod_eq_of_lt (Nat.div_lt_of_lt_mul hlt)]

theorem remainder_toNat {divisor : Word} (h : 0 < divisor.toNat) (n : Nat) :
    (BitVec.ofNat 16 (n % divisor.toNat)).toNat = n % divisor.toNat := by
  rw [BitVec.toNat_ofNat, Nat.mod_eq_of_lt ((Nat.mod_lt n h).trans divisor.isLt)]

/-- Setting a flag that is cleared first is setting it. -/
theorem and_not_or_self (st mask : Word) : (st &&& ~~~mask) ||| mask = st ||| mask := by
  ext k hk
  simp only [BitVec.getElem_or, BitVec.getElem_and, BitVec.getElem_not]
  cases mask[k] <;> simp

/-! ## The pair of words (R264)

`s1` is the state the source's increment left, and `a` the address of the pair. -/

section Pair

variable {s s1 : State} {gs : Operand} {d : Reg} {a : Word}

/-- The two words of a pair never overlap, at the top of memory or at an odd address either. -/
theorem evenAddr_add_two_ne (a : Word) : evenAddr (a + 2#16) ≠ evenAddr a := by
  rw [Ne, evenAddr_eq_iff, BitVec.toNat_add, BitVec.toNat_ofNat]
  omega

/-- What an instruction that stores a pair leaves: after its `reads` the high word, then the low one; then ST and
the cycles. -/
def State.storePair (s : State) (reads : List PortCall) (a high low st : Word) (cycles : Nat) : State :=
  { s with
    mem := (s.mem.setWord a high).setWord (a + 2#16) low
    calls := .writeWord (evenAddr (a + 2#16)) low :: .writeWord (evenAddr a) high :: (reads ++ s.calls)
    st := st
    cycles := s.cycles + cycles }

section StorePair

variable (reads : List PortCall) (a high low st : Word) (cycles : Nat)

theorem State.storePair_mem (s : State) :
    (s.storePair reads a high low st cycles).mem = ((s.writeWord a high).writeWord (a + 2#16) low).mem := rfl

theorem State.wordAt_storePair_high (s : State) : (s.storePair reads a high low st cycles).wordAt a = high := by
  rw [State.wordAt_of_mem (s.storePair_mem reads a high low st cycles), State.wordAt_writeWord,
    if_neg (evenAddr_add_two_ne a).symm, State.wordAt_writeWord_self]

theorem State.wordAt_storePair_low (s : State) :
    (s.storePair reads a high low st cycles).wordAt (a + 2#16) = low := by
  rw [State.wordAt_of_mem (s.storePair_mem reads a high low st cycles), State.wordAt_writeWord_self]

theorem State.storePair_unchangedOutside (s : State) :
    UnchangedOutside s (s.storePair reads a high low st cycles) [a, a + 2#16] :=
  ((s.writeWord_unchangedOutside a high).trans (State.writeWord_unchangedOutside _ (a + 2#16) low)).of_mem
    (s.storePair_mem reads a high low st cycles)

/-- Everything but the two words stored, in the terms of the statements. -/
theorem storePair_afterSource (h : s.Ready) (hs1 : (readSource gs s).2 = s1) :
    let t := s1.storePair reads a high low st cycles
    UnchangedOutside s1 t [a, a + 2#16] ∧ UnchangedOutside s t (a :: (a + 2#16) :: incWords s gs) ∧
    t.calls = .writeWord (evenAddr (a + 2#16)) (t.wordAt (a + 2#16)) ::
      .writeWord (evenAddr a) (t.wordAt a) :: (reads ++ s1.calls) ∧
    t.st = st ∧ t.pc = pcAfterOperand s gs ∧ t.cycles = s.cycles + overhead .word gs + cycles ∧ KeepsRest s t := by
  intro t
  have hans := readSource_answer h gs
  have hsource := readSource_unchangedOutside h gs
  rw [hs1] at hans hsource
  have hdest := s1.storePair_unchangedOutside reads a high low st cycles
  refine ⟨hdest, (hsource.trans hdest).mono List.perm_append_comm.subset, ?_, rfl, hans.pc,
    congrArg (· + cycles) hans.cycles, hans.keeps⟩
  rw [State.wordAt_storePair_high, State.wordAt_storePair_low]
  rfl

end StorePair

/-! ## What the two instructions answer, the port answering with its RAM -/

/-- The source leaves the registers in their places, ST as it was and no hook waiting. -/
theorem afterSource_fields (h : s.Ready) (hs1 : (readSource gs s).2 = s1) (ha : s.regAddr d = a) :
    s1.regAddr d = a ∧ s1.st = s.st ∧ s1.readAnswers = [] := by
  subst hs1 ha
  exact ⟨readSource_regAddr s gs d, readSource_st s gs, readSource_readAnswers s h.2 gs⟩

theorem exec_mpy (h : s.Ready) (hs1 : (readSource gs s).2 = s1) (ha : s.regAddr d = a) :
    exec (.mpy gs d) s = .next
      (s1.storePair [.readWord (evenAddr a) (s1.wordAt a)] a
        (BitVec.ofNat 16 ((s1.wordAt a).toNat * (readSource gs s).1.toNat / 65536))
        (BitVec.ofNat 16 ((s1.wordAt a).toNat * (readSource gs s).1.toNat)) s.st 52) := by
  obtain ⟨rfl, hst, hram⟩ := afterSource_fields h hs1 ha
  change execMpy gs d s = _
  rw [execMpy, hs1, s1.readReg_ram hram, ← hst]
  rfl

/-- The low word is read too. -/
theorem exec_div_performed (h : s.Ready) (hs1 : (readSource gs s).2 = s1) (ha : s.regAddr d = a)
    (hlt : (s1.wordAt a).toNat < (readSource gs s).1.toNat) :
    exec (.div gs d) s = .next
      (s1.storePair [.readWord (evenAddr (a + 2#16)) (s1.wordAt (a + 2#16)), .readWord (evenAddr a) (s1.wordAt a)] a
        (BitVec.ofNat 16
          (((s1.wordAt a).toNat * 65536 + (s1.wordAt (a + 2#16)).toNat) / (readSource gs s).1.toNat))
        (BitVec.ofNat 16
          (((s1.wordAt a).toNat * 65536 + (s1.wordAt (a + 2#16)).toNat) % (readSource gs s).1.toNat))
        (s.st &&& ~~~flagOV) 92) := by
  obtain ⟨rfl, hst, hram⟩ := afterSource_fields h hs1 ha
  change execDiv gs d s = _
  rw [execDiv, hs1, s1.readReg_ram hram, ← hst, ← BitVec.or_zero (x := _ &&& ~~~flagOV)]
  dsimp only
  rw [if_pos (show (s1.regAt d).toNat < _ from hlt), State.readWord_ram]
  · rfl
  · exact hram

/-- The high word is read and OV set. -/
theorem exec_div_notPerformed (h : s.Ready) (hs1 : (readSource gs s).2 = s1) (ha : s.regAddr d = a)
    (hle : (readSource gs s).1.toNat ≤ (s1.wordAt a).toNat) :
    exec (.div gs d) s = .next
      { s1 with
        calls := .readWord (evenAddr a) (s1.wordAt a) :: s1.calls
        st := s.st ||| flagOV
        cycles := s1.cycles + 16 } := by
  obtain ⟨rfl, hst, hram⟩ := afterSource_fields h hs1 ha
  change execDiv gs d s = _
  rw [execDiv, hs1, s1.readReg_ram hram, ← hst, ← and_not_or_self]
  dsimp only
  rw [if_neg (Nat.not_lt.2 (show _ ≤ (s1.regAt d).toNat from hle))]
  rfl

end Pair

end Sys2Proof.Machine

namespace Sys2Proof.Proofs.MulDivFamily

open Sys2Proof Sys2Proof.Machine

/-- Settles O45: the exact product, in the two words stored on top of the source's increment. -/
theorem multiply : Obligations.Multiply := by
  unfold Obligations.Multiply
  intro gs d s h sv s1 a dv
  have hexec := exec_mpy (s1 := s1) (a := a) h rfl rfl
  refine ⟨rfl, _, hexec, ?_, storePair_afterSource _ _ _ _ _ _ h rfl⟩
  rw [State.wordAt_storePair_high, State.wordAt_storePair_low, mul_words_toNat, Nat.mul_comm]

/-- Settles O46: quotient and remainder fit exactly because the divisor is above the high word; otherwise only
the source's increment and OV change. -/
theorem divide : Obligations.Divide := by
  unfold Obligations.Divide
  intro gs d s h sv s1 a hi lo n
  refine ⟨rfl, fun hlt => ?performed, fun hle => ?notPerformed⟩
  case performed =>
    have hexec := exec_div_performed (s1 := s1) (a := a) h rfl rfl hlt
    refine ⟨_, hexec, ?_, ?_, storePair_afterSource _ _ _ _ _ _ h rfl⟩
    · rw [State.wordAt_storePair_high, quotient_toNat hlt]
    · rw [State.wordAt_storePair_low, remainder_toNat (Nat.zero_lt_of_lt hlt)]
  case notPerformed =>
    have hexec := exec_div_notPerformed (s1 := s1) (a := a) h rfl rfl hle
    have hans := readSource_answer h gs
    exact ⟨_, hexec, fun _ _ => rfl, onlyIncremented_of_mem hans.mem, rfl, rfl, hans.pc,
      congrArg (· + 16) hans.cycles, hans.keeps⟩

end Sys2Proof.Proofs.MulDivFamily
end

section
/-! SUPPORT. Context switches and the return from one (48_context_control.md R270, R276), in the terms of the
statements. -/

namespace Sys2Proof.Machine

variable {s t : State}

/-! ## The words a context switch stores to (R270) -/

/-- Two even displacements from one address reach two words, at an odd address and around the top of memory too. -/
theorem evenAddr_add_ne {i j : Word} (hi : i.toNat % 2 = 0) (hj : j.toNat % 2 = 0) (hij : i.toNat ≠ j.toNat)
    (a : Word) : evenAddr (a + i) ≠ evenAddr (a + j) := by
  have hilt := i.isLt
  have hjlt := j.isLt
  rw [Ne, evenAddr_eq_iff, BitVec.toNat_add, BitVec.toNat_add]
  omega

/-- R13, R14 and R15 of a workspace are three words. -/
theorem savedSlots_apart (w : Word) :
    evenAddr (w + 28#16) ≠ evenAddr (w + 26#16) ∧ evenAddr (w + 30#16) ≠ evenAddr (w + 26#16) ∧
    evenAddr (w + 30#16) ≠ evenAddr (w + 28#16) :=
  ⟨evenAddr_add_ne rfl rfl (by decide) w, evenAddr_add_ne rfl rfl (by decide) w,
    evenAddr_add_ne rfl rfl (by decide) w⟩

theorem savedWord_oldWp (s : State) (w pc : Word) (x : Option Word) : savedWord s w pc x (w + 26#16) = s.wp :=
  if_pos rfl

theorem savedWord_oldPc (s : State) (w pc : Word) (x : Option Word) : savedWord s w pc x (w + 28#16) = pc := by
  obtain ⟨h, -, -⟩ := savedSlots_apart w
  rw [savedWord, if_neg h, if_pos rfl]

theorem savedWord_oldSt (s : State) (w pc : Word) (x : Option Word) : savedWord s w pc x (w + 30#16) = s.st := by
  obtain ⟨-, h26, h28⟩ := savedSlots_apart w
  rw [savedWord, if_neg h26, if_neg h28, if_pos rfl]

/-- Every other word is as before. -/
theorem savedWord_other {w pc a : Word} {x : Option Word} (h : ∀ b ∈ savedWords w x, evenAddr a ≠ evenAddr b) :
    savedWord s w pc x a = s.wordAt a := by
  rw [savedWord, if_neg (h _ (by simp [savedWords])), if_neg (h _ (by simp [savedWords])),
    if_neg (h _ (by simp [savedWords]))]
  cases x
  case none => exact ite_self _
  case some ea => exact if_neg (h _ (by simp [savedWords]))

/-- What is saved depends on memory, WP and ST only. -/
theorem savedWord_congr (hmem : t.mem = s.mem) (hwp : t.wp = s.wp) (hst : t.st = s.st) (w pc : Word)
    (x : Option Word) : savedWord t w pc x = savedWord s w pc x := by
  funext a
  rw [savedWord, hwp, hst, State.wordAt_of_mem hmem]
  rfl

/-- A frame can be read off the words. -/
theorem UnchangedOutside.of_words {words : List Word}
    (h : ∀ a, (∀ w ∈ words, evenAddr a ≠ evenAddr w) → t.wordAt a = s.wordAt a) : UnchangedOutside s t words :=
  fun a ha => by rw [← State.selectByte_wordAt, h a ha, State.selectByte_wordAt]

/-! ## The switch, where the port answers with its RAM -/

theorem State.contextSwitch_wordAt (h : s.RamPort) (va : Word) (x : Option Word) (a : Word) :
    (s.contextSwitch va x).wordAt a = savedWord s (s.wordAt va) s.pc x a := by
  obtain ⟨h28, h30, h30'⟩ := savedSlots_apart (s.wordAt va)
  have hold : (x.elim s.mem fun ea => s.mem.setWord (s.wordAt va + 22#16) ea).wordAt a =
      if evenAddr a = evenAddr (s.wordAt va + 22#16) then x.getD (s.wordAt a) else s.wordAt a := by
    cases x
    case none => exact (ite_self _).symm
    case some ea => exact s.mem.wordAt_setWord _ a ea
  rw [State.wordAt, s.contextSwitch_mem h, Memory.wordAt_setWord, Memory.wordAt_setWord, Memory.wordAt_setWord, hold,
    savedWord]
  by_cases hwp : evenAddr a = evenAddr (s.wordAt va + 26#16)
  · rw [hwp, if_neg h30.symm, if_neg h28.symm, if_pos rfl, if_pos rfl]
  · rw [if_neg hwp, if_neg hwp]
    by_cases hst : evenAddr a = evenAddr (s.wordAt va + 30#16)
    · rw [hst, if_pos rfl, if_neg h30', if_pos rfl]
    · rw [if_neg hst, if_neg hst]

/-- The new PC is the vector's second word as the three stores left it. -/
theorem State.contextSwitch_pc_savedWord (h : s.RamPort) (va : Word) (x : Option Word) :
    (s.contextSwitch va x).pc =
      remapPc s.params (evenAddr (savedWord s (s.wordAt va) s.pc x (va + 2#16))) := by
  rw [s.contextSwitch_pc h, State.contextSwitch_wordAt h]

theorem State.contextSwitch_unchangedOutside (h : s.RamPort) (va : Word) (x : Option Word) :
    UnchangedOutside s (s.contextSwitch va x) (savedWords (s.wordAt va) x) :=
  .of_words fun a ha => (State.contextSwitch_wordAt h va x a).trans (savedWord_other ha)

theorem State.contextSwitch_calls_eq (h : s.RamPort) (va : Word) (x : Option Word) :
    (s.contextSwitch va x).calls = switchCalls s va (s.wordAt va) s.pc x ++ s.calls := by
  rw [switchCalls, ← State.contextSwitch_wordAt h, State.wordAt, s.contextSwitch_mem h]
  cases x <;>
    simp [State.contextSwitch, State.passOperand, State.answerAt, State.wordAt, h]

/-! ## BLWP: the switch from the state its operand left, the increment on top of it (R275) -/

theorem switchCalls_congr (hmem : t.mem = s.mem) (hwp : t.wp = s.wp) (hst : t.st = s.st) (va w pc : Word)
    (x : Option Word) : switchCalls t va w pc x = switchCalls s va w pc x := by
  rw [switchCalls, savedWord_congr hmem hwp hst, hwp, hst]
  rfl

/-- The switch of BLWP, told from the state before its operand was resolved. -/
theorem switch_afterResolve (h : s.RamPort) (gs : Operand) (va : Word) :
    let c := (resolve .src gs .word s).2.contextSwitch va none
    c.wp = s.wordAt va ∧
    c.pc = remapPc s.params (evenAddr (savedWord s (s.wordAt va) (pcAfterOperand s gs) none (va + 2#16))) ∧
    (∀ a, c.wordAt a = savedWord s (s.wordAt va) (pcAfterOperand s gs) none a) ∧
    c.calls = switchCalls s va (s.wordAt va) (pcAfterOperand s gs) none ++ (resolveCalls s gs ++ s.calls) := by
  intro c
  have hram : (resolve .src gs .word s).2.RamPort := resolve_readAnswers s h .src gs .word
  have hmem := resolve_mem s .src gs .word
  have hwp := resolve_wp s .src gs .word
  have hst := resolve_st s .src gs .word
  have hword : (resolve .src gs .word s).2.wordAt va = s.wordAt va := resolve_wordAt s .src gs .word va
  rw [← savedWord_congr hmem hwp hst, ← switchCalls_congr hmem hwp hst, ← hword, ← resolve_pc s .src gs .word,
    ← resolve_params s .src gs .word, ← resolve_calls_eq h .src gs .word]
  refine ⟨?_, State.contextSwitch_pc_savedWord hram va none, State.contextSwitch_wordAt hram va none,
    State.contextSwitch_calls_eq hram va none⟩
  rw [State.contextSwitch_wp, State.answerAt_ram hram]

/-- The state BLWP leaves. -/
def State.afterBlwp (s : State) (gs : Operand) : State :=
  (((resolve .src gs .word s).2.contextSwitch (resolve .src gs .word s).1 none).postInc .src).addCycles 26

theorem exec_blwp (gs : Operand) (s : State) : exec (.blwp gs) s = .next (s.afterBlwp gs) := rfl

theorem State.afterBlwp_mem (h : s.Ready) (gs : Operand) :
    (s.afterBlwp gs).mem = incremented s gs .word
      ((resolve .src gs .word s).2.contextSwitch (resolve .src gs .word s).1 none).mem := by
  have hram : s.readAnswers = [] := h.2
  have hsrc : s.pendingSrc = none := h.1.1
  simp [State.afterBlwp, hram, hsrc]

theorem State.afterBlwp_pc (h : s.Ready) (gs : Operand) :
    (s.afterBlwp gs).pc = remapPc s.params (evenAddr (savedWord s (s.wordAt (resolve .src gs .word s).1)
      (pcAfterOperand s gs) none ((resolve .src gs .word s).1 + 2#16))) := by
  obtain ⟨-, hpc, -⟩ := switch_afterResolve h.2 gs (resolve .src gs .word s).1
  exact (State.postInc_pc _ .src).trans hpc

theorem State.afterBlwp_wordAt_other (h : s.Ready) {gs : Operand} {a : Word}
    (ha : ∀ p ∈ incWords s gs, evenAddr a ≠ evenAddr p) :
    (s.afterBlwp gs).wordAt a =
      savedWord s (s.wordAt (resolve .src gs .word s).1) (pcAfterOperand s gs) none a := by
  obtain ⟨-, -, hwords, -⟩ := switch_afterResolve h.2 gs (resolve .src gs .word s).1
  rw [State.wordAt, State.afterBlwp_mem h, wordAt_incremented_other _ _ _ (fun p hp => (ha p hp).symm), ← hwords]
  rfl

theorem State.afterBlwp_wordAt_incremented (h : s.Ready) {gs : Operand} {p : Word} (hp : p ∈ incWords s gs) :
    (s.afterBlwp gs).wordAt p =
      savedWord s (s.wordAt (resolve .src gs .word s).1) (pcAfterOperand s gs) none p + 2#16 := by
  obtain ⟨-, -, hwords, -⟩ := switch_afterResolve h.2 gs (resolve .src gs .word s).1
  rw [State.wordAt, State.afterBlwp_mem h, wordAt_incremented_self _ _ _ hp, ← hwords]
  rfl

theorem State.afterBlwp_unchangedOutside (h : s.Ready) (gs : Operand) :
    UnchangedOutside s (s.afterBlwp gs)
      (savedWords (s.wordAt (resolve .src gs .word s).1) none ++ incWords s gs) := by
  refine .of_words fun a ha => ?_
  rw [State.afterBlwp_wordAt_other h fun p hp => ha p (List.mem_append_right _ hp)]
  exact savedWord_other fun b hb => ha b (List.mem_append_left _ hb)

theorem State.afterBlwp_calls (h : s.Ready) (gs : Operand) :
    (s.afterBlwp gs).calls = incrementCalls s (s.afterBlwp gs) gs .word ++
      switchCalls s (resolve .src gs .word s).1 (s.wordAt (resolve .src gs .word s).1) (pcAfterOperand s gs) none ++
      (resolveCalls s gs ++ s.calls) := by
  obtain ⟨-, -, -, hcalls⟩ := switch_afterResolve h.2 gs (resolve .src gs .word s).1
  rw [List.append_assoc, ← hcalls]
  exact postInc_src_calls_eq (by simp [h.1.1])

theorem State.afterBlwp_keepsRest (h : s.Ready) (gs : Operand) :
    KeepsRest { s with wp := s.wordAt (resolve .src gs .word s).1 } (s.afterBlwp gs) := by
  have hram : (resolve .src gs .word s).2.readAnswers = [] := resolve_readAnswers s h.2 .src gs .word
  refine ⟨?_, ⟨State.postInc_src_pendingSrc _, ?_⟩, ?_⟩
  · rw [State.afterBlwp, State.addCycles_rest, State.postInc_rest, State.contextSwitch_rest, resolve_rest,
      State.answerAt_ram hram, resolve_wordAt]
    rfl
  · simp [State.afterBlwp, h.1.2]
  · exact State.postInc_readAnswers _ (by simp [hram]) .src

/-! ## XOP: the switch from the state its operand's increment left (R277) -/

/-- The vector of XOP n (20_memory.md R62). -/
theorem xopVector_eq_ofNat (n : BitVec 4) : xopVector n = BitVec.ofNat 16 (0x0040 + 4 * n.toNat) := by
  revert n; decide

/-- The state XOP leaves. -/
def State.afterXop (s : State) (gs : Operand) (n : BitVec 4) : State :=
  (((branchTarget gs s).2.contextSwitch (xopVector n) (some (resolve .src gs .word s).1)).setSt flagX flagX).addCycles
    36

theorem exec_xop (gs : Operand) (n : BitVec 4) (s : State) : exec (.xop gs n) s = .next (s.afterXop gs n) := rfl

/-- XOP's switch saves the ST it found: X is set after it. -/
theorem State.afterXop_wordAt (h : s.Ready) (gs : Operand) (n : BitVec 4) (a : Word) :
    (s.afterXop gs n).wordAt a =
      savedWord (branchTarget gs s).2 ((branchTarget gs s).2.wordAt (xopVector n)) (pcAfterOperand s gs)
        (some (resolve .src gs .word s).1) a := by
  rw [← branchTarget_pc]
  exact State.contextSwitch_wordAt (branchTarget_readAnswers s h.2 gs) _ _ a

theorem State.afterXop_wp (h : s.Ready) (gs : Operand) (n : BitVec 4) :
    (s.afterXop gs n).wp = (branchTarget gs s).2.wordAt (xopVector n) :=
  (State.contextSwitch_wp _ _ (some (branchTarget gs s).1)).trans
    (State.answerAt_ram (branchTarget_readAnswers s h.2 gs) _)

theorem State.afterXop_pc (h : s.Ready) (gs : Operand) (n : BitVec 4) :
    (s.afterXop gs n).pc = remapPc s.params (evenAddr (savedWord (branchTarget gs s).2
      ((branchTarget gs s).2.wordAt (xopVector n)) (pcAfterOperand s gs) (some (resolve .src gs .word s).1)
      (xopVector n + 2#16))) := by
  rw [← branchTarget_pc, ← branchTarget_params s gs]
  exact State.contextSwitch_pc_savedWord (branchTarget_readAnswers s h.2 gs) _ _

theorem State.afterXop_st (s : State) (gs : Operand) (n : BitVec 4) : (s.afterXop gs n).st = s.st ||| flagX := by
  rw [← and_not_or_self]
  simp [State.afterXop]

theorem State.afterXop_cycles (s : State) (gs : Operand) (n : BitVec 4) :
    (s.afterXop gs n).cycles = s.cycles + overhead .word gs + 36 := by simp [State.afterXop]

theorem State.afterXop_unchangedOutside (h : s.Ready) (gs : Operand) (n : BitVec 4) :
    UnchangedOutside s (s.afterXop gs n)
      (savedWords ((branchTarget gs s).2.wordAt (xopVector n)) (some (resolve .src gs .word s).1) ++
        incWords s gs) := by
  have hinc := (branchTarget_onlyIncremented h gs).1
  have hswitch := State.contextSwitch_unchangedOutside (branchTarget_readAnswers s h.2 gs) (xopVector n)
    (some (resolve .src gs .word s).1)
  exact (hinc.trans hswitch).mono List.perm_append_comm.subset

theorem State.afterXop_calls (h : s.Ready) (gs : Operand) (n : BitVec 4) :
    (s.afterXop gs n).calls = switchCalls (branchTarget gs s).2 (xopVector n)
      ((branchTarget gs s).2.wordAt (xopVector n)) (pcAfterOperand s gs) (some (resolve .src gs .word s).1) ++
      (branchTarget gs s).2.calls := by
  rw [← branchTarget_pc]
  exact State.contextSwitch_calls_eq (branchTarget_readAnswers s h.2 gs) _ _

theorem State.afterXop_keepsRest (h : s.Ready) (gs : Operand) (n : BitVec 4) :
    KeepsRest { s with wp := (branchTarget gs s).2.wordAt (xopVector n) } (s.afterXop gs n) := by
  have hram : (branchTarget gs s).2.readAnswers = [] := branchTarget_readAnswers s h.2 gs
  refine ⟨?_, ⟨?_, ?_⟩, ?_⟩
  · rw [State.afterXop, State.addCycles_rest, State.setSt_rest, State.contextSwitch_rest, branchTarget_rest,
      State.answerAt_ram hram]
    rfl
  · simp [State.afterXop]
  · simp [State.afterXop, h.1.2]
  · simp [State.afterXop, State.RamPort, hram]

/-! ## The return (R272, R276) -/

/-- The return of the machine reads R15, R14 and R13, whatever the port answers. -/
theorem exec_rtwp (s : State) :
    exec .rtwp s = .next { s with
      wp := ((s.readReg 15#4).2.readReg 14#4).2.answerAt (s.regAddr 13#4)
      pc := remapPc s.params (evenAddr ((s.readReg 15#4).2.answerAt (s.regAddr 14#4)))
      st := s.answerAt (s.regAddr 15#4)
      cycles := s.cycles + 14
      readAnswers := s.readAnswers.drop 3
      calls :=
        .readWord (evenAddr (s.regAddr 13#4)) (((s.readReg 15#4).2.readReg 14#4).2.answerAt (s.regAddr 13#4)) ::
        .readWord (evenAddr (s.regAddr 14#4)) ((s.readReg 15#4).2.answerAt (s.regAddr 14#4)) ::
        .readWord (evenAddr (s.regAddr 15#4)) (s.answerAt (s.regAddr 15#4)) :: s.calls } := by
  have hdrop : s.readAnswers.drop 3 = s.readAnswers.tail.tail.tail := by
    rw [← List.drop_one, ← List.drop_one, ← List.drop_one, List.drop_drop, List.drop_drop]
  rw [hdrop]
  rfl

/-- A workspace that holds WP, a PC and ST of `s` in R13, R14 and R15 returns to them, where PcRemap leaves that
PC alone. -/
theorem exec_rtwp_restores {ret : Word} (hram : t.RamPort) (hparams : t.params = s.params)
    (hwp : t.wordAt (t.wp + 26#16) = s.wp) (hpc : t.wordAt (t.wp + 28#16) = ret)
    (hst : t.wordAt (t.wp + 30#16) = s.st) (hret : remapPc s.params (evenAddr ret) = ret) :
    ∃ u, exec .rtwp t = .next u ∧ u.wp = s.wp ∧ u.st = s.st ∧ u.pc = ret := by
  have hreturn := t.contextReturn_spec hram
  refine ⟨_, rfl, ?_, ?_, ?_⟩
  · rw [State.addCycles_wp, hreturn]
    exact hwp
  · rw [State.addCycles_st, hreturn]
    exact hst
  · rw [State.addCycles_pc, hreturn, ← hret, ← hpc, ← hparams]
    rfl

theorem exec_blwp_rtwp (h : s.Ready) {gs : Operand}
    (hret : remapPc s.params (evenAddr (pcAfterOperand s gs)) = pcAfterOperand s gs)
    (hapart : ∀ p ∈ incWords s gs, ∀ a ∈ savedWords (s.wordAt (effectiveAddr s gs)) none, evenAddr p ≠ evenAddr a) :
    ∃ u, exec .rtwp (s.afterBlwp gs) = .next u ∧ u.wp = s.wp ∧ u.st = s.st ∧ u.pc = pcAfterOperand s gs := by
  obtain ⟨hrest, -, hram⟩ := State.afterBlwp_keepsRest h gs
  have hwp : (s.afterBlwp gs).wp = s.wordAt (resolve .src gs .word s).1 := congrArg Rest.wp hrest
  rw [← resolve_addr s h.2 .src gs .word, ← hwp] at hapart
  have hsaved : ∀ a ∈ savedWords (s.afterBlwp gs).wp none,
      (s.afterBlwp gs).wordAt a = savedWord s (s.afterBlwp gs).wp (pcAfterOperand s gs) none a := fun a ha => by
    rw [State.afterBlwp_wordAt_other h fun p hp => (hapart p hp a ha).symm, hwp]
  refine exec_rtwp_restores hram (congrArg Rest.params hrest) ?_ ?_ ?_ hret
  · rw [hsaved _ (by simp [savedWords]), savedWord_oldWp]
  · rw [hsaved _ (by simp [savedWords]), savedWord_oldPc]
  · rw [hsaved _ (by simp [savedWords]), savedWord_oldSt]

theorem exec_xop_rtwp (h : s.Ready) {gs : Operand}
    (hret : remapPc s.params (evenAddr (pcAfterOperand s gs)) = pcAfterOperand s gs) (n : BitVec 4) :
    ∃ u, exec .rtwp (s.afterXop gs n) = .next u ∧ u.wp = s.wp ∧ u.st = s.st ∧ u.pc = pcAfterOperand s gs := by
  obtain ⟨hrest, -, hram⟩ := State.afterXop_keepsRest h gs n
  have hwords := State.afterXop_wordAt h gs n
  rw [← State.afterXop_wp h gs n] at hwords
  refine exec_rtwp_restores hram (congrArg Rest.params hrest) ?_ ?_ ?_ hret
  · rw [hwords, savedWord_oldWp, branchTarget_wp]
  · rw [hwords, savedWord_oldPc]
  · rw [hwords, savedWord_oldSt, branchTarget_st]

/-! ## The interrupt dispatch (60_exceptions.md R306) -/

theorem State.interruptDispatch_wordAt (h : s.RamPort) (a : Word) :
    s.interruptDispatch.wordAt a = savedWord s (s.wordAt 0x0004#16) s.pc none a :=
  State.contextSwitch_wordAt h 0x0004#16 none a

theorem State.interruptDispatch_ramPort (h : s.RamPort) : s.interruptDispatch.RamPort :=
  (s.contextSwitch_readAnswers 0x0004#16 none).trans (tail_nil (tail_nil h))

theorem exec_interruptDispatch_rtwp (h : s.RamPort) (hret : remapPc s.params (evenAddr s.pc) = s.pc) :
    ∃ u, exec .rtwp s.interruptDispatch = .next u ∧ u.wp = s.wp ∧ u.st = s.st ∧ u.pc = s.pc := by
  obtain ⟨-, -, hwp, -, -, -, -, -, -, hparams⟩ := s.interruptDispatch_fields
  have hwords := State.interruptDispatch_wordAt h
  rw [← State.answerAt_ram h, ← hwp] at hwords
  refine exec_rtwp_restores (State.interruptDispatch_ramPort h) hparams ?_ ?_ ?_ hret
  · rw [hwords, savedWord_oldWp]
  · rw [hwords, savedWord_oldPc]
  · rw [hwords, savedWord_oldSt]

/-! ## RSET (R281) -/

theorem exec_rset (s : State) :
    exec .rset s = .next { s with
      st := if s.params.rsetClearsMask then s.st &&& 0xFFF0#16 else s.st
      cycles := s.cycles + 12
      calls := .pulse .rset :: s.calls } := by
  change execRset s = _
  rw [execRset]
  cases s.params.rsetClearsMask
  case false => rfl
  case true =>
    rw [if_pos rfl, if_pos rfl, ← BitVec.or_zero (x := s.st &&& 0xFFF0#16)]
    rfl

end Sys2Proof.Machine

namespace Sys2Proof.Proofs.ContextControlFamily

open Sys2Proof Sys2Proof.Machine

/-- Settles O47: the switch saves what its operand left, and the increment comes on top of the saved words. -/
theorem branchAndLoadWorkspace : Obligations.BranchAndLoadWorkspace := by
  unfold Obligations.BranchAndLoadWorkspace
  intro gs s h va newWp ret
  obtain ⟨hwp, -, -, -⟩ := switch_afterResolve h.2 gs va
  refine ⟨rfl, _, exec_blwp gs s, ?wp, State.afterBlwp_pc h gs, ?st, fun _ => State.afterBlwp_wordAt_other h,
    fun _ => State.afterBlwp_wordAt_incremented h, State.afterBlwp_unchangedOutside h gs, State.afterBlwp_calls h gs,
    ?cycles, State.afterBlwp_keepsRest h gs, rfl⟩
  case wp => exact (State.postInc_wp _ .src).trans hwp
  case st => simp [State.afterBlwp]
  case cycles => simp [State.afterBlwp]

/-- Settles O48: the switch starts from the state the operand's increment left, and X is set on top of it. -/
theorem extendedOperation : Obligations.ExtendedOperation := by
  unfold Obligations.ExtendedOperation
  intro gs n s h s1 ea va newWp ret
  have hva : xopVector n = va := xopVector_eq_ofNat n
  have hwp := State.afterXop_wp h gs n
  have hpc := State.afterXop_pc h gs n
  have hwords := State.afterXop_wordAt h gs n
  have hframe := State.afterXop_unchangedOutside h gs n
  have hcalls := State.afterXop_calls h gs n
  have hkeeps := State.afterXop_keepsRest h gs n
  rw [hva] at hwp hpc hframe hcalls hkeeps
  simp only [hva] at hwords
  exact ⟨rfl, branchTarget_onlyIncremented h gs, _, exec_xop gs n s, hwp, hpc, s.afterXop_st gs n, hwords, hframe,
    hcalls, s.afterXop_cycles gs n, hkeeps⟩

/-- Settles O50: what each of the three saved is in R13, R14 and R15 of the workspace the return reads. -/
theorem switchThenReturn : Obligations.SwitchThenReturn := by
  unfold Obligations.SwitchThenReturn
  intro gs s h
  refine ⟨fun hret => ⟨fun hapart => ?blwp, fun n => ?xop⟩, fun heven hpc => ?interrupt⟩
  case blwp =>
    obtain ⟨u, hu⟩ := exec_blwp_rtwp h hret hapart
    exact ⟨_, u, exec_blwp gs s, hu⟩
  case xop =>
    obtain ⟨u, hu⟩ := exec_xop_rtwp h hret n
    exact ⟨_, u, exec_xop gs n s, hu⟩
  case interrupt => exact exec_interruptDispatch_rtwp h.2 (by rw [evenAddr_of_even heven, hpc])

/-- Settles O49: three reads and nothing stored, and the test at the end of the step runs on the ST just loaded. -/
theorem returnWithWorkspace : Obligations.ReturnWithWorkspace := by
  unfold Obligations.ReturnWithWorkspace
  intro s st s1 pc wp t
  refine ⟨rfl, exec_rtwp s, ?test, fun hram => ⟨State.answerAt_ram hram _, ?pc, ?wp⟩⟩
  case test => rw [exec_rtwp]; rfl
  case pc => exact State.answerAt_ram (s := (s.readReg 15#4).2) (tail_nil hram) _
  case wp => exact State.answerAt_ram (s := ((s.readReg 15#4).2.readReg 14#4).2) (tail_nil (tail_nil hram)) _

/-- Settles O51: each records its pulse and charges its cycles; only IDLE and RSET do more. -/
theorem externalControl : Obligations.ExternalControl := by
  unfold Obligations.ExternalControl
  intro s
  exact ⟨rfl, rfl, exec_rset s, rfl, rfl, rfl⟩

end Sys2Proof.Proofs.ContextControlFamily
end

section
/-! SUPPORT. What an instruction costs (70_reset_and_hazards.md R372, R373). -/

namespace Sys2Proof.Machine

variable {s t u : State} {gs gd : Operand} {size : Size}

/-! ## A cost between two bounds -/

/-- The cycle counter has grown by at least `lo` and at most `hi`. -/
def Spends (lo hi : Nat) (s t : State) : Prop := s.cycles + lo ≤ t.cycles ∧ t.cycles ≤ s.cycles + hi

theorem Spends.of_cost {n lo hi : Nat} (h : t.cycles = s.cycles + n) (hlo : lo ≤ n) (hhi : n ≤ hi) :
    Spends lo hi s t := by
  rw [Spends, h]
  omega

/-- The cost of what follows an operand or a count comes on top. -/
theorem Spends.more {n lo hi lo' hi' : Nat} (h : Spends lo hi s u) (hn : t.cycles = u.cycles + n)
    (hlo : lo' ≤ lo + n) (hhi : hi + n ≤ hi') : Spends lo' hi' s t := by
  obtain ⟨hl, hh⟩ := h
  rw [Spends, hn]
  omega

/-- An operand costs at most 8 cycles (R373). -/
theorem overhead_le (size : Size) (o : Operand) : overhead size o ≤ 8 := by
  cases o
  case reg | ind => exact Nat.le_add_left _ _
  case sym | idx => exact le_rfl
  case inc =>
    cases size
    case byte => exact Nat.le_add_left 6 2
    case word => exact le_rfl

theorem spends_operand (h : u.cycles = s.cycles + overhead size gs) : Spends 0 8 s u :=
  .of_cost h (Nat.zero_le _) (overhead_le size gs)

theorem spends_operands (h : u.cycles = s.cycles + overhead size gs + overhead size gd) : Spends 0 16 s u :=
  (spends_operand (u := s.addCycles (overhead size gs)) rfl).more h (Nat.zero_le _)
    (Nat.add_le_add_left (overhead_le size gd) 8)

/-- An instruction without an operand to resolve. -/
theorem Spends.base (cost : Nat) (h : t.cycles = s.cycles + cost) (hlo : 8 ≤ cost := by decide)
    (hhi : cost ≤ 100 := by decide) : Spends 8 100 s t :=
  .of_cost h hlo hhi

/-- An instruction that charges its base count on top of one operand's. -/
theorem Spends.afterOperand (size : Size) (gs : Operand) (cost : Nat)
    (h : t.cycles = s.cycles + overhead size gs + cost) (hlo : 8 ≤ cost := by decide)
    (hhi : cost ≤ 92 := by decide) : Spends 8 100 s t :=
  (spends_operand (u := s.addCycles (overhead size gs)) rfl).more h (by omega) (by omega)

/-! ## The sequences the families share -/

section Sequences

variable {d w : Reg}

/-- A base count that two operands do not take past 100 cycles. -/
def Effect.BaseCost {n : Nat} (e : Effect n) : Prop := 8 ≤ e.cycles ∧ e.cycles ≤ 84

theorem Effect.BaseCost.of_eq {n : Nat} {e : Effect n} (cost : Nat) (h : e.cycles = cost)
    (hlo : 8 ≤ cost := by decide) (hhi : cost ≤ 84 := by decide) : e.BaseCost := by
  rw [Effect.BaseCost, h]
  exact ⟨hlo, hhi⟩

theorem Spends.conclude {n hi : Nat} {e : Effect n} (h : Spends 0 hi s u) (hhi : hi ≤ 16) (he : e.BaseCost) :
    Spends 8 100 s (u.conclude e) := by
  obtain ⟨h8, h84⟩ := he
  exact h.more (u.conclude_cycles e) (by omega) (by omega)

theorem wordDual_spends {op : Word → Word → Effect 16} (hop : ∀ sv dv, (op sv dv).BaseCost) :
    Spends 8 100 s (wordDual op gs gd s) :=
  (spends_operands (size := .word) (gs := gs) (gd := gd) (by simp)).conclude le_rfl (hop _ _)

theorem byteDual_spends {op : Byte → Byte → Effect 8} (hop : ∀ sv dv, (op sv dv).BaseCost) :
    Spends 8 100 s (byteDual op gs gd s) :=
  (spends_operands (size := .byte) (gs := gs) (gd := gd) (by simp)).conclude le_rfl (hop _ _)

theorem wordMove_spends {op : Word → Effect 16} (hop : ∀ sv, (op sv).BaseCost) :
    Spends 8 100 s (wordMove op gs gd s) :=
  (spends_operands (size := .word) (gs := gs) (gd := gd) (by simp)).conclude le_rfl (hop _)

theorem byteMove_spends {op : Byte → Effect 8} (hop : ∀ sv, (op sv).BaseCost) :
    Spends 8 100 s (byteMove op gs gd s) :=
  (spends_operands (size := .byte) (gs := gs) (gd := gd) (by simp)).conclude le_rfl (hop _)

theorem regDual_spends {op : Word → Word → Effect 16} (hop : ∀ sv dv, (op sv dv).BaseCost) :
    Spends 8 100 s (regDual op gs d s) :=
  (spends_operand (size := .word) (gs := gs) (by simp)).conclude (by decide) (hop _ _)

theorem wordUnary_spends {op : Word → Effect 16} (hop : ∀ v, (op v).BaseCost) :
    Spends 8 100 s (wordUnary op gs s) :=
  (spends_operand (size := .word) (gs := gs) (by simp)).conclude (by decide) (hop _)

theorem wordFill_spends {v : Word} : Spends 8 100 s (wordFill v gs s) :=
  .afterOperand .word gs 10 (by simp [wordFill])

theorem regUnary_cycles (op : Word → Effect 16) (w : Reg) (s : State) :
    (regUnary op w s).cycles = s.cycles + (op (s.readReg w).1).cycles := by simp [regUnary]

theorem regUnary_spends {op : Word → Effect 16} (hop : ∀ v, (op v).BaseCost) : Spends 8 100 s (regUnary op w s) := by
  obtain ⟨h8, h84⟩ := hop (s.readReg w).1
  exact .of_cost (regUnary_cycles op w s) h8 (by omega)

theorem jumpIf_spends {cond : Bool} {disp : BitVec 8} : Spends 8 100 s (jumpIf cond disp s) := by
  cases cond
  case false => exact .base 8 rfl
  case true => exact .base 10 rfl

/-- A count from R0 costs 8 cycles; it is 16 at most (44_shift.md R210). -/
theorem shiftCount_spends (count : BitVec 4) (s : State) : Spends 0 8 s (shiftCount count s).2 := by
  unfold shiftCount
  split
  · exact .of_cost (n := 8) rfl (Nat.zero_le 8) le_rfl
  · exact .of_cost (n := 0) rfl le_rfl (Nat.zero_le 8)

theorem shiftRegister_spends {op : Nat → Word → Effect 16} (hop : ∀ cnt v, (op cnt v).cycles = 12 + 2 * cnt)
    {count : BitVec 4} : Spends 8 100 s (shiftRegister op count w s) := by
  obtain ⟨-, h16⟩ := shiftCount_bounds count s
  refine (shiftCount_spends count s).more (regUnary_cycles _ w _) ?_ ?_ <;> rw [hop] <;> omega

end Sequences

/-! ## The CRU transfers (46_cru.md R255, R256) -/

theorem cruCount_le_sixteen (count : BitVec 4) : cruCount count ≤ 16 := by revert count; decide

theorem stcrCycles_bounds (cnt : Nat) : 8 ≤ stcrCycles cnt ∧ stcrCycles cnt ≤ 60 := by
  unfold stcrCycles
  split_ifs <;> decide

/-- The bits themselves cost nothing but what the base count of the instruction charges for them. -/
theorem writeBits_cycles (base : CruAddr) (v : Word) (n : Nat) (s : State) :
    (writeBits base v n s).cycles = s.cycles := by rw [writeBits_eq]

theorem readBits_cycles (base : CruAddr) (n : Nat) (s : State) : (readBits base n s).2.cycles = s.cycles := by
  obtain ⟨_, hbits⟩ := readBits_bitsRead base n s
  have hcycles := congrArg State.cycles hbits.state
  exact hcycles

theorem receiveBits_cycles (gs : Operand) (size : Size) (cnt : Nat) (s : State) :
    (receiveBits gs size cnt s).2.cycles = s.cycles + overhead size gs :=
  (readBits_cycles _ cnt _).trans (resolve_cycles s .src gs size)

theorem execLdcr_spends {count : BitVec 4} (h : execLdcr gs count s = .next t) : Spends 8 100 s t := by
  have h16 := cruCount_le_sixteen count
  by_cases hc : cruCount count ≤ 8
  · rw [execLdcr_byte hc] at h
    cases h
    exact .afterOperand .byte gs (20 + 2 * cruCount count)
      (congrArg (· + _) ((writeBits_cycles _ _ _ _).trans (readSourceByte_cycles s gs))) (by omega) (by omega)
  · rw [execLdcr_word hc] at h
    cases h
    exact .afterOperand .word gs (20 + 2 * cruCount count)
      (congrArg (· + _) ((writeBits_cycles _ _ _ _).trans (readSource_cycles s gs))) (by omega) (by omega)

theorem execStcr_spends {count : BitVec 4} (h : execStcr gs count s = .next t) : Spends 8 100 s t := by
  obtain ⟨h8, h60⟩ := stcrCycles_bounds (cruCount count)
  by_cases hc : cruCount count ≤ 8
  · rw [execStcr_byte hc] at h
    cases h
    exact .afterOperand .byte gs (stcrCycles (cruCount count))
      (congrArg (· + _) ((State.postInc_cycles _ .src).trans (receiveBits_cycles gs .byte _ s))) (by omega) (by omega)
  · rw [execStcr_word hc] at h
    cases h
    exact .afterOperand .word gs (stcrCycles (cruCount count))
      (congrArg (· + _) ((State.postInc_cycles _ .src).trans (receiveBits_cycles gs .word _ s))) (by omega) (by omega)

/-! ## Every instruction but X -/

theorem execRset_spends (h : execRset s = .next t) : Spends 8 100 s t := by
  cases h
  cases s.params.rsetClearsMask
  case false => exact .base 12 rfl
  case true => exact .base 12 rfl

theorem execTb_spends {disp : BitVec 8} (h : execTb disp s = .next t) : Spends 8 100 s t := by
  cases h
  obtain ⟨-, -, -, hcycles, -⟩ := (cruBase s).2.readBit_frame (cruBitAddr (cruBase s).1 disp)
  exact .base 12 (congrArg (· + 12) hcycles)

theorem execDiv_spends {d : Reg} (h : execDiv gs d s = .next t) : Spends 8 100 s t := by
  cases h
  split
  · exact .afterOperand .word gs 92 (by simp)
  · exact .afterOperand .word gs 16 (by simp)

/-- ABS costs more when it stores (43_single_operand.md R199). -/
theorem absEffect_baseCost (write : Option Word) (clear bits v : Word) :
    (Effect.mk write clear bits (if v.msb then 14 else 12)).BaseCost := by
  cases v.msb
  case false => exact .of_eq 12 rfl
  case true => exact .of_eq 14 rfl

theorem execWith_spends {xMeaning : Operand → State → StepOutcome} {i : Instr} (hi : isX i = false)
    (h : execWith xMeaning i s = .next t) : Spends 8 100 s t := by
  cases i
  case x => cases hi
  case rset => exact execRset_spends h
  case tb => exact execTb_spends h
  case ldcr => exact execLdcr_spends h
  case stcr => exact execStcr_spends h
  case div => exact execDiv_spends h
  all_goals cases h
  case li | idle | ckon | ckof | lrex | sbo | sbz => exact .base 12 rfl
  case stwp | stst => exact .base 8 rfl
  case lwpi => exact .base 10 rfl
  case limi => exact .base 16 rfl
  case rtwp => exact .base 14 rfl
  case blwp gs => exact .afterOperand .word gs 26 (by simp)
  case xop gs _ => exact .afterOperand .word gs 36 (by simp)
  case b gs => exact .afterOperand .word gs 8 (by simp)
  case bl gs => exact .afterOperand .word gs 12 (by simp)
  case mpy gs _ => exact .afterOperand .word gs 52 (by simp)
  case jmp | jlt | jle | jeq | jhe | jgt | jne | jnc | joc | jno | jl | jh | jop => exact jumpIf_spends
  case clr | seto => exact wordFill_spends
  case ai | andi | ori | ci => exact regUnary_spends fun _ => .of_eq 14 rfl
  case sra | srl | src | sla => exact shiftRegister_spends fun _ _ => rfl
  case abs => exact wordUnary_spends fun _ => absEffect_baseCost _ _ _ _
  case neg => exact wordUnary_spends fun _ => .of_eq 12 rfl
  case inv | inc | inct | dec | dect | swpb => exact wordUnary_spends fun _ => .of_eq 10 rfl
  case coc | czc | xor => exact regDual_spends fun _ _ => .of_eq 14 rfl
  case a | s | soc | szc | c => exact wordDual_spends fun _ _ => .of_eq 14 rfl
  case ab | sb | socb | szcb | cb => exact byteDual_spends fun _ _ => .of_eq 14 rfl
  case mov => exact wordMove_spends fun _ => .of_eq 14 rfl
  case movb => exact byteMove_spends fun _ => .of_eq 14 rfl

/-! ## X: its own 4 cycles, and its target's (45_jump_branch.md R238) -/

theorem State.underX_cycles_le (s : State) (gs : Operand) : s.cycles ≤ (s.underX gs).cycles := by
  have hcycles : (s.underX gs).cycles = s.cycles + overhead .word gs + 4 :=
    congrArg (· + 4) (readSource_cycles s gs)
  omega

theorem decodeFetched_cycles {w : Word} {i : Instr} (h : s.decodeFetched w = some (i, t)) : t.cycles = s.cycles := by
  obtain ⟨r, -, ⟨-, -, rfl⟩ | ⟨-, -, rfl⟩⟩ := State.decodeFetched_cases s h
  · exact s.fetchWord_cycles
  · rfl

theorem execXWith_atLeast_eight {execute : Instr → State → StepOutcome}
    (hexec : ∀ i s t, execute i s = .next t → s.cycles + 8 ≤ t.cycles) (h : execXWith execute gs s = .next t) :
    s.cycles + 8 ≤ t.cycles := by
  have hx := s.underX_cycles_le gs
  rw [execXWith_eq] at h
  obtain ⟨u, hu, rfl⟩ := leaveX_eq_next.1 h
  cases htarget : (s.underX gs).decodeFetched (readSource gs s).1 with
  | none =>
    rw [htarget] at hu
    cases hu
    rw [State.illegalInstruction_cycles]
    omega
  | some target =>
    rw [htarget] at hu
    have hfetch := decodeFetched_cycles htarget
    have hrun : target.2.cycles + 8 ≤ u.cycles := hexec _ _ _ hu
    show s.cycles + 8 ≤ u.cycles
    omega

theorem execWith_atLeast_eight {xMeaning : Operand → State → StepOutcome} {i : Instr}
    (hx : ∀ gs, xMeaning gs s = .next t → s.cycles + 8 ≤ t.cycles) (h : execWith xMeaning i s = .next t) :
    s.cycles + 8 ≤ t.cycles := by
  cases hi : isX i with
  | false => exact (execWith_spends hi h).1
  | true =>
    cases i <;> cases hi
    exact hx _ h

theorem execDepth_atLeast_eight (fuel : Nat) (i : Instr) (s t : State) (h : execDepth fuel i s = .next t) :
    s.cycles + 8 ≤ t.cycles := by
  induction fuel generalizing i s t with
  | zero => exact execWith_atLeast_eight (fun _ hx => by cases hx) h
  | succ fuel ih => exact execWith_atLeast_eight (fun _ => execXWith_atLeast_eight ih) h

theorem exec_atLeast_eight {i : Instr} (h : exec i s = .next t) : s.cycles + 8 ≤ t.cycles :=
  execWith_atLeast_eight (fun _ => execXWith_atLeast_eight (execDepth_atLeast_eight _)) (exec_eq_execWith i s ▸ h)

end Sys2Proof.Machine

namespace Sys2Proof.Proofs.ResetAndHazardsFamily

open Sys2Proof Sys2Proof.Machine

/-- Settles O60: base counts and operands for the upper bound; an X is no cheaper than its target. -/
theorem cycleBounds : Obligations.CycleBounds := by
  unfold Obligations.CycleBounds
  intro i s t h
  refine ⟨exec_atLeast_eight h, fun hi => ?_⟩
  rw [exec_eq_execWith] at h
  exact (execWith_spends hi h).2

end Sys2Proof.Proofs.ResetAndHazardsFamily
end

section
/-! SUPPORT. The interrupt test and the run loop (60_exceptions.md R300 to R309, 70_reset_and_hazards.md R350 to
R353). -/

namespace Sys2Proof.Machine

variable {s t u : State} {later : List Bool} {request : Bool}

/-! ## The interrupt test (60_exceptions.md R305, R306; log 7) -/

theorem State.sampleInt_queued (h : s.intSamples = request :: later) :
    s.sampleInt = (request, { s with intSamples := later }) := by
  rw [State.sampleInt, h]

theorem State.maskOpen_eq_true_iff (s : State) : s.maskOpen = true ↔ s.st &&& 0x000F#16 ≠ 0#16 := bne_iff_ne

/-- Whether the queued request is accepted. -/
theorem State.accepts_eq_true_iff (h : s.intSamples = request :: later) :
    (s.maskOpen && s.sampleInt.1) = true ↔ s.st &&& 0x000F#16 ≠ 0#16 ∧ request = true := by
  rw [Bool.and_eq_true, State.maskOpen_eq_true_iff, State.sampleInt_queued h]

theorem State.not_accepts (h : s.intSamples = request :: later)
    (hno : s.st &&& 0x000F#16 = 0#16 ∨ request = false) : (s.maskOpen && s.sampleInt.1) = false := by
  rw [Bool.eq_false_iff, Ne, State.accepts_eq_true_iff h]
  rintro ⟨hmask, hrequest⟩
  rcases hno with hzero | hnone
  · exact hmask hzero
  · rw [hrequest] at hnone
    cases hnone

theorem State.interruptTest_notAccepted (h : s.intSamples = request :: later)
    (hno : s.st &&& 0x000F#16 = 0#16 ∨ request = false) : s.interruptTest = { s with intSamples := later } := by
  rw [State.interruptTest]
  rw [State.not_accepts h hno, State.sampleInt_queued h]
  rfl

theorem State.interruptTest_accepted (h : s.intSamples = request :: later) (hmask : s.st &&& 0x000F#16 ≠ 0#16)
    (hrequest : request = true) : s.interruptTest = State.interruptDispatch { s with intSamples := later } := by
  rw [State.interruptTest]
  rw [if_pos ((State.accepts_eq_true_iff h).2 ⟨hmask, hrequest⟩), State.sampleInt_queued h]

theorem State.interruptDispatch_unchangedOutside (h : s.RamPort) :
    UnchangedOutside s s.interruptDispatch (savedWords (s.wordAt 0x0004#16) none) :=
  State.contextSwitch_unchangedOutside h 0x0004#16 none

theorem State.interruptDispatch_calls (h : s.RamPort) :
    s.interruptDispatch.calls = switchCalls s 0x0004#16 (s.wordAt 0x0004#16) s.pc none ++ s.calls :=
  State.contextSwitch_calls_eq h 0x0004#16 none

theorem State.interruptDispatch_rest (h : s.RamPort) :
    s.interruptDispatch.rest = { s.rest with wp := s.wordAt 0x0004#16, idle := false } := by
  have hrest := s.contextSwitch_rest 0x0004#16 none
  rw [State.answerAt_ram h] at hrest
  exact congrArg (fun r : Rest => { r with idle := false }) hrest

/-! ## One pass of the loop (R350, R352, R353) -/

theorem loopPass_suspended (h : s.suspended = true) : loopPass s = .stopped s := if_pos h

theorem loopPass_notIdle (hsuspended : s.suspended = false) (hidle : s.idle = false) : loopPass s = passBody s := by
  rw [loopPass, hsuspended, hidle]
  rfl

theorem loopPass_idle (hsuspended : s.suspended = false) (hidle : s.idle = true) :
    loopPass s =
      if s.maskOpen && s.sampleInt.1 then passBody s.sampleInt.2.interruptDispatch else .stopped s.sampleInt.2 := by
  rw [loopPass, hsuspended, hidle]
  rfl

theorem State.breakpointHit_eq_true_iff (s : State) :
    s.breakpointHit = true ↔ s.breakpoint = some s.pc ∧ s.bpLatch = false := by
  simp [State.breakpointHit]

theorem passBody_hit (h : s.breakpointHit = true) : passBody s = .stopped { s with bpLatch := true } := if_pos h

theorem passBody_notHit (h : s.breakpointHit = false) :
    passBody s = .ran (leaveStep (instructionStep { s with bpLatch := false })) := by
  rw [passBody, h]
  rfl

/-- The latch lets the next pass go on. -/
theorem State.passBody_latched (s : State) :
    passBody { s with bpLatch := true } = .ran (leaveStep (instructionStep { s with bpLatch := false })) :=
  passBody_notHit (s := { s with bpLatch := true }) (Bool.and_false _)

theorem loopPass_running (h : s.Running) :
    loopPass s = .ran (leaveStep (instructionStep { s with bpLatch := false })) := by
  obtain ⟨hsuspended, hidle, hbreakpoint⟩ := h
  rw [loopPass_notIdle hsuspended hidle, passBody_notHit hbreakpoint]

/-! ## A step that completes, as a run sees it -/

theorem runLoop_done {start budget : Nat} (h : budget ≤ s.cycles - start) (fuel : Nat) :
    runLoop start budget fuel s = .next s := by
  cases fuel with
  | zero => rfl
  | succ fuel => exact if_neg (Nat.not_lt.2 h)

theorem runLoop_stopped {start budget fuel : Nat} (h : s.cycles - start < budget) (hpass : loopPass s = .stopped t) :
    runLoop start budget (fuel + 1) s = .next t := by
  rw [runLoop, if_pos h, hpass]

theorem runLoop_ran {start budget fuel : Nat} (h : s.cycles - start < budget) (hpass : loopPass s = .ran (.next t)) :
    runLoop start budget (fuel + 1) s = runLoop start budget fuel t := by
  rw [runLoop, if_pos h, hpass]

/-- While suspended the loop goes no further, whatever is left of the budget. -/
theorem runLoop_suspended (h : s.suspended = true) (start budget fuel : Nat) :
    runLoop start budget fuel s = .next s := by
  by_cases hbudget : s.cycles - start < budget
  · cases fuel with
    | zero => rfl
    | succ fuel => exact runLoop_stopped hbudget (loopPass_suspended h)
  · exact runLoop_done (Nat.not_lt.1 hbudget) fuel

theorem hostRun_of_runLoop {budget : Nat} (h : runLoop s.cycles budget budget s = .next t) :
    hostRun budget s = .next (t.cycles - s.cycles, t) := by
  rw [hostRun, h]

/-- The first step of a run that completes: the run goes on from where it was left. -/
theorem runLoop_first_step {budget : Nat} (h : s.Running)
    (hstep : instructionStep { s with bpLatch := false } = .next t) :
    runLoop s.cycles (budget + 1) (budget + 1) s = runLoop s.cycles (budget + 1) budget t.noteSuspend := by
  refine runLoop_ran (by omega) ?_
  rw [loopPass_running h, hstep]
  rfl

/-! ## The budget of a run (R350; log 16) -/

/-- What keeps the loop from going on. -/
def State.Stopped (s : State) : Prop :=
  s.suspended = true ∨ s.idle = true ∨ (s.breakpoint = some s.pc ∧ s.bpLatch = true)

/-- A breakpoint stop, or a step. -/
theorem passBody_stopped (h : passBody s = .stopped t) : t.Stopped := by
  cases hhit : s.breakpointHit with
  | true =>
    rw [passBody_hit hhit] at h
    cases h
    exact .inr (.inr ⟨((s.breakpointHit_eq_true_iff).1 hhit).1, rfl⟩)
  | false =>
    rw [passBody_notHit hhit] at h
    cases h

theorem loopPass_stopped (h : loopPass s = .stopped t) : t.Stopped := by
  cases hsuspended : s.suspended with
  | true =>
    rw [loopPass_suspended hsuspended] at h
    cases h
    exact .inl hsuspended
  | false =>
    cases hidle : s.idle with
    | false =>
      rw [loopPass_notIdle hsuspended hidle] at h
      exact passBody_stopped h
    | true =>
      rw [loopPass_idle hsuspended hidle] at h
      split at h
      · exact passBody_stopped h
      · cases h
        refine .inr (.inl ?_)
        rw [State.sampleInt_frame]
        exact hidle

theorem State.interruptDispatch_cycles_le (s : State) : s.cycles ≤ s.interruptDispatch.cycles := by
  obtain ⟨-, -, -, -, -, hcycles, -⟩ := s.interruptDispatch_fields
  omega

theorem State.sampleInt_cycles (s : State) : s.sampleInt.2.cycles = s.cycles := by rw [State.sampleInt_frame]

theorem State.interruptTest_cycles_le (s : State) : s.cycles ≤ s.interruptTest.cycles := by
  have hdispatch := s.sampleInt.2.interruptDispatch_cycles_le
  have hsample := s.sampleInt_cycles
  rw [State.interruptTest]
  split <;> omega

theorem executeWord_cycles_lt {w : Word} (h : executeWord w s = .next t) : s.cycles < t.cycles := by
  cases hdecoded : s.decodeFetched w with
  | none =>
    rw [executeWord, hdecoded] at h
    cases h
    rw [State.illegalInstruction_cycles]
    omega
  | some target =>
    rw [executeWord_of_decodeFetched hdecoded] at h
    have hfetch := decodeFetched_cycles hdecoded
    have hrun := exec_atLeast_eight h
    omega

theorem instructionStep_cycles_lt (h : instructionStep s = .next t) : s.cycles < t.cycles := by
  obtain ⟨u, hu, rfl⟩ := endStep_eq_next.1 h
  have hword : s.fetchWord.2.cycles < u.cycles := executeWord_cycles_lt hu
  exact Nat.lt_of_lt_of_le hword u.interruptTest_cycles_le

/-- A pass that does not stop charges at least one cycle. -/
theorem passBody_cycles_lt (h : passBody s = .ran (.next t)) : s.cycles < t.cycles := by
  cases hhit : s.breakpointHit with
  | true =>
    rw [passBody_hit hhit] at h
    cases h
  | false =>
    rw [passBody_notHit hhit, PassResult.ran.injEq] at h
    obtain ⟨u, hu, rfl⟩ := leaveStep_eq_next.1 h
    have hlt : State.cycles { s with bpLatch := false } < u.cycles := instructionStep_cycles_lt hu
    exact hlt

theorem loopPass_cycles_lt (h : loopPass s = .ran (.next t)) : s.cycles < t.cycles := by
  cases hsuspended : s.suspended with
  | true =>
    rw [loopPass_suspended hsuspended] at h
    cases h
  | false =>
    cases hidle : s.idle with
    | false =>
      rw [loopPass_notIdle hsuspended hidle] at h
      exact passBody_cycles_lt h
    | true =>
      rw [loopPass_idle hsuspended hidle] at h
      split at h
      · have hdispatch := s.sampleInt.2.interruptDispatch_cycles_le
        rw [State.sampleInt_cycles] at hdispatch
        exact Nat.lt_of_le_of_lt hdispatch (passBody_cycles_lt h)
      · cases h

/-- With as many passes as cycles are left of the budget, the loop ends at the budget or because it stopped. -/
theorem runLoop_reaches {start budget fuel : Nat} (hstart : start ≤ s.cycles)
    (hfuel : start + budget ≤ s.cycles + fuel) (h : runLoop start budget fuel s = .next t) :
    budget ≤ t.cycles - start ∨ t.Stopped := by
  induction fuel generalizing s with
  | zero =>
    cases h
    left
    omega
  | succ fuel ih =>
    by_cases hbudget : s.cycles - start < budget
    case neg =>
      rw [runLoop_done (Nat.not_lt.1 hbudget)] at h
      cases h
      exact .inl (Nat.not_lt.1 hbudget)
    case pos =>
      cases hpass : loopPass s with
      | stopped u =>
        rw [runLoop_stopped hbudget hpass] at h
        cases h
        exact .inr (loopPass_stopped hpass)
      | ran o =>
        cases o with
        | next u =>
          have hlt := loopPass_cycles_lt hpass
          rw [runLoop_ran hbudget hpass] at h
          exact ih (by omega) (by omega) h
        | fault r => cases r
        | refused r =>
          rw [runLoop, if_pos hbudget, hpass] at h
          cases h

theorem hostRun_eq_next {budget consumed : Nat} (h : hostRun budget s = .next (consumed, t)) :
    runLoop s.cycles budget budget s = .next t ∧ consumed = t.cycles - s.cycles := by
  cases hloop : runLoop s.cycles budget budget s with
  | next u =>
    rw [hostRun_of_runLoop hloop] at h
    cases h
    exact ⟨rfl, rfl⟩
  | fault r => cases r
  | refused r =>
    rw [hostRun, hloop] at h
    cases h

end Sys2Proof.Machine

namespace Sys2Proof.Proofs.ExceptionsFamily

open Sys2Proof Sys2Proof.Machine

/-- Settles O52: the dispatch is a context switch through 0x0004, and the sample it took is no part of what the
switch saves. -/
theorem interruptTestRule : Obligations.InterruptTestRule := by
  unfold Obligations.InterruptTestRule
  intro s request later hram hsamples newWp t
  refine ⟨State.interruptTest_notAccepted hsamples, fun hmask hrequest => ?_⟩
  have ht : t = State.interruptDispatch { s with intSamples := later } :=
    State.interruptTest_accepted hsamples hmask hrequest
  have hram' : State.RamPort { s with intSamples := later } := hram
  obtain ⟨-, hpc, -, hst, -, hcycles, hsrc, hdst, -⟩ := State.interruptDispatch_fields { s with intSamples := later }
  have hrest := State.interruptDispatch_rest hram'
  rw [State.contextSwitch_pc_savedWord hram'] at hpc
  rw [ht]
  exact ⟨congrArg Rest.wp hrest, hpc, hst, State.interruptDispatch_wordAt hram',
    State.interruptDispatch_unchangedOutside hram', State.interruptDispatch_calls hram', hcycles, hrest, hsrc, hdst,
    State.interruptDispatch_ramPort hram'⟩

/-- Settles O7: the one word fetched selects no row, and the action on it touches the two counters. -/
theorem illegalWordStep : Obligations.IllegalWordStep := by
  unfold Obligations.IllegalWordStep
  intro s hrunning hillegal
  have hdecoded : (State.fetchWord { s with bpLatch := false }).2.decodeFetched (s.answerAt s.pc) = none :=
    State.decodeFetched_illegal hillegal
  rw [step_of_running hrunning, executeWord, hdecoded, State.fetchWord_eq]
  rfl

end Sys2Proof.Proofs.ExceptionsFamily

namespace Sys2Proof.Proofs.ResetAndHazardsFamily

open Sys2Proof Sys2Proof.Machine

/-- Settles O53, one form of a pass after the other; a run sees the flag raised during its first step at its next
test. -/
theorem suspendedIdleAndBreakpointPasses : Obligations.SuspendedIdleAndBreakpointPasses := by
  unfold Obligations.SuspendedIdleAndBreakpointPasses
  intro s
  refine ⟨loopPass_suspended, fun hsuspended hidle request later hsamples hno => ?notAccepted,
    fun hsuspended hidle hbreakpoint hlatch => ⟨?hit, ?latched⟩,
    fun hrunning t later budget hstep hchanges => ?raised,
    fun hsuspended hidle hmask later hsamples => ⟨?accepted, rfl⟩⟩
  case notAccepted =>
    rw [loopPass_idle hsuspended hidle, State.not_accepts hsamples hno, State.sampleInt_queued hsamples]
    rfl
  case hit =>
    rw [loopPass_notIdle hsuspended hidle, passBody_hit (s.breakpointHit_eq_true_iff.2 ⟨hbreakpoint, hlatch⟩)]
  case latched => exact (loopPass_notIdle (s := { s with bpLatch := true }) hsuspended hidle).trans s.passBody_latched
  case raised =>
    have hnote : t.noteSuspend = { t with suspended := true, suspendChanges := later } := by
      rw [State.noteSuspend, hchanges]
      rfl
    have hloop : runLoop s.cycles (budget + 1) (budget + 1) s = .next t.noteSuspend := by
      rw [runLoop_first_step hrunning hstep]
      exact runLoop_suspended (by rw [hnote]) _ _ _
    have hrun := hostRun_of_runLoop hloop
    rw [hnote] at hrun
    exact hrun
  case accepted =>
    rw [loopPass_idle hsuspended hidle, if_pos ((State.accepts_eq_true_iff hsamples).2 ⟨hmask, rfl⟩),
      State.sampleInt_queued hsamples]

/-- Settles O54: the passes are enough, because each that does not stop charges a cycle. -/
theorem runReachesItsBudget : Obligations.RunReachesItsBudget := by
  unfold Obligations.RunReachesItsBudget
  intro s t budget consumed h
  obtain ⟨hloop, hconsumed⟩ := hostRun_eq_next h
  refine ⟨hconsumed, fun hlt => ?_⟩
  exact (runLoop_reaches le_rfl le_rfl hloop).resolve_left (by omega)

/-- Settles O55: no pass for no budget, and one step charges at least the one cycle of a budget of 1. -/
theorem runOneIsOneStep : Obligations.RunOneIsOneStep := by
  unfold Obligations.RunOneIsOneStep
  intro s
  refine ⟨?zero, fun hrunning t hstep => ?one⟩
  case zero =>
    rw [hostRun_of_runLoop (s := s) (t := s) (budget := 0) rfl, Nat.sub_self]
  case one => exact hostRun_of_runLoop (t := t.noteSuspend) (runLoop_first_step (budget := 0) hrunning hstep)

end Sys2Proof.Proofs.ResetAndHazardsFamily
end

section
/-! SUPPORT. The host operations reset, restore and snapshot (70_reset_and_hazards.md R340, R341, R355, R356). -/

namespace Sys2Proof.Machine

variable {s : State}

/-! ## reset (R340, R341) -/

/-- All that reset does, whatever the port answers to its two reads. -/
theorem hostReset_eq (s : State) :
    hostReset s =
      { s with
        wp := s.answerAt 0x0000#16
        pc := remapPc s.params (evenAddr ((s.readWord 0x0000#16).2.answerAt 0x0002#16))
        st := s.params.stReset
        cycles := 0
        illegalCount := 0
        idle := false
        suspended := false
        breakpoint := none
        bpLatch := false
        pendingSrc := none
        pendingDst := none
        xDepth := 0
        readAnswers := s.readAnswers.drop 2
        calls := .readWord 0x0002#16 ((s.readWord 0x0000#16).2.answerAt 0x0002#16) ::
          .readWord 0x0000#16 (s.answerAt 0x0000#16) :: s.calls } := by
  have hdrop : s.readAnswers.drop 2 = s.readAnswers.tail.tail := by
    rw [← List.drop_one, ← List.drop_one, List.drop_drop]
  rw [hdrop]
  rfl

/-- R9 keeps the interrupt mask out of ST_RESET. -/
theorem stReset_and_maskInt {p : Config.Params} (h : p.wf = true) : p.stReset &&& maskInt = 0#16 := by
  simp only [Config.Params.wf, Bool.and_eq_true, beq_iff_eq] at h
  obtain ⟨⟨hst, -⟩, -⟩ := h
  exact hst

/-- Where the port answers with its RAM, the fields reset keeps give the fields it sets. -/
theorem hostReset_ram (h : s.RamPort) :
    hostReset s =
      { s with
        wp := s.wordAt 0x0000#16
        pc := remapPc s.params (evenAddr (s.wordAt 0x0002#16))
        st := s.params.stReset
        cycles := 0
        illegalCount := 0
        idle := false
        suspended := false
        breakpoint := none
        bpLatch := false
        pendingSrc := none
        pendingDst := none
        xDepth := 0
        readAnswers := []
        calls := .readWord 0x0002#16 (s.wordAt 0x0002#16) :: .readWord 0x0000#16 (s.wordAt 0x0000#16) :: s.calls } := by
  have hsecond : (s.readWord 0x0000#16).2.answerAt 0x0002#16 = s.wordAt 0x0002#16 :=
    State.answerAt_ram (tail_nil h) _
  have hram : s.readAnswers = [] := h
  rw [hostReset_eq, State.answerAt_ram hram, hsecond, hram]
  rfl

/-! ## The snapshot (R355) -/

/-- What the port answers to the read of register `n` when `k` reads come before it (log 1). -/
def State.regAnswer (s : State) (k : Nat) (n : Reg) : Word := (s.readAnswers[k]?.join).getD (s.regAt n)

theorem State.readReg_answer (s : State) (n : Reg) : (s.readReg n).1 = s.regAnswer 0 n := by
  rw [State.regAnswer, ← List.head?_eq_getElem?]
  rfl

/-- A read takes one answer, and the later reads find theirs. -/
theorem State.regAnswer_readReg (s : State) (m n : Reg) (k : Nat) :
    (s.readReg m).2.regAnswer k n = s.regAnswer (k + 1) n := by
  have htail : (s.readReg m).2.readAnswers[k]? = s.readAnswers[k + 1]? := List.getElem?_tail
  rw [State.regAnswer, htail]
  rfl

theorem readRegs_values (ns : List Reg) (s : State) : (readRegs ns s).1 = ns.mapIdx s.regAnswer := by
  induction ns generalizing s with
  | nil => rfl
  | cons n ns ih =>
    rw [readRegs, List.mapIdx_cons, ← s.readReg_answer n]
    exact congrArg _ ((ih _).trans (congrArg (List.mapIdx · ns) (funext₂ fun k m => s.regAnswer_readReg n m k)))

/-- The calls of the reads, oldest first. -/
def State.readRegCall (s : State) (k : Nat) (n : Reg) : PortCall :=
  .readWord (evenAddr (s.regAddr n)) (s.regAnswer k n)

theorem readRegs_state (ns : List Reg) (s : State) :
    (readRegs ns s).2 =
      { s with
        readAnswers := s.readAnswers.drop ns.length
        calls := (ns.mapIdx s.readRegCall).reverse ++ s.calls } := by
  induction ns generalizing s with
  | nil => rfl
  | cons n ns ih =>
    have hlater : (s.readReg n).2.readRegCall = fun k => s.readRegCall (k + 1) :=
      funext₂ fun k m => congrArg (PortCall.readWord _) (s.regAnswer_readReg n m k)
    have hfirst : (s.readReg n).2.calls = s.readRegCall 0 n :: s.calls :=
      congrArg (fun v => PortCall.readWord _ v :: s.calls) (s.readReg_answer n)
    have hdrop : (s.readReg n).2.readAnswers.drop ns.length = s.readAnswers.drop (ns.length + 1) := List.drop_tail
    rw [readRegs, List.mapIdx_cons, List.reverse_cons, List.append_assoc]
    refine (ih (s.readReg n).2).trans ?_
    rw [hlater, hfirst, hdrop]
    rfl

/-- The n-th register of the snapshot is register n. -/
theorem allRegs_getElem? (n : Reg) : allRegs[n.toNat]? = some n := by revert n; decide

theorem mapIdx_allRegs {α : Type} (f : Nat → Reg → α) : allRegs.mapIdx f = allRegs.map fun n => f n.toNat n := by
  simp [allRegs, List.mapIdx_cons]

end Sys2Proof.Machine

namespace Sys2Proof.Proofs.ResetAndHazardsFamily

open Sys2Proof Sys2Proof.Machine

/-- Settles O1: the fields of a closed state, no table of PcRemap among its parameters. -/
theorem resetStateFields : Obligations.ResetStateFields := by
  unfold Obligations.ResetStateFields
  exact ⟨rfl, rfl, rfl, rfl, rfl, rfl, rfl, rfl, rfl, rfl, rfl, rfl, rfl⟩

/-- Settles O2: two reads, and every other field set or kept. -/
theorem hostResetEffect : Obligations.HostResetEffect := by
  unfold Obligations.HostResetEffect
  intro s w p
  refine ⟨fun hparams => ?_, hostReset_eq s⟩
  rw [hostReset_eq]
  exact stReset_and_maskInt hparams

/-- Settles O3: reset takes its words from memory and the parameters, which it keeps. -/
theorem resetTwiceIsResetOnce : Obligations.ResetTwiceIsResetOnce := by
  unfold Obligations.ResetTwiceIsResetOnce
  intro s record h
  have hram : (hostReset s).RamPort := by rw [hostReset_ram h]
  rw [hostReset_ram hram, hostReset_ram h]
  rfl

/-- Settles O56: each item is a field of the restored state. -/
theorem saveThenRestore : Obligations.SaveThenRestore := by
  unfold Obligations.SaveThenRestore
  exact fun _ _ => rfl

/-- Settles O57: the reads take their answers in order, register n being the n-th. -/
theorem registerSnapshot : Obligations.RegisterSnapshot := by
  unfold Obligations.RegisterSnapshot
  intro s answer
  have hregs : (hostSnapshot s).1.regs = allRegs.map answer :=
    (readRegs_values allRegs s).trans (mapIdx_allRegs _)
  have hstate := readRegs_state allRegs s
  rw [mapIdx_allRegs] at hstate
  refine ⟨rfl, rfl, rfl, ?length, fun n => ?nth, fun hram n => ?ram, hstate⟩
  case length => rw [hregs, List.length_map]; rfl
  case nth => rw [hregs, List.getElem?_map, allRegs_getElem?]; rfl
  case ram =>
    have hempty : s.readAnswers = [] := hram
    simp [answer, hempty]

end Sys2Proof.Proofs.ResetAndHazardsFamily
end
